-- ==== Sys2Proof/Word.lean ====
section
/-! DEFINITION. The widths of the codec block (00_scope.md R6, 20_memory.md R40). -/

namespace Sys2Proof

/-- A command word or a read-port value: 32 bits (R6, R40). -/
abbrev Word := BitVec 32

/-- A sample, a difference symbol or a byte of the serialized code stream: 8 bits (R6, R40). -/
abbrev Byte := BitVec 8

/-- A dictionary code: 16 bits (R6, R40). -/
abbrev Code := BitVec 16

/-- A dimension or a scan position: 24 bits (R6, R7). -/
abbrev Dim := BitVec 24

end Sys2Proof
end

