-- ==== Sys2Proof/Config.lean ====
section
/-! DEFINITION. What an implementation fixes and what the spec leaves open: uninterpreted constants. No proof can see
a value of one, so a theorem about the model holds for every value. -/

namespace Sys2Proof.Config

/-- MAX_CHANS less 1, any of 0..16777214: the parameter of 00_scope.md R6 is OPEN, `1 <= MAX_CHANS <= 16777215`
(92_eei_decisions.md D13, log 1). -/
opaque maxChansLessOne : Fin 16777215

/-- MAX_CHANS at reset, 1..16777215 (R6). It is written as a successor so that a channel count of 1 is seen to be
legal whatever the value (log 1). -/
def maxChans : Nat := maxChansLessOne.val + 1

/-- OUT_DEPTH, the hardware depth of each output buffer (R6, 70_reset_and_hazards.md R99). No rule of the model reads
it: the model's streams are unbounded (log 11, log 12). -/
opaque outDepth : Nat

/-- PLATFORM_BASE, the placement in a system address map (R6, 20_memory.md R41). No rule depends on it (log 12). -/
opaque platformBase : Nat

/-- ERR_IRQ_ROUTE, where ERR_IRQ is wired (R6, 60_exceptions.md R86). No rule depends on it (log 12). -/
opaque errIrqRoute : Nat

/-- The value a read-port read returns while a command is in flight: any 32-bit value, under no law
(70_reset_and_hazards.md R98). The argument is the number of values drawn before (log 4). -/
opaque busyRead : Nat → Word

end Sys2Proof.Config
end

