-- ==== Sys2Proof/Syntax.lean ====
section
/-! DEFINITION. The sixteen commands of the opcode map (30_encoding.md R50), one constructor per row of
spec/opcode_table.json. An operand has exactly the width of its field (R48, R49), so every term is a command some
word spells; operands that do not fit a field exist only in the assembler's input (WellFormed.lean). -/

namespace Sys2Proof

inductive Instr where
  /-- NOP, format Z (40_control.md R56). -/
  | nop
  /-- SOFT_RESET, format Z (40_control.md R57). -/
  | softReset
  /-- SET_CTRL f, format B2: bit 0 the chain, bit 1 the byte order (40_control.md R58). -/
  | setCtrl (f : BitVec 2)
  /-- DIF_SET_COLS n, format I24 (41_differencer.md R61). -/
  | difSetCols (n : Dim)
  /-- DIF_SET_CHANS n, format I24 (41_differencer.md R61). -/
  | difSetChans (n : Dim)
  /-- DIF_SET_ROWS n, format I24 (41_differencer.md R61). -/
  | difSetRows (n : Dim)
  /-- DIF_SET_MODE b, format B1 (41_differencer.md R62). -/
  | difSetMode (b : BitVec 1)
  /-- DIF_START, format Z (41_differencer.md R63). -/
  | difStart
  /-- DIF_SAMPLE v, format I8 (41_differencer.md R64). -/
  | difSample (v : Byte)
  /-- ENC_INIT, format Z (42_encoder.md R70). -/
  | encInit
  /-- ENC_SYMBOL s, format I8 (42_encoder.md R71). -/
  | encSymbol (sym : Byte)
  /-- ENC_FLUSH, format Z (42_encoder.md R72). -/
  | encFlush
  /-- DEC_INIT, format Z (43_decoder.md R75). -/
  | decInit
  /-- DEC_CODE k, format I16 (43_decoder.md R76). -/
  | decCode (k : Code)
  /-- DEC_BYTE b, format I8 (43_decoder.md R77). -/
  | decByte (b : Byte)
  /-- DEC_END, format Z (43_decoder.md R78). -/
  | decEnd
  deriving DecidableEq, Repr

end Sys2Proof
end

