-- ==== Sys2Proof/WellFormed.lean ====
section
/-! DEFINITION. Well-formed assembler lines (30_encoding.md R53, R54). A term of `Instr` needs no check, because each
operand has its field's width. What can be ill formed is a line of the assembler, whose numbers are unbounded: "The
assembler refuses a number that does not fit; it never truncates it" (R53). -/

namespace Sys2Proof

/-- A command or pseudo-instruction as the assembler reads it, operands as written (R53, R54). -/
inductive AsmLine where
  | nop
  | softReset
  | setCtrl (chain order : Nat)
  | difSetCols (n : Nat)
  | difSetChans (n : Nat)
  | difSetRows (n : Nat)
  | difSetMode (b : Nat)
  | difStart
  | difSample (v : Nat)
  | encInit
  | encSymbol (s : Nat)
  | encFlush
  | decInit
  | decCode (k : Nat)
  | decByte (b : Nat)
  | decEnd
  /-- DIF_IMAGE rows, cols, chans, mode (R54). -/
  | difImage (rows cols chans mode : Nat)
  /-- DIF_SAMPLES v1, ..., vn (R54). -/
  | difSamples (vs : List Nat)
  /-- ENC_SYMBOLS s1, ..., sn (R54). -/
  | encSymbols (ss : List Nat)
  /-- DEC_CODE_BYTES k, order (R54). -/
  | decCodeBytes (k order : Nat)
  deriving DecidableEq, Repr

/-- A number fits a field of `w` bits (R53). -/
def fits (w n : Nat) : Bool := n < 2 ^ w

/-- Every number of the line fits the field it goes to (R53); a list pseudo-instruction has at least one operand
(R54 writes `v1, ..., vn`; DESIGN CHOICE, log 16). -/
def AsmLine.wf : AsmLine → Bool
  | .nop => true
  | .softReset => true
  | .setCtrl chain order => fits 1 chain && fits 1 order
  | .difSetCols n => fits 24 n
  | .difSetChans n => fits 24 n
  | .difSetRows n => fits 24 n
  | .difSetMode b => fits 1 b
  | .difStart => true
  | .difSample v => fits 8 v
  | .encInit => true
  | .encSymbol s => fits 8 s
  | .encFlush => true
  | .decInit => true
  | .decCode k => fits 16 k
  | .decByte b => fits 8 b
  | .decEnd => true
  | .difImage rows cols chans mode => fits 24 rows && fits 24 cols && fits 24 chans && fits 1 mode
  | .difSamples vs => !vs.isEmpty && vs.all (fits 8)
  | .encSymbols ss => !ss.isEmpty && ss.all (fits 8)
  | .decCodeBytes k order => fits 16 k && fits 1 order

end Sys2Proof
end

