-- ==== Sys2Proof/Decode.lean ====
section
/-! DEFINITION. Decoding a command word and encoding a command (30_encoding.md R47 to R52). Both are written from the
same tables: the formats of R48 and the opcode map of R50. The block has no byte order at its command port: a word
arrives in parallel (20_memory.md R38). -/

namespace Sys2Proof

/-- Why a word is no command. Each is the architectural error of the same name (60_exceptions.md R80). -/
inductive DecodeError where
  /-- Bits 31:24 are no assigned opcode (R51). -/
  | illegalOpcode
  /-- The opcode is assigned and a reserved bit is 1 (R52). -/
  | reservedBits
  deriving DecidableEq, Repr

/-- What a word decodes to: a command, or the named reason why it is none. -/
inductive Decoded where
  | ok (i : Instr)
  | bad (e : DecodeError)
  deriving DecidableEq, Repr

/-! ### Fields of a command word (R47, R48) -/

/-- `OP = w[31:24]` (R47). -/
def opcodeField (w : Word) : Byte := w.extractLsb' 24 8

/-- The payload `w[23:0]` (R47), which is also `imm24` (R48). -/
def imm24Field (w : Word) : Dim := w.extractLsb' 0 24

/-- `imm16 = w[15:0]` (R48). -/
def imm16Field (w : Word) : Code := w.extractLsb' 0 16

/-- `imm8 = w[7:0]` (R48). -/
def imm8Field (w : Word) : Byte := w.extractLsb' 0 8

/-- `f = w[1:0]` (R48). -/
def b2Field (w : Word) : BitVec 2 := w.extractLsb' 0 2

/-- `b = w[0]` (R48). -/
def b1Field (w : Word) : BitVec 1 := w.extractLsb' 0 1

/-! ### Formats (R48) with their reserved bits (R52) -/

/-- Format Z: bits 23:0 are reserved. -/
def decodeZ (w : Word) (i : Instr) : Decoded :=
  if w.extractLsb' 0 24 = 0#24 then .ok i else .bad .reservedBits

/-- Format B1: bits 23:1 are reserved. -/
def decodeB1 (w : Word) (i : BitVec 1 → Instr) : Decoded :=
  if w.extractLsb' 1 23 = 0#23 then .ok (i (b1Field w)) else .bad .reservedBits

/-- Format B2: bits 23:2 are reserved. -/
def decodeB2 (w : Word) (i : BitVec 2 → Instr) : Decoded :=
  if w.extractLsb' 2 22 = 0#22 then .ok (i (b2Field w)) else .bad .reservedBits

/-- Format I8: bits 23:8 are reserved. -/
def decodeI8 (w : Word) (i : Byte → Instr) : Decoded :=
  if w.extractLsb' 8 16 = 0#16 then .ok (i (imm8Field w)) else .bad .reservedBits

/-- Format I16: bits 23:16 are reserved. -/
def decodeI16 (w : Word) (i : Code → Instr) : Decoded :=
  if w.extractLsb' 16 8 = 0#8 then .ok (i (imm16Field w)) else .bad .reservedBits

/-- Format I24: no reserved bit. -/
def decodeI24 (w : Word) (i : Dim → Instr) : Decoded :=
  .ok (i (imm24Field w))

/-- The opcode map (R50). Every other opcode is illegal (R51), and that check comes before the reserved bits
(60_exceptions.md R83). -/
def decode (w : Word) : Decoded :=
  match (opcodeField w).toNat with
  | 0x00 => decodeZ w .nop
  | 0x01 => decodeZ w .softReset
  | 0x02 => decodeB2 w .setCtrl
  | 0x10 => decodeI24 w .difSetCols
  | 0x11 => decodeI24 w .difSetChans
  | 0x12 => decodeI24 w .difSetRows
  | 0x13 => decodeB1 w .difSetMode
  | 0x14 => decodeZ w .difStart
  | 0x15 => decodeI8 w .difSample
  | 0x20 => decodeZ w .encInit
  | 0x21 => decodeI8 w .encSymbol
  | 0x22 => decodeZ w .encFlush
  | 0x30 => decodeZ w .decInit
  | 0x31 => decodeI16 w .decCode
  | 0x32 => decodeI8 w .decByte
  | 0x33 => decodeZ w .decEnd
  | _ => .bad .illegalOpcode

/-! ### The encoder -/

/-- A word from its opcode and its payload, `(OP << 24) | payload` (R47). -/
def packWord (op : Byte) (payload : BitVec 24) : Word := (op.setWidth 32 <<< 24) ||| payload.setWidth 32

/-- The word of a command (R48, R50); an operand is zero-extended into the payload. -/
def encode : Instr → Word
  | .nop => packWord 0x00#8 0#24
  | .softReset => packWord 0x01#8 0#24
  | .setCtrl f => packWord 0x02#8 (f.setWidth 24)
  | .difSetCols n => packWord 0x10#8 n
  | .difSetChans n => packWord 0x11#8 n
  | .difSetRows n => packWord 0x12#8 n
  | .difSetMode b => packWord 0x13#8 (b.setWidth 24)
  | .difStart => packWord 0x14#8 0#24
  | .difSample v => packWord 0x15#8 (v.setWidth 24)
  | .encInit => packWord 0x20#8 0#24
  | .encSymbol s => packWord 0x21#8 (s.setWidth 24)
  | .encFlush => packWord 0x22#8 0#24
  | .decInit => packWord 0x30#8 0#24
  | .decCode k => packWord 0x31#8 (k.setWidth 24)
  | .decByte b => packWord 0x32#8 (b.setWidth 24)
  | .decEnd => packWord 0x33#8 0#24

/-! ### The rows of spec/opcode_table.json, as R52 and 40_control.md R55 use them -/

/-- The `match` and `mask` words of the row for an opcode, where the opcode is assigned (R50, R52). -/
def opcodeRow (op : Byte) : Option (Word × Word) :=
  match op.toNat with
  | 0x00 => some (0x00000000#32, 0xFFFFFFFF#32)
  | 0x01 => some (0x01000000#32, 0xFFFFFFFF#32)
  | 0x02 => some (0x02000000#32, 0xFFFFFFFC#32)
  | 0x10 => some (0x10000000#32, 0xFF000000#32)
  | 0x11 => some (0x11000000#32, 0xFF000000#32)
  | 0x12 => some (0x12000000#32, 0xFF000000#32)
  | 0x13 => some (0x13000000#32, 0xFFFFFFFE#32)
  | 0x14 => some (0x14000000#32, 0xFFFFFFFF#32)
  | 0x15 => some (0x15000000#32, 0xFFFFFF00#32)
  | 0x20 => some (0x20000000#32, 0xFFFFFFFF#32)
  | 0x21 => some (0x21000000#32, 0xFFFFFF00#32)
  | 0x22 => some (0x22000000#32, 0xFFFFFFFF#32)
  | 0x30 => some (0x30000000#32, 0xFFFFFFFF#32)
  | 0x31 => some (0x31000000#32, 0xFFFF0000#32)
  | 0x32 => some (0x32000000#32, 0xFFFFFF00#32)
  | 0x33 => some (0x33000000#32, 0xFFFFFFFF#32)
  | _ => none

/-- The opcode of each command (R50). -/
def opcodeOf : Instr → Byte
  | .nop => 0x00#8
  | .softReset => 0x01#8
  | .setCtrl _ => 0x02#8
  | .difSetCols _ => 0x10#8
  | .difSetChans _ => 0x11#8
  | .difSetRows _ => 0x12#8
  | .difSetMode _ => 0x13#8
  | .difStart => 0x14#8
  | .difSample _ => 0x15#8
  | .encInit => 0x20#8
  | .encSymbol _ => 0x21#8
  | .encFlush => 0x22#8
  | .decInit => 0x30#8
  | .decCode _ => 0x31#8
  | .decByte _ => 0x32#8
  | .decEnd => 0x33#8

/-! ### Words as the opcode table numbers their bits -/

/-- The command word whose low `nbits` bits are those of `w`, every other bit 0. -/
def tableWord (nbits w : Nat) : Word := BitVec.ofNat 32 (w % 2 ^ nbits)

/-- The command the decoder reads from a word given by the opcode table's bit numbers: bit 0 of the table is bit 0
of the command word, and a command is one word of 32 bits (R47), so a longer one is refused. -/
def decodeTableWord (nbits w : Nat) : Option Instr :=
  if nbits ≤ 32 then
    match decode (tableWord nbits w) with
    | .ok i => some i
    | .bad _ => none
  else none

end Sys2Proof
end

