-- ==== Sys2Proof/Machine/State.lean ====
section
/-! DEFINITION. Everything the spec gives the block (10_state.md R14), the host's side of its ports, the reasons a step
can stop, and the state after reset (R33). Plain data throughout. -/

namespace Sys2Proof.Machine

/-! ### Reasons to stop -/

/-- Why the machine stops with a fault. No state that meets the invariant (Safety.lean) reaches one. -/
inductive Fault where
  /-- DIF_SAMPLE read an entry of LEFT that no column-0 sample of the current row has written (10_state.md R21, R34;
  logs 9 and 20). Safe: R34 asks for this fault. -/
  | leftUnwritten
  /-- DIF_SAMPLE reached an index of LEFT outside 0..MAX_CHANS-1 (10_state.md R21). Safe. -/
  | leftOutOfRange
  /-- ENC_SYMBOL, a chained DIF_SAMPLE, DEC_CODE or DEC_BYTE wrote a table entry below 256, which does not exist
  (10_state.md R23, R27). Safe. -/
  | entryOutOfRange
  /-- DEC_CODE or DEC_BYTE read an entry of DEC_TABLE with unspecified contents (10_state.md R27, R34). Safe: R34 asks
  for this fault. -/
  | decEntryUnspecified
  deriving DecidableEq, Repr

/-- Why an instruction has no meaning. -/
inductive Refusal where
  /-- Raised by exec's arm of an instruction that is not modelled yet; no arm raises it now. Safe. -/
  | notModelled (mnemonic : String)
  deriving DecidableEq, Repr

/-! ### Values -/

/-- `S.CAUSE` (60_exceptions.md R80). The codes 7..15 are reserved and never held, so they have no name here
(log 10). -/
inductive Cause where
  | noError
  | illegalOpcode
  | reservedBits
  | sequence
  | config
  | corruptCode
  | corruptOdd
  deriving DecidableEq, Repr

/-- How a command's pseudocode can leave its rule: by `raise Error(CAUSE)` (00_scope.md R10), an architectural error,
or by a fault of the model (10_state.md R34). -/
inductive Stop where
  | raise (c : Cause)
  | fault (f : Fault)
  deriving DecidableEq, Repr

/-- `S.BYTE_ORDER` (10_state.md R18). -/
inductive ByteOrder where
  /-- 0: bits 15:8 first. -/
  | highFirst
  /-- 1: bits 7:0 first. -/
  | lowFirst
  deriving DecidableEq, Repr

/-- `DIF.MODE` (10_state.md R19). -/
inductive Mode where
  /-- 0. -/
  | reference
  /-- 1. -/
  | invertible
  deriving DecidableEq, Repr

/-- `DIF.STATE` (10_state.md R20). The value 3 is never held, so it has no name here (log 10). -/
inductive DifState where
  /-- 0: no image started. -/
  | idle
  /-- 1: an image is being scanned. -/
  | run
  /-- 2: the last sample of an image has been taken. -/
  | done
  deriving DecidableEq, Repr

/-- An internal memory with an index of `w` bits: the entries that have been written, as index and value pairs with the
indexes strictly rising. An entry that is not listed has unspecified contents (log 8). -/
abbrev Store (w : Nat) (α : Type) := List (BitVec w × α)

/-- An entry `(PREFIX, SYM)` of a dictionary table (10_state.md R23, R27). -/
structure Entry where
  pre : Code
  sym : Byte
  deriving DecidableEq, Repr

/-- A symbol string that is not empty (00_scope.md R9): its first symbol and the rest. -/
structure SymString where
  first : Byte
  rest : List Byte
  deriving DecidableEq, Repr

/-- The three output streams (10_state.md R29). -/
inductive Stream where
  | dif
  | enc
  | dec
  deriving DecidableEq, Repr

/-- What the host can do at the ports (00_scope.md R12, 70_reset_and_hazards.md R92). -/
inductive HostAction where
  /-- The host writes a command word and the block accepts it. -/
  | command (w : Word)
  /-- The host reads the read port at `a`; `inFlight` says that `busy` is 1 at that read (R98). -/
  | read (a : BitVec 4) (inFlight : Bool)
  /-- The host removes the element at the front of a stream (10_state.md R29). -/
  | take (ch : Stream)
  /-- The host pulls `rst_n` low and lets it return to 1 (R93). -/
  | hardReset
  deriving DecidableEq, Repr

/-! ### The units' fields -/

/-- The global fields `S` (10_state.md R17, R18). -/
structure Global where
  err : Bool
  cause : Cause
  errCmd : Word
  chain : Bool
  byteOrder : ByteOrder
  deriving DecidableEq, Repr

/-- The Differencer `DIF` with the buffer LEFT (10_state.md R19, R20, R21), and the record that the guard of R34
needs. -/
structure Dif where
  cols : Dim
  chans : Dim
  rows : Dim
  mode : Mode
  state : DifState
  x : Dim
  y : Dim
  c : Dim
  left : Store 24 Byte
  /-- The channels whose entry of LEFT a column-0 sample of the current row has written (the model's own field,
  log 20): R34 lets no other entry be read. -/
  leftRow : Store 24 Unit
  deriving DecidableEq, Repr

/-- The Encoder `ENC` with ENC_TABLE (10_state.md R22, R23). `matchCode` is `ENC.MATCH`. -/
structure Enc where
  next : Code
  matchCode : Code
  mv : Bool
  ended : Bool
  table : Store 16 Entry
  deriving DecidableEq, Repr

/-- The Decoder `DEC` with DEC_TABLE (10_state.md R26, R27). -/
structure Dec where
  next : Code
  prev : Code
  pv : Bool
  half : Bool
  byte0 : Byte
  table : Store 16 Entry
  deriving DecidableEq, Repr

/-- The parameters the model takes (00_scope.md R6). They are no state of the block (10_state.md R14): no step writes
them (log 1). -/
structure Params where
  maxChans : Nat
  deriving DecidableEq, Repr

structure State where
  /-- `S`: R17, R18. -/
  glob : Global
  /-- `DIF` and LEFT: R19 to R21. -/
  dif : Dif
  /-- `ENC` and ENC_TABLE: R22, R23. -/
  enc : Enc
  /-- `DEC` and DEC_TABLE: R26, R27. -/
  dec : Dec
  /-- DIF_OUT, oldest first: R29. -/
  difOut : List Byte
  /-- ENC_OUT, oldest first: R29. -/
  encOut : List Code
  /-- DEC_OUT, oldest first: R29. -/
  decOut : List Byte
  /-- The parameters (the model's own field, log 1). -/
  params : Params
  /-- The host's pending actions, oldest first (the model's own field, log 2). -/
  inputs : List HostAction
  /-- What the read port has returned to the host, oldest first (the model's own field, log 5). -/
  rdOut : List Word
  /-- How many free values have been drawn (the model's own field, log 4). -/
  draws : Nat
  deriving DecidableEq, Repr

/-! ### Reset values (10_state.md R33) -/

def Global.reset : Global :=
  { err := false, cause := .noError, errCmd := 0#32, chain := false, byteOrder := .highFirst }

/-- LEFT is unspecified after reset: nothing is listed, and no row has begun. -/
def Dif.reset : Dif :=
  { cols := 0#24, chans := 0#24, rows := 0#24, mode := .reference, state := .idle,
    x := 0#24, y := 0#24, c := 0#24, left := [], leftRow := [] }

/-- ENC_TABLE is unspecified after reset: nothing is listed. -/
def Enc.reset : Enc :=
  { next := 256#16, matchCode := 0#16, mv := false, ended := false, table := [] }

/-- DEC_TABLE is unspecified after reset: nothing is listed. -/
def Dec.reset : Dec :=
  { next := 256#16, prev := 0#16, pv := false, half := false, byte0 := 0#8, table := [] }

/-- The machine right after hardware reset (R33, 70_reset_and_hazards.md R93), with no host action pending. -/
def State.reset : State :=
  { glob := .reset, dif := .reset, enc := .reset, dec := .reset,
    difOut := [], encOut := [], decOut := [],
    params := { maxChans := Config.maxChans }, inputs := [], rdOut := [], draws := 0 }

end Sys2Proof.Machine
end

