-- ==== Sys2Proof/Machine/Operands.lean ====
section
/-! DEFINITION. What the commands compute on their operands: the differences of 41_differencer.md R67, the byte pairs
of 20_memory.md R37, and the bit codes of the one-bit and two-bit fields. -/

namespace Sys2Proof.Machine

/-! ### Differences (R64, R67) -/

/-- `|v - l|` on exact integers (R67). -/
def absDifference (v l : Byte) : Byte := BitVec.ofNat 8 ((v.toNat : Int) - (l.toNat : Int)).natAbs

/-- `(v - l) mod 256` with the mathematical modulus (R67). -/
def modDifference (v l : Byte) : Byte := BitVec.ofNat 8 (((v.toNat : Int) - (l.toNat : Int)) % 256).toNat

/-- The symbol of a sample that is not in column 0, by `DIF.MODE` (R64). -/
def difference (m : Mode) (v l : Byte) : Byte :=
  match m with
  | .reference => absDifference v l
  | .invertible => modDifference v l

/-- A sample from its left neighbour and its INVERTIBLE symbol, `(l + d) mod 256` (R67). -/
def recoverSample (l d : Byte) : Byte := BitVec.ofNat 8 ((l.toNat + d.toNat) % 256)

/-! ### Codes and bytes -/

/-- `zext_16` of a symbol: the seed code of that symbol (42_encoder.md R68). -/
def seedCode (s : Byte) : Code := s.setWidth 16

/-- `k[7:0]`: the symbol of a seed code (43_decoder.md R74). -/
def lowByte (k : Code) : Byte := k.extractLsb' 0 8

/-- `k[15:8]` (20_memory.md R37). -/
def highByte (k : Code) : Byte := k.extractLsb' 8 8

/-- `bytes(k)`: the serialized form of a code, first byte first (20_memory.md R37). -/
def codeBytes (o : ByteOrder) (k : Code) : Byte × Byte :=
  match o with
  | .highFirst => (highByte k, lowByte k)
  | .lowFirst => (lowByte k, highByte k)

/-- The code of a byte pair, by the order at the second byte (43_decoder.md R77). -/
def pairCode (o : ByteOrder) (b0 b : Byte) : Code :=
  match o with
  | .highFirst => (b0.setWidth 16 <<< 8) ||| b.setWidth 16
  | .lowFirst => (b.setWidth 16 <<< 8) ||| b0.setWidth 16

/-! ### Bit codes of fields -/

/-- `f[0]` of SET_CTRL (40_control.md R58). -/
def chainOf (f : BitVec 2) : Bool := f.getLsbD 0

/-- `f[1]` of SET_CTRL (40_control.md R58), as 10_state.md R18 reads it. -/
def byteOrderOf (f : BitVec 2) : ByteOrder := if f.getLsbD 1 then .lowFirst else .highFirst

/-- `b` of DIF_SET_MODE (41_differencer.md R62), as 10_state.md R19 reads it. -/
def modeOf (b : BitVec 1) : Mode := if b.getLsbD 0 then .invertible else .reference

/-- The bit that stands for a byte order (10_state.md R18). -/
def byteOrderBit : ByteOrder → BitVec 1
  | .highFirst => 0#1
  | .lowFirst => 1#1

/-- The bit that stands for a mode (10_state.md R19). -/
def modeBit : Mode → BitVec 1
  | .reference => 0#1
  | .invertible => 1#1

/-- The two bits of `DIF.STATE` (10_state.md R20). -/
def difStateBits : DifState → BitVec 2
  | .idle => 0#2
  | .run => 1#2
  | .done => 2#2

/-- The cause code (60_exceptions.md R80). -/
def causeCode : Cause → BitVec 4
  | .noError => 0#4
  | .illegalOpcode => 1#4
  | .reservedBits => 2#4
  | .sequence => 3#4
  | .config => 4#4
  | .corruptCode => 5#4
  | .corruptOdd => 6#4

/-! ### Symbol strings (00_scope.md R9) -/

/-- `a ++ [s]`. -/
def SymString.snoc (a : SymString) (s : Byte) : SymString := ⟨a.first, a.rest ++ [s]⟩

/-- The symbols, first symbol first. -/
def SymString.symbols (a : SymString) : List Byte := a.first :: a.rest

end Sys2Proof.Machine
end

