-- ==== Sys2Proof/Machine/Ops.lean ====
section
/-! DEFINITION. The shared operations: internal memories, raising an error and the two resets that leave it, output
streams, and the dictionary that the Encoder and the Decoder each hold. -/

namespace Sys2Proof.Machine

/-! ### Internal memories (20_memory.md R35) -/

/-- The contents of an entry, where something has been written. -/
def readStore {w : Nat} {α : Type} : Store w α → BitVec w → Option α
  | [], _ => none
  | (k', v) :: t, k => if k' = k then some v else readStore t k

/-- Writes an entry; the indexes stay strictly rising. -/
def writeStore {w : Nat} {α : Type} : Store w α → BitVec w → α → Store w α
  | [], k, v => [(k, v)]
  | (k', v') :: t, k, v =>
    if k < k' then (k, v) :: (k', v') :: t
    else if k = k' then (k, v) :: t
    else (k', v') :: writeStore t k v

/-- The canonical form: strictly rising indexes, so that equal memories are equal lists (log 8). -/
abbrev Store.wf {w : Nat} {α : Type} (t : Store w α) : Prop := t.Pairwise (fun a b => a.1 < b.1)

/-- Reads `LEFT[c]` (10_state.md R21). It faults where no column-0 sample of the current row has written the entry,
whatever an earlier row has left there (R34, logs 9 and 20). -/
def readLeft (maxChans : Nat) (left : Store 24 Byte) (leftRow : Store 24 Unit) (c : Dim) : Except Stop Byte :=
  if c.toNat < maxChans then
    match readStore leftRow c, readStore left c with
    | some _, some l => .ok l
    | _, _ => .error (.fault .leftUnwritten)
  else .error (.fault .leftOutOfRange)

/-- `LEFT[c] <- v` (10_state.md R21). -/
def writeLeft (maxChans : Nat) (left : Store 24 Byte) (c : Dim) (v : Byte) : Except Stop (Store 24 Byte) :=
  if c.toNat < maxChans then .ok (writeStore left c v) else .error (.fault .leftOutOfRange)

/-! ### Errors (60_exceptions.md R82) and leaving them (R84) -/

/-- `raise Error(CAUSE)` in the execution of the command word `w`, "and nothing else" (R82). -/
def raiseError (c : Cause) (w : Word) (s : State) : State :=
  { s with glob := { s.glob with err := true, cause := c, errCmd := w } }

/-- `SoftReset()`: every field of 10_state.md R33 takes its reset value and the streams are not changed
(40_control.md R57, 70_reset_and_hazards.md R94). -/
def softReset (s : State) : State :=
  { s with glob := .reset, dif := .reset, enc := .reset, dec := .reset }

/-- Hardware reset: the same, and the output buffers are emptied (70_reset_and_hazards.md R93). The host's side is not
the block's to reset (log 7). -/
def hardReset (s : State) : State :=
  { softReset s with difOut := [], encOut := [], decOut := [] }

/-- The end of a command `i` started at `s`. Every raise of a rule comes before the rule's first write
(00_scope.md R10, R82), so an erring command leaves `s` but for the error fields; the word recorded is the command's
own, which is `encode i` (log 13). -/
def finishCommand (i : Instr) (s : State) : Except Stop State → Host.Outcome State Fault Refusal
  | .ok t => .next t
  | .error (.raise c) => .next (raiseError c (encode i) s)
  | .error (.fault f) => .fault f

/-! ### Output streams (10_state.md R29) -/

/-- `emit(DIF_OUT, d)` (00_scope.md R10). -/
def emitDif (d : Byte) (s : State) : State := { s with difOut := s.difOut ++ [d] }

/-- The host removes the element at the front of a stream, if there is one; nothing else changes
(R29, 70_reset_and_hazards.md R92, log 6). The removed element is kept nowhere in State (DESIGN CHOICE, log 19). -/
def takeFront (ch : Stream) (s : State) : State :=
  match ch with
  | .dif => { s with difOut := s.difOut.tail }
  | .enc => { s with encOut := s.encOut.tail }
  | .dec => { s with decOut := s.decOut.tail }

/-! ### The dictionary of a unit (10_state.md R23, R24, R27, R28) -/

/-- The string of a code by at most `fuel` links of its prefix chain; `none` where an entry read has unspecified
contents. -/
def stringByLinks (next : Code) (t : Store 16 Entry) : Nat → Code → Option SymString
  | 0, k => if k.toNat < 256 then some ⟨lowByte k, []⟩ else none
  | fuel + 1, k =>
    if k.toNat < 256 then some ⟨lowByte k, []⟩
    else if k.toNat < next.toNat then
      match readStore t k with
      | some e =>
        match stringByLinks next t fuel e.pre with
        | some p => some (p.snoc e.sym)
        | none => none
      | none => none
    else none

/-- `strE(k)` and `strD(k)` (10_state.md R24, R28). A prefix is below its code, so a chain from `k` has fewer than `k`
links. -/
def dictString (next : Code) (t : Store 16 Entry) (k : Code) : Option SymString :=
  stringByLinks next t k.toNat k

/-- `Lookup(m, s)`: the code `k` with `256 <= k < NEXT` and `TABLE[k] = (m, s)` (42_encoder.md R69, log 14). -/
def lookupEntry (next : Code) (t : Store 16 Entry) (m : Code) (s : Byte) : Option Code :=
  match t.find? (fun p => 256 ≤ p.1.toNat && p.1.toNat < next.toNat && p.2 == ⟨m, s⟩) with
  | some p => some p.1
  | none => none

/-- The insertion of both units: while `NEXT < 65535`, entry `NEXT` takes the pair and `NEXT` counts up
(42_encoder.md R68, 43_decoder.md R74). There is no entry below 256 (10_state.md R23, R27). -/
def insertEntry (next : Code) (t : Store 16 Entry) (e : Entry) : Except Stop (Code × Store 16 Entry) :=
  if next.toNat < 65535 then
    if 256 ≤ next.toNat then .ok (next + 1#16, writeStore t next e) else .error (.fault .entryOutOfRange)
  else .ok (next, t)

end Sys2Proof.Machine
end

