-- ==== Sys2Proof/Machine/Flags.lean ====
section
/-! DEFINITION. What the block shows: STATUS (10_state.md R32), the read port (R31), ERR_IRQ (R30) and the handshake
signals between commands (70_reset_and_hazards.md R92). None is stored: each is computed from the state. -/

namespace Sys2Proof.Machine

/-- A dictionary has reached the cap (10_state.md R32). -/
def dictFull (next : Code) : Bool := next.toNat == 65535

/-- A field of a register, its lowest bit at `lo` (10_state.md R31, R32). -/
def fieldAt {w : Nat} (lo : Nat) (v : BitVec w) : Word := v.setWidth 32 <<< lo

/-- STATUS, read-port address 0x0 (10_state.md R32). -/
def statusWord (s : State) : Word :=
  fieldAt 0 (BitVec.ofBool s.glob.err)
    ||| fieldAt 1 (causeCode s.glob.cause)
    ||| fieldAt 5 (difStateBits s.dif.state)
    ||| fieldAt 7 (BitVec.ofBool s.enc.mv)
    ||| fieldAt 8 (BitVec.ofBool s.enc.ended)
    ||| fieldAt 9 (BitVec.ofBool (dictFull s.enc.next))
    ||| fieldAt 10 (BitVec.ofBool s.dec.pv)
    ||| fieldAt 11 (BitVec.ofBool s.dec.half)
    ||| fieldAt 12 (BitVec.ofBool (dictFull s.dec.next))

/-- CTRL, read-port address 0x2 (10_state.md R31). -/
def ctrlWord (s : State) : Word :=
  fieldAt 0 (BitVec.ofBool s.glob.chain) ||| fieldAt 1 (byteOrderBit s.glob.byteOrder)

/-- `REG(a)` while no command is in flight (10_state.md R31); bits a register does not define read as 0. -/
def readReg (s : State) (a : BitVec 4) : Word :=
  match a.toNat with
  | 0x0 => statusWord s
  | 0x1 => s.glob.errCmd
  | 0x2 => ctrlWord s
  | 0x3 => s.dif.cols.setWidth 32
  | 0x4 => s.dif.chans.setWidth 32
  | 0x5 => s.dif.rows.setWidth 32
  | 0x6 => (modeBit s.dif.mode).setWidth 32
  | 0x7 => s.dif.x.setWidth 32
  | 0x8 => s.dif.y.setWidth 32
  | 0x9 => s.dif.c.setWidth 32
  | 0xA => s.enc.next.setWidth 32
  | 0xB => s.enc.matchCode.setWidth 32
  | 0xC => s.dec.next.setWidth 32
  | 0xD => s.dec.prev.setWidth 32
  | 0xE => BitVec.ofNat 32 s.params.maxChans
  | _ => s.dec.byte0.setWidth 32

/-- A host read of the read port. It changes no field of the block (R31); what it returns goes to the host. While a
command is in flight the value is a free value (70_reset_and_hazards.md R98, log 4). -/
def readPort (a : BitVec 4) (inFlight : Bool) (s : State) : State :=
  if inFlight then
    { s with rdOut := s.rdOut ++ [Config.busyRead s.draws], draws := s.draws + 1 }
  else
    { s with rdOut := s.rdOut ++ [readReg s a] }

/-! ### Signals (10_state.md R30, 70_reset_and_hazards.md R92) -/

/-- `err_irq`: a level equal to `S.ERR` (R30). -/
def errIrq (s : State) : Bool := s.glob.err

/-- `busy` between commands: a command is one atomic step, so none is in flight there (00_scope.md R12, log 15). -/
def busy (_ : State) : Bool := false

/-- `cmd_ready`: 0 while `busy` is 1 (R92). -/
def cmdReady (s : State) : Bool := !busy s

/-- `dif_valid` and `dif_data`: the element offered to the host, if there is one. -/
def difOffered (s : State) : Option Byte := s.difOut.head?

/-- `enc_valid` and `enc_data`. -/
def encOffered (s : State) : Option Code := s.encOut.head?

/-- `dec_valid` and `dec_data`. -/
def decOffered (s : State) : Option Byte := s.decOut.head?

end Sys2Proof.Machine
end

