-- ==== Sys2Proof/Machine/Control.lean ====
section
/-! DEFINITION. The global commands (40_control.md R56 to R58). -/

namespace Sys2Proof.Machine

/-- NOP (R56). -/
def execNop (s : State) : Host.Outcome State Fault Refusal := .next s

/-- SOFT_RESET (R57). -/
def execSoftReset (s : State) : Host.Outcome State Fault Refusal := .next (softReset s)

/-- SET_CTRL f (R58). -/
def execSetCtrl (f : BitVec 2) (s : State) : Host.Outcome State Fault Refusal :=
  .next { s with glob := { s.glob with chain := chainOf f, byteOrder := byteOrderOf f } }

end Sys2Proof.Machine
end

