-- ==== Sys2Proof/Machine/Decoder.lean ====
section
/-! DEFINITION. The DictionaryDecoder's commands (43_decoder.md R74 to R78). -/

namespace Sys2Proof.Machine

/-- `strD(k)` (10_state.md R28); a read of an unspecified entry faults (R34). -/
def decString (d : Dec) (k : Code) : Except Stop SymString :=
  match dictString d.next d.table k with
  | some a => .ok a
  | none => .error (.fault .decEntryUnspecified)

/-- `cur`, the string a code stands for after the first code: steps 2 and 3 of R74. -/
def currentString (d : Dec) (k : Code) : Except Stop SymString :=
  if k.toNat < d.next.toNat then decString d k
  else if k = d.next ∧ d.next.toNat < 65535 then
    match decString d d.prev with
    | .ok p => .ok (p.snoc p.first)
    | .error r => .error r
  else .error (.raise .corruptCode)

/-- `DecStep(k)` (R74): the Decoder after the code and the symbols it emits. -/
def decStep (k : Code) (d : Dec) : Except Stop (Dec × List Byte) :=
  if d.pv = false then
    if 256 ≤ k.toNat then .error (.raise .corruptCode)
    else .ok ({ d with prev := k, pv := true }, [lowByte k])
  else
    match currentString d k with
    | .error r => .error r
    | .ok cur =>
      match insertEntry d.next d.table ⟨d.prev, cur.first⟩ with
      | .ok (next, table) => .ok ({ d with next := next, table := table, prev := k }, cur.symbols)
      | .error r => .error r

/-- DecStep within a command. -/
def consumeCode (k : Code) (s : State) : Except Stop State :=
  match decStep k s.dec with
  | .ok (d, out) => .ok { s with dec := d, decOut := s.decOut ++ out }
  | .error r => .error r

/-- The Decoder's registers as DEC_INIT leaves them; no table entry is specified (R75). -/
def decInitial : Dec :=
  { next := 256#16, prev := 0#16, pv := false, half := false, byte0 := 0#8, table := [] }

/-- DEC_INIT (R75). -/
def execDecInit (s : State) : Host.Outcome State Fault Refusal :=
  .next { s with dec := decInitial }

/-- DEC_CODE k (R76). -/
def execDecCode (k : Code) (s : State) : Host.Outcome State Fault Refusal :=
  finishCommand (.decCode k) s
    (if s.dec.half then .error (.raise .sequence) else consumeCode k s)

/-- DEC_BYTE b on the second byte of a pair (R77). -/
def completePair (b : Byte) (s : State) : Except Stop State :=
  match consumeCode (pairCode s.glob.byteOrder s.dec.byte0 b) s with
  | .ok t => .ok { t with dec := { t.dec with half := false, byte0 := 0#8 } }
  | .error r => .error r

/-- DEC_BYTE b (R77). -/
def execDecByte (b : Byte) (s : State) : Host.Outcome State Fault Refusal :=
  finishCommand (.decByte b) s
    (if s.dec.half then completePair b s
     else .ok { s with dec := { s.dec with byte0 := b, half := true } })

/-- DEC_END (R78). -/
def execDecEnd (s : State) : Host.Outcome State Fault Refusal :=
  finishCommand .decEnd s (if s.dec.half then .error (.raise .corruptOdd) else .ok s)

end Sys2Proof.Machine
end

