-- ==== Sys2Proof/Machine/Encoder.lean ====
section
/-! DEFINITION. The DictionaryEncoder's commands (42_encoder.md R68 to R72). -/

namespace Sys2Proof.Machine

/-- `EncStep(s)` (R68): the Encoder after the symbol and the codes it emits. -/
def encStep (sym : Byte) (e : Enc) : Except Stop (Enc × List Code) :=
  if e.mv = false then
    .ok ({ e with matchCode := seedCode sym, mv := true }, [])
  else
    match lookupEntry e.next e.table e.matchCode sym with
    | some k => .ok ({ e with matchCode := k }, [])
    | none =>
      match insertEntry e.next e.table ⟨e.matchCode, sym⟩ with
      | .ok (next, table) =>
        .ok ({ e with next := next, table := table, matchCode := seedCode sym }, [e.matchCode])
      | .error r => .error r

/-- EncStep within a command: ENC_SYMBOL (R71) and a chained DIF_SAMPLE (41_differencer.md R65). -/
def consumeSymbol (sym : Byte) (s : State) : Except Stop State :=
  match encStep sym s.enc with
  | .ok (e, out) => .ok { s with enc := e, encOut := s.encOut ++ out }
  | .error r => .error r

/-- The Encoder's registers as ENC_INIT leaves them; no table entry is specified (R70). -/
def encInitial : Enc :=
  { next := 256#16, matchCode := 0#16, mv := false, ended := false, table := [] }

/-- ENC_INIT (R70). -/
def execEncInit (s : State) : Host.Outcome State Fault Refusal :=
  .next { s with enc := encInitial }

/-- ENC_SYMBOL s (R71). -/
def execEncSymbol (sym : Byte) (s : State) : Host.Outcome State Fault Refusal :=
  finishCommand (.encSymbol sym) s
    (if s.enc.ended then .error (.raise .sequence) else consumeSymbol sym s)

/-- ENC_FLUSH (R72). -/
def execEncFlush (s : State) : Host.Outcome State Fault Refusal :=
  .next { s with
    enc := { s.enc with matchCode := 0#16, mv := false, ended := true }
    encOut := if s.enc.mv then s.encOut ++ [s.enc.matchCode] else s.encOut }

end Sys2Proof.Machine
end

