-- ==== Sys2Proof/Machine/Differencer.lean ====
section
/-! DEFINITION. The Differencer's commands (41_differencer.md R61 to R65). -/

namespace Sys2Proof.Machine

/-! ### Configuration (R61, R62) -/

/-- The checks of R61 for the command `i` that sets a dimension whose greatest legal value is `limit`, and the write of
its field. -/
def setDimension (i : Instr) (n : Dim) (limit : Nat) (written : Dif) (s : State) : State :=
  if s.dif.state = .run then raiseError .sequence (encode i) s
  else if n = 0#24 then raiseError .config (encode i) s
  else if limit < n.toNat then raiseError .config (encode i) s
  else { s with dif := written }

/-- DIF_SET_COLS n (R61): every nonzero value is legal. -/
def execDifSetCols (n : Dim) (s : State) : Host.Outcome State Fault Refusal :=
  .next (setDimension (.difSetCols n) n 16777215 { s.dif with cols := n } s)

/-- DIF_SET_CHANS n (R61): at most MAX_CHANS. -/
def execDifSetChans (n : Dim) (s : State) : Host.Outcome State Fault Refusal :=
  .next (setDimension (.difSetChans n) n s.params.maxChans { s.dif with chans := n } s)

/-- DIF_SET_ROWS n (R61): every nonzero value is legal. -/
def execDifSetRows (n : Dim) (s : State) : Host.Outcome State Fault Refusal :=
  .next (setDimension (.difSetRows n) n 16777215 { s.dif with rows := n } s)

/-- DIF_SET_MODE b (R62). -/
def execDifSetMode (b : BitVec 1) (s : State) : Host.Outcome State Fault Refusal :=
  finishCommand (.difSetMode b) s
    (if s.dif.state = .run then .error (.raise .sequence)
     else .ok { s with dif := { s.dif with mode := modeOf b } })

/-! ### Scanning (R63, R64) -/

/-- DIF_START (R63). It does not touch LEFT; a row begins, so no entry of it may be read yet (10_state.md R34,
log 20). -/
def execDifStart (s : State) : Host.Outcome State Fault Refusal :=
  finishCommand .difStart s
    (if s.dif.cols = 0#24 ∨ s.dif.chans = 0#24 ∨ s.dif.rows = 0#24 then .error (.raise .config)
     else .ok { s with dif := { s.dif with x := 0#24, y := 0#24, c := 0#24, state := .run, leftRow := [] } })

/-- The symbol a sample yields at the current position, if it yields one (R64). -/
def sampleSymbol (v : Byte) (maxChans : Nat) (d : Dif) : Except Stop (Option Byte) :=
  if d.x = 0#24 then
    match d.mode with
    | .reference => .ok none
    | .invertible => .ok (some v)
  else
    match readLeft maxChans d.left d.leftRow d.c with
    | .ok l => .ok (some (difference d.mode v l))
    | .error r => .error r

/-- `LEFT[DIF.C] <- v` (R64). In column 0 it makes the entry one of the current row's (10_state.md R34, log 20). -/
def recordSample (v : Byte) (maxChans : Nat) (d : Dif) : Except Stop Dif :=
  match writeLeft maxChans d.left d.c v with
  | .ok left =>
    .ok { d with left := left, leftRow := if d.x = 0#24 then writeStore d.leftRow d.c () else d.leftRow }
  | .error r => .error r

/-- The scan position after a sample, channel innermost, then column, then row (R64). The comparisons are on unbounded
integers (00_scope.md R8). The end of a row leaves no entry of LEFT to be read (10_state.md R34, log 20). -/
def advanceScan (d : Dif) : Dif :=
  if d.c.toNat + 1 < d.chans.toNat then { d with c := d.c + 1#24 }
  else if d.x.toNat + 1 < d.cols.toNat then { d with c := 0#24, x := d.x + 1#24 }
  else if d.y.toNat + 1 < d.rows.toNat then { d with c := 0#24, x := 0#24, y := d.y + 1#24, leftRow := [] }
  else { d with c := 0#24, x := 0#24, y := 0#24, state := .done, leftRow := [] }

/-- Where a symbol goes: to DIF_OUT, or to the Encoder when the units are chained (R64, R65). -/
def deliverSymbol (sym : Option Byte) (s : State) : Except Stop State :=
  match sym with
  | none => .ok s
  | some d => if s.glob.chain then consumeSymbol d s else .ok (emitDif d s)

/-- DIF_SAMPLE v (R64). -/
def takeSample (v : Byte) (s : State) : Except Stop State :=
  if s.dif.state ≠ .run then .error (.raise .sequence)
  else
    match sampleSymbol v s.params.maxChans s.dif with
    | .error r => .error r
    | .ok sym =>
      if sym.isSome && s.glob.chain && s.enc.ended then .error (.raise .sequence)
      else
        match recordSample v s.params.maxChans s.dif with
        | .error r => .error r
        | .ok d => deliverSymbol sym { s with dif := advanceScan d }

/-- DIF_SAMPLE v (R64). -/
def execDifSample (v : Byte) (s : State) : Host.Outcome State Fault Refusal :=
  finishCommand (.difSample v) s (takeSample v s)

end Sys2Proof.Machine
end

