-- ==== Sys2Proof/Machine/Dispatch.lean ====
section
/-! DEFINITION. One arm per command: "perform the rule of op with the operand fields of its format" (40_control.md
R55). The rest of R55, the halt and the two decoding errors, stands in Machine/Execute.lean. -/

namespace Sys2Proof.Machine

def exec (i : Instr) (s : State) : Host.Outcome State Fault Refusal :=
  match i with
  | .nop => Sys2Proof.Machine.execNop s
  | .softReset => Sys2Proof.Machine.execSoftReset s
  | .setCtrl f => Sys2Proof.Machine.execSetCtrl f s
  | .difSetCols n => Sys2Proof.Machine.execDifSetCols n s
  | .difSetChans n => Sys2Proof.Machine.execDifSetChans n s
  | .difSetRows n => Sys2Proof.Machine.execDifSetRows n s
  | .difSetMode b => Sys2Proof.Machine.execDifSetMode b s
  | .difStart => Sys2Proof.Machine.execDifStart s
  | .difSample v => Sys2Proof.Machine.execDifSample v s
  | .encInit => Sys2Proof.Machine.execEncInit s
  | .encSymbol sym => Sys2Proof.Machine.execEncSymbol sym s
  | .encFlush => Sys2Proof.Machine.execEncFlush s
  | .decInit => Sys2Proof.Machine.execDecInit s
  | .decCode k => Sys2Proof.Machine.execDecCode k s
  | .decByte b => Sys2Proof.Machine.execDecByte b s
  | .decEnd => Sys2Proof.Machine.execDecEnd s

end Sys2Proof.Machine
end

