-- ==== Sys2Proof/Machine/Execute.lean ====
section
/-! DEFINITION. The dispatch every command word goes through (40_control.md R55) and the host's actions at the
ports. -/

namespace Sys2Proof.Machine

/-- The one word a halted block performs (40_control.md R55). -/
def softResetWord : Word := 0x01000000#32

/-- The cause of a word that decodes to no command (60_exceptions.md R80). -/
def decodeCause : DecodeError → Cause
  | .illegalOpcode => .illegalOpcode
  | .reservedBits => .reservedBits

/-- `Execute(w)` (40_control.md R55). -/
def executeWord (w : Word) (s : State) : Host.Outcome State Fault Refusal :=
  if s.glob.err then
    if w = softResetWord then .next (softReset s) else .next s
  else
    match decode w with
    | .bad e => .next (raiseError (decodeCause e) w s)
    | .ok i => exec i s

/-- One action of the host, taken between commands (00_scope.md R12, 20_memory.md R40). -/
def performAction (a : HostAction) (s : State) : Host.Outcome State Fault Refusal :=
  match a with
  | .command w => executeWord w s
  | .read addr inFlight => .next (readPort addr inFlight s)
  | .take ch => .next (takeFront ch s)
  | .hardReset => .next (hardReset s)

/-- The block takes the host's next action. With none pending it is idle and its state survives
(60_exceptions.md R91, log 3). -/
def advance (s : State) : Host.Outcome State Fault Refusal :=
  match s.inputs with
  | [] => .next s
  | a :: rest => performAction a { s with inputs := rest }

/-- Puts a command word where the next step takes its action from (log 2). -/
def offerWord (w : Word) (s : State) : State := { s with inputs := .command w :: s.inputs }

end Sys2Proof.Machine
end

