-- ==== Sys2Proof/Machine/Step.lean ====
section
/-! DEFINITION. One step of the machine. -/

namespace Sys2Proof.Machine

/-- One step: the host's next action, or idleness. -/
def step (s : State) : Host.Outcome State Fault Refusal := advance s

/-- The state whose next step performs the given word. The block fetches nothing (10_state.md R16): a command comes
from the host, so the word is put at the front of the host's pending actions (log 2). -/
def State.withFetchWord (s : State) (nbits w : Nat) : State := offerWord (tableWord nbits w) s

end Sys2Proof.Machine
end

