-- ==== Sys2Proof/Machine/Assembler.lean ====
section
/-! DEFINITION. The assembler (30_encoding.md R53, R54): the text of command streams, the four pseudo-instructions and
the command words they stand for. It has no effect on what a command does (92_eei_decisions.md D29). -/

namespace Sys2Proof.Machine

/-! ### From a line to commands -/

/-- The commands a well-formed line stands for, in order (R53, R54). -/
def AsmLine.expand : AsmLine → List Instr
  | .nop => [.nop]
  | .softReset => [.softReset]
  | .setCtrl chain order => [.setCtrl (BitVec.ofNat 2 (chain + 2 * order))]
  | .difSetCols n => [.difSetCols (BitVec.ofNat 24 n)]
  | .difSetChans n => [.difSetChans (BitVec.ofNat 24 n)]
  | .difSetRows n => [.difSetRows (BitVec.ofNat 24 n)]
  | .difSetMode b => [.difSetMode (BitVec.ofNat 1 b)]
  | .difStart => [.difStart]
  | .difSample v => [.difSample (BitVec.ofNat 8 v)]
  | .encInit => [.encInit]
  | .encSymbol s => [.encSymbol (BitVec.ofNat 8 s)]
  | .encFlush => [.encFlush]
  | .decInit => [.decInit]
  | .decCode k => [.decCode (BitVec.ofNat 16 k)]
  | .decByte b => [.decByte (BitVec.ofNat 8 b)]
  | .decEnd => [.decEnd]
  | .difImage rows cols chans mode =>
    [.difSetRows (BitVec.ofNat 24 rows), .difSetCols (BitVec.ofNat 24 cols), .difSetChans (BitVec.ofNat 24 chans),
      .difSetMode (BitVec.ofNat 1 mode), .difStart]
  | .difSamples vs => vs.map (fun v => .difSample (BitVec.ofNat 8 v))
  | .encSymbols ss => ss.map (fun s => .encSymbol (BitVec.ofNat 8 s))
  | .decCodeBytes k order =>
    let pair := codeBytes (if order = 0 then .highFirst else .lowFirst) (BitVec.ofNat 16 k)
    [.decByte pair.1, .decByte pair.2]

/-- A line is assembled only if every number fits its field; it is never truncated (R53). -/
def assembleLine (l : AsmLine) : Option (List Instr) :=
  if l.wf then some (AsmLine.expand l) else none

/-! ### From text to lines (R53; what it leaves open: logs 16, 21, 22) -/

/-- The value of a digit in base 10 or 16. -/
def digitValue (base : Nat) (c : Char) : Option Nat :=
  let n := c.toNat
  let v :=
    if 48 ≤ n ∧ n ≤ 57 then n - 48
    else if 97 ≤ n ∧ n ≤ 102 then n - 87
    else if 65 ≤ n ∧ n ≤ 70 then n - 55
    else base
  if v < base then some v else none

/-- A run of digits, most significant first, after the value `acc`. -/
def digitsValue (base : Nat) : Nat → List Char → Option Nat
  | acc, [] => some acc
  | acc, c :: cs =>
    match digitValue base c with
    | some v => digitsValue base (acc * base + v) cs
    | none => none

/-- A number, "decimal or `0x` hexadecimal" (R53). -/
def parseNumber : List Char → Option Nat
  | [] => none
  | ['0', 'x'] => none
  | '0' :: 'x' :: cs => digitsValue 16 0 cs
  | cs => digitsValue 10 0 cs

/-- The operand of a mode: REFERENCE, INVERTIBLE or the digit (R53). The digit may be any spelling of the number, so
`0x1` and `01` are read as 1 (DESIGN CHOICE, log 16: R53 says only "the digit"). -/
def parseMode (cs : List Char) : Option Nat :=
  if cs = "REFERENCE".toList then some 0
  else if cs = "INVERTIBLE".toList then some 1
  else parseNumber cs

def isBlank (c : Char) : Bool := c == ' ' || c == '\t' || c == '\r'

/-- A text without blanks at its ends. -/
def trimBlanks (cs : List Char) : List Char :=
  ((cs.dropWhile isBlank).reverse.dropWhile isBlank).reverse

/-- A text cut at every `sep`. -/
def splitText (sep : Char) : List Char → List (List Char)
  | [] => [[]]
  | c :: cs =>
    if c = sep then [] :: splitText sep cs
    else
      match splitText sep cs with
      | [] => [[c]]
      | t :: ts => (c :: t) :: ts

/-- Every element of a list of numbers, if each is one. -/
def parseNumbers : List (List Char) → Option (List Nat)
  | [] => some []
  | t :: ts =>
    match parseNumber t, parseNumbers ts with
    | some n, some ns => some (n :: ns)
    | _, _ => none

/-- A mnemonic with its operands (R53, R54). -/
def parseCommand (mnemonic : List Char) (ops : List (List Char)) : Option AsmLine :=
  if mnemonic = "DIF_SET_MODE".toList then
    match ops with
    | [m] => (parseMode m).map .difSetMode
    | _ => none
  else if mnemonic = "DIF_IMAGE".toList then
    match ops with
    | [r, c, h, m] =>
      match parseNumber r, parseNumber c, parseNumber h, parseMode m with
      | some r, some c, some h, some m => some (.difImage r c h m)
      | _, _, _, _ => none
    | _ => none
  else
    match parseNumbers ops with
    | none => none
    | some [] =>
      if mnemonic = "NOP".toList then some .nop
      else if mnemonic = "SOFT_RESET".toList then some .softReset
      else if mnemonic = "DIF_START".toList then some .difStart
      else if mnemonic = "ENC_INIT".toList then some .encInit
      else if mnemonic = "ENC_FLUSH".toList then some .encFlush
      else if mnemonic = "DEC_INIT".toList then some .decInit
      else if mnemonic = "DEC_END".toList then some .decEnd
      else none
    | some (n :: ns) =>
      if mnemonic = "DIF_SAMPLES".toList then some (.difSamples (n :: ns))
      else if mnemonic = "ENC_SYMBOLS".toList then some (.encSymbols (n :: ns))
      else
        match ns with
        | [] =>
          if mnemonic = "DIF_SET_COLS".toList then some (.difSetCols n)
          else if mnemonic = "DIF_SET_CHANS".toList then some (.difSetChans n)
          else if mnemonic = "DIF_SET_ROWS".toList then some (.difSetRows n)
          else if mnemonic = "DIF_SAMPLE".toList then some (.difSample n)
          else if mnemonic = "ENC_SYMBOL".toList then some (.encSymbol n)
          else if mnemonic = "DEC_CODE".toList then some (.decCode n)
          else if mnemonic = "DEC_BYTE".toList then some (.decByte n)
          else none
        | [m] =>
          if mnemonic = "SET_CTRL".toList then some (.setCtrl n m)
          else if mnemonic = "DEC_CODE_BYTES".toList then some (.decCodeBytes n m)
          else none
        | _ => none

/-- The lines of one line of text: none where it is blank or a comment, which "starts with `;`" (R53) and ends with its
line (DESIGN CHOICE, log 21: R53 does not say where it ends). -/
def parseLine (cs : List Char) : Option (List AsmLine) :=
  let body := trimBlanks (cs.takeWhile (· != ';'))
  if body = [] then some []
  else
    let rest := trimBlanks (body.dropWhile (fun c => !isBlank c))
    let ops := if rest = [] then [] else (splitText ',' rest).map trimBlanks
    match parseCommand (body.takeWhile (fun c => !isBlank c)) ops with
    | some l => some [l]
    | none => none

/-- The commands of a list of parsed lines. -/
def assembleLines : List AsmLine → Option (List Instr)
  | [] => some []
  | l :: ls =>
    match assembleLine l, assembleLines ls with
    | some is, some rest => some (is ++ rest)
    | _, _ => none

/-- The lines of a text. -/
def parseLines : List (List Char) → Option (List AsmLine)
  | [] => some []
  | t :: ts =>
    match parseLine t, parseLines ts with
    | some ls, some rest => some (ls ++ rest)
    | _, _ => none

/-- The command words of a text (R53), or none at all where one of its lines is refused (DESIGN CHOICE, log 22: R53 says
only that the number is refused). -/
def assembleText (cs : List Char) : Option (List Word) :=
  match parseLines (splitText '\n' cs) with
  | none => none
  | some ls => (assembleLines ls).map (fun is => is.map encode)

end Sys2Proof.Machine
end

