-- ==== Sys2Proof/Safety.lean ====
section
/-! DEFINITION. The terms claims are stated in: the invariant of the states the spec allows, runs of the machine, and
the whole-image transform of 41_differencer.md R59 and R60. -/

namespace Sys2Proof.Machine

/-! ### The invariant -/

/-- Errors: `S.CAUSE` and `S.ERR_CMD` are 0 while `S.ERR = 0`, and a halt has a cause (10_state.md R17,
60_exceptions.md R80). -/
abbrev Global.Inv (g : Global) : Prop :=
  (g.err = false → g.cause = .noError ∧ g.errCmd = 0#32) ∧ (g.err = true → g.cause ≠ .noError)

/-- The parameter's range (00_scope.md R6). -/
abbrev Params.Inv (p : Params) : Prop := 1 ≤ p.maxChans ∧ p.maxChans ≤ 16777215

/-- The scan position stays in the image while it is scanned and is 0 otherwise (10_state.md R20); CHANS is legal (R19);
LEFT is canonical, has no entry outside its depth, and holds every entry the rest of the row reads (R21, R34); the
channels of the current row's column 0 are exactly those the scan has passed there (log 20). -/
abbrev Dif.Inv (maxChans : Nat) (d : Dif) : Prop :=
  d.chans.toNat ≤ maxChans ∧
  (d.state = .run → d.x.toNat < d.cols.toNat ∧ d.y.toNat < d.rows.toNat ∧ d.c.toNat < d.chans.toNat) ∧
  (d.state ≠ .run → d.x = 0#24 ∧ d.y = 0#24 ∧ d.c = 0#24) ∧
  d.left.wf ∧
  (∀ j ∈ d.left.map (fun p => p.1.toNat), j < maxChans) ∧
  (d.state = .run → ∀ j ∈ List.range (if d.x = 0#24 then d.c.toNat else d.chans.toNat),
    (readStore d.left (BitVec.ofNat 24 j)).isSome = true) ∧
  (d.state = .run →
    d.leftRow.map (fun p => p.1.toNat) = List.range (if d.x = 0#24 then d.c.toNat else d.chans.toNat)) ∧
  (d.state ≠ .run → d.leftRow = [])

/-- A dictionary table: `256 <= NEXT`, exactly the entries 256..NEXT-1 are specified, in rising order, and each prefix
is below its code (10_state.md R22 to R25, R26 to R28). -/
abbrev TableInv (next : Code) (t : Store 16 Entry) : Prop :=
  256 ≤ next.toNat ∧
  t.map (fun p => p.1.toNat) = List.range' 256 (next.toNat - 256) ∧
  (∀ p ∈ t, p.2.pre.toNat < p.1.toNat)

/-- The Encoder (10_state.md R22, R25): no pair stands for two codes, and the match is a key. -/
abbrev Enc.Inv (e : Enc) : Prop :=
  TableInv e.next e.table ∧
  (e.table.map (fun p => p.2)).Nodup ∧
  (e.mv = true → e.matchCode.toNat < e.next.toNat) ∧
  (e.mv = false → e.matchCode = 0#16)

/-- The Decoder (10_state.md R26 to R28): the previous code is a key once there is one, and no entry is made before
it. -/
abbrev Dec.Inv (d : Dec) : Prop :=
  TableInv d.next d.table ∧
  (d.pv = true → d.prev.toNat < d.next.toNat) ∧
  (d.pv = false → d.prev = 0#16 ∧ d.next = 256#16) ∧
  (d.half = false → d.byte0 = 0#8)

/-- What holds of every state the block can be in. -/
abbrev Inv (s : State) : Prop :=
  s.glob.Inv ∧ s.params.Inv ∧ s.dif.Inv s.params.maxChans ∧ s.enc.Inv ∧ s.dec.Inv

/-! ### Reset values -/

/-- The value 10_state.md R33 gives each register at reset, and nothing specified in LEFT or a table. -/
abbrev HoldsResetValues (s : State) : Prop :=
  (s.glob.err = false ∧ s.glob.cause = .noError ∧ s.glob.errCmd = 0#32) ∧
  (s.glob.chain = false ∧ s.glob.byteOrder = .highFirst) ∧
  (s.dif.cols = 0#24 ∧ s.dif.chans = 0#24 ∧ s.dif.rows = 0#24 ∧ s.dif.mode = .reference) ∧
  (s.dif.state = .idle ∧ s.dif.x = 0#24 ∧ s.dif.y = 0#24 ∧ s.dif.c = 0#24) ∧
  (s.enc.next = 256#16 ∧ s.enc.matchCode = 0#16 ∧ s.enc.mv = false ∧ s.enc.ended = false) ∧
  (s.dec.next = 256#16 ∧ s.dec.prev = 0#16 ∧ s.dec.pv = false ∧ s.dec.half = false ∧ s.dec.byte0 = 0#8) ∧
  (∀ c, readStore s.dif.left c = none) ∧
  (∀ k, readStore s.enc.table k = none) ∧
  (∀ k, readStore s.dec.table k = none)

/-! ### Runs -/

/-- `n` steps, ending at the first fault or refusal. -/
def runSteps : Nat → State → Host.Outcome State Fault Refusal
  | 0, s => .next s
  | n + 1, s =>
    match step s with
    | .next t => runSteps n t
    | .fault f => .fault f
    | .refused r => .refused r

/-- `s` with the given commands, and nothing else, pending at the command port. -/
def withCommands (is : List Instr) (s : State) : State :=
  { s with inputs := is.map (fun i => HostAction.command (encode i)) }

/-- The block takes every one of the commands in turn. -/
def runCommands (is : List Instr) (s : State) : Host.Outcome State Fault Refusal :=
  runSteps is.length (withCommands is s)

/-- A run has ended well: no error was raised. Claims about outputs assume it (60_exceptions.md R84, U19). -/
abbrev Safe (s : State) : Prop := s.glob.err = false

/-! ### Images (00_scope.md R11: rows x columns x channels of samples) -/

/-- A pixel grid: the sample at row, column and channel. -/
abbrev Grid := Nat → Nat → Nat → Byte

/-- The samples in the order the host gives them: row-major, channel innermost (70_reset_and_hazards.md R96). -/
def gridSamples (rows cols chans : Nat) (g : Grid) : List Byte :=
  (List.range rows).flatMap fun y =>
    (List.range cols).flatMap fun x =>
      (List.range chans).map fun c => g y x c

/-- The source's transform (41_differencer.md R59). -/
def referenceSymbols (rows cols chans : Nat) (g : Grid) : List Byte :=
  (List.range rows).flatMap fun y =>
    (List.range' 1 (cols - 1)).flatMap fun x =>
      (List.range chans).map fun c =>
        BitVec.ofNat 8 ((g y x c).toNat - (g y (x - 1) c).toNat : Int).natAbs

/-- The invertible transform (41_differencer.md R60): column 0 unchanged, then deltas modulo 256. -/
def invertibleSymbols (rows cols chans : Nat) (g : Grid) : List Byte :=
  (List.range rows).flatMap fun y =>
    ((List.range chans).map fun c => g y 0 c) ++
      (List.range' 1 (cols - 1)).flatMap fun x =>
        (List.range chans).map fun c => g y x c - g y (x - 1) c

end Sys2Proof.Machine
end

