-- ==== Sys2Proof/Certificates/Slice0/Obligations.lean ====
section
/-! DEFINITION. The statements for the provers. Each docstring names the rule of spec/ it formalises. Where a statement
needs the invariant `Inv` (Safety.lean), the states it leaves out are ones no command sequence reaches from reset. -/

open Sys2Proof Sys2Proof.Machine

/-! ### Encoding -/

/-- Words written out in 30_encoding.md R53, 41_differencer.md, 42_encoder.md, 43_decoder.md and the control vectors of
95_test_vectors.md decode to what they stand for. -/
def Obligations.SpecExampleWordsDecode : Prop :=
  decode 0x1500000A#32 = .ok (.difSample 10#8) ∧
  decode 0x31000100#32 = .ok (.decCode 256#16) ∧
  decode 0x02000001#32 = .ok (.setCtrl 1#2) ∧
  decode 0x10000002#32 = .ok (.difSetCols 2#24) ∧
  decode 0x13000001#32 = .ok (.difSetMode 1#1) ∧
  decode 0x2100000A#32 = .ok (.encSymbol 10#8) ∧
  decode 0x22000000#32 = .ok .encFlush ∧
  decode 0x33000000#32 = .ok .decEnd ∧
  decode 0x05000001#32 = .bad .illegalOpcode ∧
  decode 0x02000004#32 = .bad .reservedBits

/-- The decoder gives back every command from its word, whatever its operand (30_encoding.md R47 to R50). -/
def Obligations.DecodeOfEncodeIsTheCommand : Prop :=
  ∀ i : Instr, decode (encode i) = .ok i

/-- Each command has one word: a word that decodes is the word of what it decodes to (30_encoding.md R47 to R52). So
the word that an error records is the one the host wrote. -/
def Obligations.EncodeOfDecodeIsTheWord : Prop :=
  ∀ (w : Word) (i : Instr), decode w = .ok i → encode i = w

/-- The opcodes that are not assigned (30_encoding.md R51): exactly the four ranges, 240 in all; a command with one
raises ILLEGAL_OPCODE and has no other effect; NOP is the only command that does nothing whatever the state. -/
def Obligations.UnassignedOpcodesRaise : Prop :=
  (∀ w : Word, decode w = .bad .illegalOpcode ↔
    ((0x03 ≤ (opcodeField w).toNat ∧ (opcodeField w).toNat ≤ 0x0F) ∨
     (0x16 ≤ (opcodeField w).toNat ∧ (opcodeField w).toNat ≤ 0x1F) ∨
     (0x23 ≤ (opcodeField w).toNat ∧ (opcodeField w).toNat ≤ 0x2F) ∨
     (0x34 ≤ (opcodeField w).toNat ∧ (opcodeField w).toNat ≤ 0xFF))) ∧
  ((List.range 256).filter (fun op => (opcodeRow (BitVec.ofNat 8 op)).isNone)).length = 240 ∧
  (∀ (w : Word) (s : State), decode w = .bad .illegalOpcode → s.glob.err = false →
    executeWord w s =
      .next { s with glob := { s.glob with err := true, cause := .illegalOpcode, errCmd := w } }) ∧
  (∀ i : Instr, (∀ s : State, exec i s = .next s) → i = .nop)

/-- Reserved bits (30_encoding.md R52): with the match and mask of the opcode's row, a word that meets them is that
command; one that fails the mask raises RESERVED_BITS and has no other effect. -/
def Obligations.ReservedBitsRaise : Prop :=
  ∀ (w m k : Word), opcodeRow (opcodeField w) = some (m, k) →
    (w &&& k = m → ∃ i, decode w = .ok i ∧ opcodeOf i = opcodeField w) ∧
    (w &&& k ≠ m →
      decode w = .bad .reservedBits ∧
      ∀ s : State, s.glob.err = false →
        executeWord w s =
          .next { s with glob := { s.glob with err := true, cause := .reservedBits, errCmd := w } })

/-! ### Dispatch and steps -/

/-- `Execute(w)` (40_control.md R55), every line of it: a halted block performs the exact word 0x01000000 and discards
every other; else the opcode is checked, then the mask, then the command of that opcode is performed. -/
def Obligations.ExecuteFollowsTheDispatch : Prop :=
  ∀ (w : Word) (s : State),
    (s.glob.err = true → executeWord w s = .next (if w = 0x01000000#32 then softReset s else s)) ∧
    (s.glob.err = false → opcodeRow (opcodeField w) = none →
      executeWord w s = .next (raiseError .illegalOpcode w s)) ∧
    (∀ m k, s.glob.err = false → opcodeRow (opcodeField w) = some (m, k) → w &&& k ≠ m →
      executeWord w s = .next (raiseError .reservedBits w s)) ∧
    (∀ m k, s.glob.err = false → opcodeRow (opcodeField w) = some (m, k) → w &&& k = m →
      ∃ i, opcodeOf i = opcodeField w ∧ encode i = w ∧ executeWord w s = exec i s)

/-- A step runs the decoded command: where the pending word at the command port decodes to a command and the block is
not halted, the step is that command's meaning on the state with the word taken (40_control.md R55). -/
def Obligations.StepPerformsThePendingCommand : Prop :=
  ∀ (s : State) (w : Word) (i : Instr) (rest : List HostAction),
    s.inputs = .command w :: rest → s.glob.err = false → decode w = .ok i →
      step s = exec i { s with inputs := rest }

/-- The host's other actions, and idleness (the model's choice of a queue of host actions: log 2, log 3, log 6,
log 7): with nothing pending the state survives; taking an element moves the front of that stream only; hardware reset
does what 70_reset_and_hazards.md R93 says. -/
def Obligations.StepTakesTheOtherHostActions : Prop :=
  ∀ (s : State) (rest : List HostAction),
    (s.inputs = [] → step s = .next s) ∧
    (s.inputs = .take .dif :: rest → step s = .next { s with inputs := rest, difOut := s.difOut.tail }) ∧
    (s.inputs = .take .enc :: rest → step s = .next { s with inputs := rest, encOut := s.encOut.tail }) ∧
    (s.inputs = .take .dec :: rest → step s = .next { s with inputs := rest, decOut := s.decOut.tail }) ∧
    (s.inputs = .hardReset :: rest → step s = .next (hardReset { s with inputs := rest }))

/-- Commands are performed one after another, each seeing every effect of the ones before (20_memory.md R43,
70_reset_and_hazards.md R97): a run of two command lists is the run of the second from where the first ends. -/
def Obligations.RunsOfCommandsCompose : Prop :=
  ∀ (a b : List Instr) (s t : State), runCommands a s = .next t → runCommands (a ++ b) s = runCommands b t

/-! ### Errors -/

/-- Error entry (60_exceptions.md R82): a word that leaves the block halted has set ERR, the cause and ERR_CMD and
nothing else, ERR_IRQ is up, and every later word but SOFT_RESET is discarded. -/
def Obligations.ErrorsArePrecise : Prop :=
  ∀ (w : Word) (s t : State), s.glob.err = false → executeWord w s = .next t → t.glob.err = true →
    (∃ c : Cause, c ≠ .noError ∧
      t = { s with glob := { s.glob with err := true, cause := c, errCmd := w } }) ∧
    errIrq t = true ∧
    (∀ w' : Word, w' ≠ 0x01000000#32 → executeWord w' t = .next t)

/-- The cause codes (60_exceptions.md R80): their numbers, and for each cause the commands that raise it with the
condition the table gives. -/
def Obligations.EachCauseHasItsCondition : Prop :=
  (causeCode .noError = 0#4 ∧ causeCode .illegalOpcode = 1#4 ∧ causeCode .reservedBits = 2#4 ∧
    causeCode .sequence = 3#4 ∧ causeCode .config = 4#4 ∧ causeCode .corruptCode = 5#4 ∧
    causeCode .corruptOdd = 6#4) ∧
  ∀ (w : Word) (s t : State), s.glob.err = false → executeWord w s = .next t → t.glob.err = true →
    t.glob.errCmd = w ∧
    ((t.glob.cause = .illegalOpcode ∧ opcodeRow (opcodeField w) = none) ∨
     (t.glob.cause = .reservedBits ∧ ∃ m k, opcodeRow (opcodeField w) = some (m, k) ∧ w &&& k ≠ m) ∨
     (t.glob.cause = .sequence ∧ ∃ i, decode w = .ok i ∧
       ((∃ n, (i = .difSetCols n ∨ i = .difSetChans n ∨ i = .difSetRows n) ∧ s.dif.state = .run) ∨
        (∃ b, i = .difSetMode b ∧ s.dif.state = .run) ∨
        (∃ v, i = .difSample v ∧ s.dif.state ≠ .run) ∨
        (∃ v, i = .difSample v ∧ (s.dif.x ≠ 0#24 ∨ s.dif.mode = .invertible) ∧ s.glob.chain = true ∧
          s.enc.ended = true) ∨
        (∃ x, i = .encSymbol x ∧ s.enc.ended = true) ∨
        (∃ k, i = .decCode k ∧ s.dec.half = true))) ∨
     (t.glob.cause = .config ∧ ∃ i, decode w = .ok i ∧
       ((i = .difSetCols 0#24 ∨ i = .difSetChans 0#24 ∨ i = .difSetRows 0#24) ∨
        (∃ n, i = .difSetChans n ∧ s.params.maxChans < n.toNat) ∨
        (i = .difStart ∧ (s.dif.cols = 0#24 ∨ s.dif.chans = 0#24 ∨ s.dif.rows = 0#24)))) ∨
     (t.glob.cause = .corruptCode ∧ ∃ k : Code,
       (decode w = .ok (.decCode k) ∨
        (∃ b, decode w = .ok (.decByte b) ∧ s.dec.half = true ∧ k = pairCode s.glob.byteOrder s.dec.byte0 b)) ∧
       ((s.dec.pv = false ∧ 256 ≤ k.toNat) ∨
        (s.dec.pv = true ∧ ¬ k.toNat < s.dec.next.toNat ∧ ¬ (k = s.dec.next ∧ s.dec.next.toNat < 65535)))) ∨
     (t.glob.cause = .corruptOdd ∧ decode w = .ok .decEnd ∧ s.dec.half = true))

/-- Priority (60_exceptions.md R83): the opcode before the reserved bits, whatever else is wrong; then the command's own
checks, SEQUENCE before CONFIG and before CORRUPT_CODE; and once one is raised no other competes. -/
def Obligations.FirstErrorInOrderIsRaised : Prop :=
  (∀ (w : Word) (s : State), s.glob.err = false → opcodeRow (opcodeField w) = none →
    executeWord w s = .next (raiseError .illegalOpcode w s)) ∧
  (∀ (w m k : Word) (s : State), s.glob.err = false → opcodeRow (opcodeField w) = some (m, k) → w &&& k ≠ m →
    executeWord w s = .next (raiseError .reservedBits w s)) ∧
  (∀ (n : Dim) (s : State), s.dif.state = .run →
    exec (.difSetCols n) s = .next (raiseError .sequence (encode (.difSetCols n)) s) ∧
    exec (.difSetChans n) s = .next (raiseError .sequence (encode (.difSetChans n)) s) ∧
    exec (.difSetRows n) s = .next (raiseError .sequence (encode (.difSetRows n)) s)) ∧
  (∀ (k : Code) (s : State), s.dec.half = true →
    exec (.decCode k) s = .next (raiseError .sequence (encode (.decCode k)) s)) ∧
  (∀ (w : Word) (s : State), s.glob.err = true → w ≠ 0x01000000#32 → executeWord w s = .next s)

/-- Leaving the error state (60_exceptions.md R84): only the SOFT_RESET word and hardware reset clear ERR, each sets
every field to its reset value, and SOFT_RESET keeps what is in the streams. -/
def Obligations.OnlyResetLeavesTheHalt : Prop :=
  (∀ s t : State, s.glob.err = true → step s = .next t → t.glob.err = false →
    (∃ rest, s.inputs = .command 0x01000000#32 :: rest ∧ HoldsResetValues t ∧
      t.difOut = s.difOut ∧ t.encOut = s.encOut ∧ t.decOut = s.decOut) ∨
    (∃ rest, s.inputs = .hardReset :: rest ∧ HoldsResetValues t)) ∧
  (∀ (s : State) (rest : List HostAction), s.glob.err = true →
    (s.inputs = .command 0x01000000#32 :: rest → ∃ t, step s = .next t ∧ t.glob.err = false) ∧
    (s.inputs = .hardReset :: rest → ∃ t, step s = .next t ∧ t.glob.err = false))

/-- Errors do not nest (60_exceptions.md R85, "So no error is raised while the block is halted"): a step from the halt
leaves the cause and the word of the first error, or resets them. That the units and the streams stay as well is
ExecuteFollowsTheDispatch's to say. -/
def Obligations.ErrorsDoNotNest : Prop :=
  ∀ s t : State, s.glob.err = true → step s = .next t →
    t.glob = s.glob ∨ t.glob = { err := false, cause := .noError, errCmd := 0#32, chain := false, byteOrder := .highFirst }

/-! ### Reset -/

/-- The reset values (10_state.md R33): after hardware reset and after SOFT_RESET every field holds the value the table
gives; the streams are empty after hardware reset and unchanged by SOFT_RESET; no entry of LEFT or of a table is
specified. -/
def Obligations.ResetValuesOfEveryField : Prop :=
  (HoldsResetValues State.reset ∧ State.reset.difOut = [] ∧ State.reset.encOut = [] ∧ State.reset.decOut = []) ∧
  (∀ s : State, ∃ t, performAction .hardReset s = .next t ∧ HoldsResetValues t ∧
    t.difOut = [] ∧ t.encOut = [] ∧ t.decOut = []) ∧
  (∀ s : State, ∃ t, exec .softReset s = .next t ∧ HoldsResetValues t ∧
    t.difOut = s.difOut ∧ t.encOut = s.encOut ∧ t.decOut = s.decOut)

/-- SOFT_RESET (40_control.md R57): it runs in every state and leaves the halted one; all of STATUS becomes 0; the
streams, and nothing else, stay. A word of its opcode with a reserved bit raises, or is discarded in the halt. -/
def Obligations.SoftResetClearsEveryField : Prop :=
  (∀ s : State, ∃ t, exec .softReset s = .next t ∧ executeWord 0x01000000#32 s = .next t ∧ HoldsResetValues t ∧
    statusWord t = 0#32 ∧
    t.difOut = s.difOut ∧ t.encOut = s.encOut ∧ t.decOut = s.decOut ∧
    t.params = s.params ∧ t.inputs = s.inputs ∧ t.rdOut = s.rdOut ∧ t.draws = s.draws) ∧
  (∀ (s : State) (w : Word), opcodeField w = 0x01#8 → w ≠ 0x01000000#32 →
    (s.glob.err = false → executeWord w s = .next (raiseError .reservedBits w s)) ∧
    (s.glob.err = true → executeWord w s = .next s))

/-- Hardware reset (70_reset_and_hazards.md R93) against SOFT_RESET (R94): the same on every field, and it empties the
output buffers, which SOFT_RESET keeps; after it ERR_IRQ is low, and `busy` is 0 and `cmd_ready` 1 as R93 has them, by
the model's reading that no command is in flight between steps (log 15). The host's side stays (the model's choice:
log 7). -/
def Obligations.HardwareResetAlsoEmptiesTheStreams : Prop :=
  ∀ s : State, ∃ t u, performAction .hardReset s = .next t ∧ exec .softReset s = .next u ∧
    t = { u with difOut := [], encOut := [], decOut := [] } ∧
    u.difOut = s.difOut ∧ u.encOut = s.encOut ∧ u.decOut = s.decOut ∧
    errIrq t = false ∧ busy t = false ∧ cmdReady t = true ∧
    t.inputs = s.inputs ∧ t.params = s.params

/-! ### The read port -/

/-- The read port (10_state.md R31): the sixteen registers, the bits a register does not define read as 0, a read
changes no field of the block, neither LEFT nor a table nor a stream can be read, and a read while a command is in
flight returns some value. The model's choices: what a read returned is appended to the host's record (log 5), and a read
in flight draws a free value and counts it (log 4). -/
def Obligations.ReadPortShowsTheRegisters : Prop :=
  (∀ s : State,
    readReg s 0x0#4 = statusWord s ∧
    readReg s 0x1#4 = s.glob.errCmd ∧
    (readReg s 0x2#4).toNat = s.glob.chain.toNat + 2 * (byteOrderBit s.glob.byteOrder).toNat ∧
    (readReg s 0x3#4).toNat = s.dif.cols.toNat ∧
    (readReg s 0x4#4).toNat = s.dif.chans.toNat ∧
    (readReg s 0x5#4).toNat = s.dif.rows.toNat ∧
    (readReg s 0x6#4).toNat = (modeBit s.dif.mode).toNat ∧
    (readReg s 0x7#4).toNat = s.dif.x.toNat ∧
    (readReg s 0x8#4).toNat = s.dif.y.toNat ∧
    (readReg s 0x9#4).toNat = s.dif.c.toNat ∧
    (readReg s 0xA#4).toNat = s.enc.next.toNat ∧
    (readReg s 0xB#4).toNat = s.enc.matchCode.toNat ∧
    (readReg s 0xC#4).toNat = s.dec.next.toNat ∧
    (readReg s 0xD#4).toNat = s.dec.prev.toNat ∧
    (s.params.maxChans ≤ 16777215 → (readReg s 0xE#4).toNat = s.params.maxChans) ∧
    (readReg s 0xF#4).toNat = s.dec.byte0.toNat) ∧
  (∀ (s : State) (a : BitVec 4), performAction (.read a false) s = .next { s with rdOut := s.rdOut ++ [readReg s a] }) ∧
  (∀ (s : State) (a : BitVec 4), ∃ v : Word,
    performAction (.read a true) s = .next { s with rdOut := s.rdOut ++ [v], draws := s.draws + 1 }) ∧
  (∀ (s : State) (a : BitVec 4) (left : Store 24 Byte) (et dt : Store 16 Entry) (o1 o3 : List Byte) (o2 : List Code),
    readReg { s with
      dif := { s.dif with left := left }, enc := { s.enc with table := et }, dec := { s.dec with table := dt },
      difOut := o1, encOut := o2, decOut := o3 } a = readReg s a)

/-- STATUS (10_state.md R32): each field in its bits, bits 31:13 zero. -/
def Obligations.StatusFieldsInTheirBits : Prop :=
  ∀ s : State, (statusWord s).toNat =
    s.glob.err.toNat + 2 * (causeCode s.glob.cause).toNat + 32 * (difStateBits s.dif.state).toNat +
    128 * s.enc.mv.toNat + 256 * s.enc.ended.toNat + 512 * (if s.enc.next = 65535#16 then 1 else 0) +
    1024 * s.dec.pv.toNat + 2048 * s.dec.half.toNat + 4096 * (if s.dec.next = 65535#16 then 1 else 0)

/-- A read while a command is in flight (70_reset_and_hazards.md R98): it returns some one value, which nothing in the
model constrains (the free value of log 4), and changes no field of the block. -/
def Obligations.ReadInFlightChangesNoField : Prop :=
  ∀ (s : State) (a : BitVec 4), ∃ v : Word,
    performAction (.read a true) s = .next { s with rdOut := s.rdOut ++ [v], draws := s.draws + 1 }

/-! ### Global commands -/

/-- NOP (40_control.md R56): it leaves every state that is not halted unchanged, is discarded in the halt, and raises
RESERVED_BITS with a nonzero payload. -/
def Obligations.NopChangesNothing : Prop :=
  ∀ s : State, exec .nop s = .next s ∧ executeWord 0x00000000#32 s = .next s ∧
    ∀ w : Word, opcodeField w = 0x00#8 → imm24Field w ≠ 0#24 → s.glob.err = false →
      executeWord w s = .next (raiseError .reservedBits w s)

/-- SET_CTRL (40_control.md R58): it writes the two control fields in every state, shows them in CTRL, and changes
nothing else; a nonzero bit of w[23:2] raises RESERVED_BITS. -/
def Obligations.SetCtrlWritesTheControlFields : Prop :=
  ∀ s : State,
    (∀ f : BitVec 2, encode (.setCtrl f) = 0x02000000#32 ||| f.setWidth 32 ∧ ∃ t, exec (.setCtrl f) s = .next t ∧
      t = { s with glob := { s.glob with chain := t.glob.chain, byteOrder := t.glob.byteOrder } } ∧
      t.glob.chain = f.getLsbD 0 ∧
      (t.glob.byteOrder = .lowFirst ↔ f.getLsbD 1 = true) ∧
      readReg t 0x2#4 = f.setWidth 32) ∧
    (∀ w : Word, opcodeField w = 0x02#8 → 4 ≤ (imm24Field w).toNat → s.glob.err = false →
      executeWord w s = .next (raiseError .reservedBits w s))

/-! ### The Differencer -/

/-- DIF_SET_COLS, DIF_SET_CHANS, DIF_SET_ROWS (41_differencer.md R61), every line of the pseudocode: SEQUENCE in RUN,
CONFIG for 0 and for a channel count above MAX_CHANS, else the field takes the value and nothing else changes. -/
def Obligations.DimensionCommandsWriteTheirField : Prop :=
  ∀ (n : Dim) (s : State),
    (encode (.difSetCols n) = 0x10000000#32 ||| n.setWidth 32 ∧
      encode (.difSetChans n) = 0x11000000#32 ||| n.setWidth 32 ∧
      encode (.difSetRows n) = 0x12000000#32 ||| n.setWidth 32) ∧
    (s.dif.state = .run →
      exec (.difSetCols n) s = .next (raiseError .sequence (encode (.difSetCols n)) s) ∧
      exec (.difSetChans n) s = .next (raiseError .sequence (encode (.difSetChans n)) s) ∧
      exec (.difSetRows n) s = .next (raiseError .sequence (encode (.difSetRows n)) s)) ∧
    (s.dif.state ≠ .run → n = 0#24 →
      exec (.difSetCols n) s = .next (raiseError .config (encode (.difSetCols n)) s) ∧
      exec (.difSetChans n) s = .next (raiseError .config (encode (.difSetChans n)) s) ∧
      exec (.difSetRows n) s = .next (raiseError .config (encode (.difSetRows n)) s)) ∧
    (s.dif.state ≠ .run → s.params.maxChans < n.toNat →
      exec (.difSetChans n) s = .next (raiseError .config (encode (.difSetChans n)) s)) ∧
    (s.dif.state ≠ .run → n ≠ 0#24 →
      exec (.difSetCols n) s = .next { s with dif := { s.dif with cols := n } } ∧
      exec (.difSetRows n) s = .next { s with dif := { s.dif with rows := n } } ∧
      (n.toNat ≤ s.params.maxChans →
        exec (.difSetChans n) s = .next { s with dif := { s.dif with chans := n } }))

/-- DIF_SET_MODE (41_differencer.md R62): SEQUENCE in RUN, else the mode takes the operand; a nonzero bit of w[23:1]
raises RESERVED_BITS. -/
def Obligations.ModeCommandWritesTheMode : Prop :=
  ∀ s : State,
    (∀ b : BitVec 1, encode (.difSetMode b) = 0x13000000#32 ||| b.setWidth 32 ∧
      (s.dif.state = .run →
        exec (.difSetMode b) s = .next (raiseError .sequence (encode (.difSetMode b)) s)) ∧
      (s.dif.state ≠ .run → ∃ t, exec (.difSetMode b) s = .next t ∧
        t = { s with dif := { s.dif with mode := t.dif.mode } } ∧ modeBit t.dif.mode = b)) ∧
    (∀ w : Word, opcodeField w = 0x13#8 → 2 ≤ (imm24Field w).toNat → s.glob.err = false →
      executeWord w s = .next (raiseError .reservedBits w s))

/-- DIF_START (41_differencer.md R63): CONFIG where a dimension is not configured; else, in every Differencer state, the
scan starts at (0, 0, 0) and LEFT and everything else the spec gives the block stay. What becomes of the model's own
record of the current row (`leftRow`, log 20) is not claimed here. -/
def Obligations.StartBeginsTheScan : Prop :=
  ∀ s : State, encode .difStart = 0x14000000#32 ∧
    (s.dif.cols = 0#24 ∨ s.dif.chans = 0#24 ∨ s.dif.rows = 0#24 →
      exec .difStart s = .next (raiseError .config (encode .difStart) s)) ∧
    (s.dif.cols ≠ 0#24 → s.dif.chans ≠ 0#24 → s.dif.rows ≠ 0#24 →
      ∃ t, exec .difStart s = .next t ∧
        t = { s with dif := { s.dif with
          x := 0#24, y := 0#24, c := 0#24, state := .run, leftRow := t.dif.leftRow } })

/-- DIF_SAMPLE (41_differencer.md R64), every line of the pseudocode, in every state the block can be in: the two
SEQUENCE checks, the symbol, LEFT, the scan position, and where the symbol goes. -/
def Obligations.SampleStepsTheScan : Prop :=
  ∀ (s : State) (v : Byte), Inv s → encode (.difSample v) = 0x15000000#32 ||| v.setWidth 32 ∧
    (s.dif.state ≠ .run → exec (.difSample v) s = .next (raiseError .sequence (encode (.difSample v)) s)) ∧
    (s.dif.state = .run → (s.dif.x ≠ 0#24 ∨ s.dif.mode = .invertible) → s.glob.chain = true → s.enc.ended = true →
      exec (.difSample v) s = .next (raiseError .sequence (encode (.difSample v)) s)) ∧
    (s.dif.state = .run →
      ¬ ((s.dif.x ≠ 0#24 ∨ s.dif.mode = .invertible) ∧ s.glob.chain = true ∧ s.enc.ended = true) →
      ∃ (t : State) (d : Byte), exec (.difSample v) s = .next t ∧
        (s.dif.x = 0#24 → d = v) ∧
        (s.dif.x ≠ 0#24 → ∃ l, readStore s.dif.left s.dif.c = some l ∧
          (s.dif.mode = .reference → d.toNat = ((v.toNat : Int) - (l.toNat : Int)).natAbs) ∧
          (s.dif.mode = .invertible → (d.toNat : Int) = ((v.toNat : Int) - (l.toNat : Int)) % 256)) ∧
        readStore t.dif.left s.dif.c = some v ∧
        (∀ c, c ≠ s.dif.c → readStore t.dif.left c = readStore s.dif.left c) ∧
        (t.dif.cols = s.dif.cols ∧ t.dif.chans = s.dif.chans ∧ t.dif.rows = s.dif.rows ∧ t.dif.mode = s.dif.mode) ∧
        (s.dif.c.toNat + 1 < s.dif.chans.toNat →
          t.dif.state = .run ∧ t.dif.c = s.dif.c + 1#24 ∧ t.dif.x = s.dif.x ∧ t.dif.y = s.dif.y) ∧
        (¬ s.dif.c.toNat + 1 < s.dif.chans.toNat → s.dif.x.toNat + 1 < s.dif.cols.toNat →
          t.dif.state = .run ∧ t.dif.c = 0#24 ∧ t.dif.x = s.dif.x + 1#24 ∧ t.dif.y = s.dif.y) ∧
        (¬ s.dif.c.toNat + 1 < s.dif.chans.toNat → ¬ s.dif.x.toNat + 1 < s.dif.cols.toNat →
          s.dif.y.toNat + 1 < s.dif.rows.toNat →
          t.dif.state = .run ∧ t.dif.c = 0#24 ∧ t.dif.x = 0#24 ∧ t.dif.y = s.dif.y + 1#24) ∧
        (¬ s.dif.c.toNat + 1 < s.dif.chans.toNat → ¬ s.dif.x.toNat + 1 < s.dif.cols.toNat →
          ¬ s.dif.y.toNat + 1 < s.dif.rows.toNat →
          t.dif.state = .done ∧ t.dif.c = 0#24 ∧ t.dif.x = 0#24 ∧ t.dif.y = 0#24) ∧
        (s.dif.x = 0#24 → s.dif.mode = .reference → t.difOut = s.difOut ∧ t.enc = s.enc ∧ t.encOut = s.encOut) ∧
        ((s.dif.x ≠ 0#24 ∨ s.dif.mode = .invertible) → s.glob.chain = false →
          t.difOut = s.difOut ++ [d] ∧ t.enc = s.enc ∧ t.encOut = s.encOut) ∧
        ((s.dif.x ≠ 0#24 ∨ s.dif.mode = .invertible) → s.glob.chain = true →
          t.difOut = s.difOut ∧ ∃ out, encStep d s.enc = .ok (t.enc, out) ∧ t.encOut = s.encOut ++ out) ∧
        (t.glob = s.glob ∧ t.dec = s.dec ∧ t.decOut = s.decOut ∧ t.params = s.params ∧ t.inputs = s.inputs ∧
          t.rdOut = s.rdOut ∧ t.draws = s.draws))

/-- Chaining (41_differencer.md R65): with `S.CHAIN = 1` a symbol the sample produces changes the Encoder and ENC_OUT
exactly as ENC_SYMBOL of that symbol does, within the one command, and is not appended to DIF_OUT. -/
def Obligations.ChainedSymbolActsAsEncSymbol : Prop :=
  ∀ (s t : State) (v d : Byte), Inv s → s.dif.state = .run → s.glob.chain = true → s.enc.ended = false →
    sampleSymbol v s.params.maxChans s.dif = .ok (some d) → exec (.difSample v) s = .next t →
    ∃ u, exec (.encSymbol d) s = .next u ∧ t.enc = u.enc ∧ t.encOut = u.encOut ∧ t.difOut = s.difOut ∧
      t.glob.err = s.glob.err

/-- The differences (41_differencer.md R67): the exact absolute difference, and the difference modulo 256 from which the
sample is recovered. -/
def Obligations.DifferencesAreExact : Prop :=
  ∀ v l : Byte,
    (absDifference v l).toNat = ((v.toNat : Int) - (l.toNat : Int)).natAbs ∧
    (l.toNat ≤ v.toNat → (modDifference v l).toNat = v.toNat - l.toNat) ∧
    (v.toNat < l.toNat → (modDifference v l).toNat + l.toNat = v.toNat + 256) ∧
    recoverSample l (modDifference v l) = v

/-- The source's transform (41_differencer.md R59): in REFERENCE mode, unchained, an image's samples in order append
exactly the absolute differences of R59 to DIF_OUT and end in DONE without an error. -/
def Obligations.ReferenceImageGivesTheTransform : Prop :=
  ∀ (s : State) (g : Grid), Inv s → Safe s → s.glob.chain = false → s.dif.mode = .reference →
    s.dif.cols ≠ 0#24 → s.dif.chans ≠ 0#24 → s.dif.rows ≠ 0#24 →
    ∃ t, runCommands
        (.difStart :: (gridSamples s.dif.rows.toNat s.dif.cols.toNat s.dif.chans.toNat g).map .difSample) s = .next t ∧
      t.difOut = s.difOut ++ referenceSymbols s.dif.rows.toNat s.dif.cols.toNat s.dif.chans.toNat g ∧
      t.dif.state = .done ∧ Safe t

/-- INVERTIBLE mode (41_differencer.md R60): an image's samples append the column-0 samples unchanged and the other
samples' deltas modulo 256. -/
def Obligations.InvertibleImageGivesTheDeltas : Prop :=
  ∀ (s : State) (g : Grid), Inv s → Safe s → s.glob.chain = false → s.dif.mode = .invertible →
    s.dif.cols ≠ 0#24 → s.dif.chans ≠ 0#24 → s.dif.rows ≠ 0#24 →
    ∃ t, runCommands
        (.difStart :: (gridSamples s.dif.rows.toNat s.dif.cols.toNat s.dif.chans.toNat g).map .difSample) s = .next t ∧
      t.difOut = s.difOut ++ invertibleSymbols s.dif.rows.toNat s.dif.cols.toNat s.dif.chans.toNat g ∧
      t.dif.state = .done ∧ Safe t

/-- A chained image (41_differencer.md R65 with R59 and R60): the Encoder ends as if ENC_SYMBOL had given it the image's
symbols in order, in either mode, and DIF_OUT gets nothing. -/
def Obligations.ChainedImageFeedsTheEncoder : Prop :=
  ∀ (s : State) (g : Grid) (symbols : List Byte), Inv s → Safe s → s.glob.chain = true → s.enc.ended = false →
    s.dif.cols ≠ 0#24 → s.dif.chans ≠ 0#24 → s.dif.rows ≠ 0#24 →
    symbols = (match s.dif.mode with
      | .reference => referenceSymbols s.dif.rows.toNat s.dif.cols.toNat s.dif.chans.toNat g
      | .invertible => invertibleSymbols s.dif.rows.toNat s.dif.cols.toNat s.dif.chans.toNat g) →
    ∃ t u, runCommands
        (.difStart :: (gridSamples s.dif.rows.toNat s.dif.cols.toNat s.dif.chans.toNat g).map .difSample) s = .next t ∧
      runCommands (symbols.map .encSymbol) s = .next u ∧
      t.enc = u.enc ∧ t.encOut = u.encOut ∧ t.difOut = s.difOut ∧ t.dif.state = .done ∧ Safe t

/-- The number of samples and symbols of an image (41_differencer.md R66), chained or not: fewer samples leave it in
RUN, exactly ROWS * COLS * CHANS end it, the symbols (on DIF_OUT, or taken by the Encoder as ENC_SYMBOL takes them) are
as many as the rule says, and one more sample raises SEQUENCE. -/
def Obligations.ImageTakesItsCountOfSamples : Prop :=
  ∀ (s : State) (vs : List Byte), Inv s → Safe s → (s.glob.chain = true → s.enc.ended = false) →
    s.dif.cols ≠ 0#24 → s.dif.chans ≠ 0#24 → s.dif.rows ≠ 0#24 →
    vs.length ≤ s.dif.rows.toNat * s.dif.cols.toNat * s.dif.chans.toNat →
    ∃ t, runCommands (.difStart :: vs.map .difSample) s = .next t ∧ Safe t ∧
      (vs.length < s.dif.rows.toNat * s.dif.cols.toNat * s.dif.chans.toNat → t.dif.state = .run) ∧
      (vs.length = s.dif.rows.toNat * s.dif.cols.toNat * s.dif.chans.toNat →
        t.dif.state = .done ∧
        (∃ symbols : List Byte,
          (s.dif.mode = .reference →
            symbols.length = s.dif.rows.toNat * (s.dif.cols.toNat - 1) * s.dif.chans.toNat) ∧
          (s.dif.mode = .invertible → symbols.length = s.dif.rows.toNat * s.dif.cols.toNat * s.dif.chans.toNat) ∧
          (s.glob.chain = false → t.difOut = s.difOut ++ symbols) ∧
          (s.glob.chain = true → t.difOut = s.difOut ∧ ∃ u, runCommands (symbols.map .encSymbol) s = .next u ∧
            t.enc = u.enc ∧ t.encOut = u.encOut)) ∧
        ∀ v, exec (.difSample v) t = .next (raiseError .sequence (encode (.difSample v)) t))

/-! ### The Encoder -/

/-- ENC_INIT (42_encoder.md R70): legal in every state; the registers take their initial values, no table entry is
specified, and nothing else changes. -/
def Obligations.EncInitEmptiesTheDictionary : Prop :=
  ∀ s : State, encode .encInit = 0x20000000#32 ∧ ∃ t, exec .encInit s = .next t ∧
    t = { s with enc := t.enc } ∧
    t.enc.next = 256#16 ∧ t.enc.matchCode = 0#16 ∧ t.enc.mv = false ∧ t.enc.ended = false ∧
    (∀ k, readStore t.enc.table k = none) ∧
    readReg t 0xA#4 = 256#32 ∧ readReg t 0xB#4 = 0#32

/-- ENC_SYMBOL with EncStep (42_encoder.md R68, R71), every line: SEQUENCE after a flush; an empty match takes the
symbol; a key extends the match; else the match is emitted, a new entry gets code NEXT while NEXT is below 65535, and
the symbol starts the next match. -/
def Obligations.EncSymbolStepsTheEncoder : Prop :=
  ∀ (s : State) (x : Byte), s.enc.Inv → encode (.encSymbol x) = 0x21000000#32 ||| x.setWidth 32 ∧
    (s.enc.ended = true → exec (.encSymbol x) s = .next (raiseError .sequence (encode (.encSymbol x)) s)) ∧
    (s.enc.ended = false → s.enc.mv = false →
      exec (.encSymbol x) s = .next { s with enc := { s.enc with matchCode := x.setWidth 16, mv := true } }) ∧
    (s.enc.ended = false → s.enc.mv = true → ∀ k, readStore s.enc.table k = some ⟨s.enc.matchCode, x⟩ →
      exec (.encSymbol x) s = .next { s with enc := { s.enc with matchCode := k } }) ∧
    (s.enc.ended = false → s.enc.mv = true → (∀ k, readStore s.enc.table k ≠ some ⟨s.enc.matchCode, x⟩) →
      s.enc.next.toNat < 65535 →
      ∃ t, exec (.encSymbol x) s = .next t ∧
        t = { s with
          enc := { s.enc with next := s.enc.next + 1#16, matchCode := x.setWidth 16, table := t.enc.table }
          encOut := s.encOut ++ [s.enc.matchCode] } ∧
        readStore t.enc.table s.enc.next = some ⟨s.enc.matchCode, x⟩ ∧
        (∀ k, k ≠ s.enc.next → readStore t.enc.table k = readStore s.enc.table k)) ∧
    (s.enc.ended = false → s.enc.mv = true → (∀ k, readStore s.enc.table k ≠ some ⟨s.enc.matchCode, x⟩) →
      s.enc.next = 65535#16 →
      exec (.encSymbol x) s =
        .next { s with enc := { s.enc with matchCode := x.setWidth 16 }, encOut := s.encOut ++ [s.enc.matchCode] })

/-- Lookup (42_encoder.md R69): it returns exactly the code below NEXT whose entry is the pair, there is at most one,
and it is the code of the match string with the symbol where that string is a key. -/
def Obligations.LookupFindsTheKey : Prop :=
  ∀ (e : Enc) (m : Code) (x : Byte), e.Inv → m.toNat < e.next.toNat →
    (∀ k, lookupEntry e.next e.table m x = some k ↔
      256 ≤ k.toNat ∧ k.toNat < e.next.toNat ∧ readStore e.table k = some ⟨m, x⟩) ∧
    (∀ j k, readStore e.table j = some ⟨m, x⟩ → readStore e.table k = some ⟨m, x⟩ → j = k) ∧
    ∃ a, dictString e.next e.table m = some a ∧
      ∀ k, k.toNat < e.next.toNat →
        (lookupEntry e.next e.table m x = some k ↔
          ∃ b, dictString e.next e.table k = some b ∧ b.symbols = a.symbols ++ [x])

/-- ENC_FLUSH (42_encoder.md R72): a match is emitted, no entry is inserted, the match is emptied and ENDED is set; a
second flush emits and raises nothing; symbols then raise SEQUENCE until ENC_INIT. -/
def Obligations.EncFlushEmitsTheMatch : Prop :=
  ∀ s : State, encode .encFlush = 0x22000000#32 ∧ ∃ t, exec .encFlush s = .next t ∧
    t = { s with
      enc := { s.enc with matchCode := 0#16, mv := false, ended := true }
      encOut := if s.enc.mv = true then s.encOut ++ [s.enc.matchCode] else s.encOut } ∧
    exec .encFlush t = .next t ∧
    (∀ x, exec (.encSymbol x) t = .next (raiseError .sequence (encode (.encSymbol x)) t)) ∧
    (∀ x, ∃ u v, exec .encInit t = .next u ∧ exec (.encSymbol x) u = .next v ∧ v.glob = s.glob)

/-- Only keys are emitted, so the code 65535 never is (42_encoder.md section 2, ENC_SYMBOL's corner cases). -/
def Obligations.EmittedCodesAreKeys : Prop :=
  ∀ (i : Instr) (s t : State), Inv s → exec i s = .next t →
    ∃ out, t.encOut = s.encOut ++ out ∧ ∀ k ∈ out, k.toNat < s.enc.next.toNat ∧ k ≠ 65535#16

/-- The Encoder's laws (42_encoder.md R73): of the codes a symbol sequence and a flush emit, the strings join to the
sequence, NEXT counts them, and each insertion is a code with the first symbol of the next code's string; no symbols
emit nothing. -/
def Obligations.EncodedStringsJoinToTheInput : Prop :=
  (∀ (s : State) (xs : List Byte), Safe s → xs ≠ [] →
    ∃ (t : State) (codes : List Code) (strs : List SymString),
      runCommands (.encInit :: (xs.map .encSymbol ++ [.encFlush])) s = .next t ∧ Safe t ∧
      t.encOut = s.encOut ++ codes ∧
      codes.map (fun k => dictString t.enc.next t.enc.table k) = strs.map some ∧
      (strs.flatMap fun a => a.symbols) = xs ∧
      1 ≤ codes.length ∧
      t.enc.next.toNat = 256 + min (codes.length - 1) 65279 ∧
      ∀ (n : Nat) (k : Code) (a : SymString), n < 65279 → codes[n]? = some k → strs[n + 1]? = some a →
        readStore t.enc.table (BitVec.ofNat 16 (256 + n)) = some ⟨k, a.first⟩) ∧
  (∀ s : State, Safe s → ∃ t, runCommands [.encInit, .encFlush] s = .next t ∧ t.encOut = s.encOut)

/-! ### The Decoder -/

/-- DEC_INIT (43_decoder.md R75): legal in every state; the registers take their initial values, a pending byte is
dropped, no table entry is specified, and nothing else changes. -/
def Obligations.DecInitEmptiesTheDictionary : Prop :=
  ∀ s : State, encode .decInit = 0x30000000#32 ∧ ∃ t, exec .decInit s = .next t ∧
    t = { s with dec := t.dec } ∧
    t.dec.next = 256#16 ∧ t.dec.prev = 0#16 ∧ t.dec.pv = false ∧ t.dec.half = false ∧ t.dec.byte0 = 0#8 ∧
    (∀ k, readStore t.dec.table k = none) ∧
    readReg t 0xC#4 = 256#32 ∧ readReg t 0xD#4 = 0#32

/-- DEC_CODE with DecStep (43_decoder.md R74, R76), every line: SEQUENCE with a byte pending; the first code must be a
seed; a later code is a key, or the next code that would be assigned while the table has room, else CORRUPT_CODE; the
string is emitted, an entry is inserted under the cap, and the code becomes the previous one. -/
def Obligations.DecCodeStepsTheDecoder : Prop :=
  ∀ (s : State) (k : Code), s.dec.Inv → encode (.decCode k) = 0x31000000#32 ||| k.setWidth 32 ∧
    (s.dec.half = true → exec (.decCode k) s = .next (raiseError .sequence (encode (.decCode k)) s)) ∧
    (s.dec.half = false → s.dec.pv = false → 256 ≤ k.toNat →
      exec (.decCode k) s = .next (raiseError .corruptCode (encode (.decCode k)) s)) ∧
    (s.dec.half = false → s.dec.pv = false → k.toNat < 256 →
      exec (.decCode k) s =
        .next { s with dec := { s.dec with prev := k, pv := true }, decOut := s.decOut ++ [k.setWidth 8] }) ∧
    (s.dec.half = false → s.dec.pv = true → ¬ k.toNat < s.dec.next.toNat →
      ¬ (k = s.dec.next ∧ s.dec.next.toNat < 65535) →
      exec (.decCode k) s = .next (raiseError .corruptCode (encode (.decCode k)) s)) ∧
    (s.dec.half = false → s.dec.pv = true →
      (k.toNat < s.dec.next.toNat ∨ (k = s.dec.next ∧ s.dec.next.toNat < 65535)) →
      ∃ (t : State) (cur : SymString), exec (.decCode k) s = .next t ∧
        (k.toNat < s.dec.next.toNat → dictString s.dec.next s.dec.table k = some cur) ∧
        (k = s.dec.next → ∃ p, dictString s.dec.next s.dec.table s.dec.prev = some p ∧
          cur.symbols = p.symbols ++ [p.first]) ∧
        t = { s with
          dec := { s.dec with prev := k, next := t.dec.next, table := t.dec.table }
          decOut := s.decOut ++ cur.symbols } ∧
        (s.dec.next.toNat < 65535 → t.dec.next = s.dec.next + 1#16 ∧
          readStore t.dec.table s.dec.next = some ⟨s.dec.prev, cur.first⟩ ∧
          ∀ j, j ≠ s.dec.next → readStore t.dec.table j = readStore s.dec.table j) ∧
        (s.dec.next = 65535#16 → t.dec.next = s.dec.next ∧ t.dec.table = s.dec.table))

/-- DEC_BYTE (43_decoder.md R77): the first byte of a pair is held; the second completes the code in the order
`S.BYTE_ORDER` gives at that moment, and the code is decoded as DEC_CODE decodes it with no byte pending; an error keeps
the pending byte. -/
def Obligations.DecByteCompletesTheCode : Prop :=
  ∀ (s : State) (b : Byte), s.dec.Inv → encode (.decByte b) = 0x32000000#32 ||| b.setWidth 32 ∧
    (s.dec.half = false →
      exec (.decByte b) s = .next { s with dec := { s.dec with byte0 := b, half := true } }) ∧
    (s.dec.half = true → ∃ k : Code,
      (s.glob.byteOrder = .highFirst → k.toNat = 256 * s.dec.byte0.toNat + b.toNat) ∧
      (s.glob.byteOrder = .lowFirst → k.toNat = 256 * b.toNat + s.dec.byte0.toNat) ∧
      (∀ d out, decStep k s.dec = .ok (d, out) →
        exec (.decByte b) s =
          .next { s with dec := { d with half := false, byte0 := 0#8 }, decOut := s.decOut ++ out }) ∧
      (∀ e, decStep k s.dec = .error e →
        exec (.decByte b) s = .next (raiseError .corruptCode (encode (.decByte b)) s)) ∧
      (∀ t, s.glob.err = false → exec (.decCode k) { s with dec := { s.dec with half := false } } = .next t →
        t.glob.err = false →
        exec (.decByte b) s = .next { t with dec := { t.dec with byte0 := 0#8 } }))

/-- DEC_END (43_decoder.md R78): CORRUPT_ODD with a byte pending; else nothing changes. -/
def Obligations.DecEndChecksTheByteCount : Prop :=
  ∀ s : State, encode .decEnd = 0x33000000#32 ∧
    (s.dec.half = true → exec .decEnd s = .next (raiseError .corruptOdd (encode .decEnd) s)) ∧
    (s.dec.half = false → exec .decEnd s = .next s)

/-- The bytes of a code (20_memory.md R37): high byte first or low byte first, and the pairing of DEC_BYTE gives the
code back under the same order. -/
def Obligations.CodeBytesPairBack : Prop :=
  ∀ k : Code,
    (((codeBytes .highFirst k).1.toNat = k.toNat / 256 ∧ (codeBytes .highFirst k).2.toNat = k.toNat % 256) ∧
     ((codeBytes .lowFirst k).1.toNat = k.toNat % 256 ∧ (codeBytes .lowFirst k).2.toNat = k.toNat / 256)) ∧
    ∀ o : ByteOrder, pairCode o (codeBytes o k).1 (codeBytes o k).2 = k

/-- Round trip (43_decoder.md R79): the codes an Encoder emits for a symbol sequence and a flush, given to a Decoder,
raise nothing, give back exactly the sequence, and leave the Decoder's table equal to the Encoder's; after `j` codes the
Decoder has made `j - 1` entries while the table has room, each equal to the Encoder's; and of codes emitted without the
flush only a shorter beginning of the sequence comes back. -/
def Obligations.DecoderMirrorsTheEncoder : Prop :=
  (∀ (s t u : State) (xs : List Byte) (codes : List Code), Safe s → Safe u → xs ≠ [] →
    runCommands (.encInit :: (xs.map .encSymbol ++ [.encFlush])) s = .next t →
    t.encOut = s.encOut ++ codes →
    (∃ v, runCommands (.decInit :: codes.map .decCode) u = .next v ∧ Safe v ∧
      v.decOut = u.decOut ++ xs ∧ v.dec.next = t.enc.next ∧ v.dec.table = t.enc.table) ∧
    (∀ j, 1 ≤ j → j ≤ codes.length → ∃ v, runCommands (.decInit :: (codes.take j).map .decCode) u = .next v ∧
      Safe v ∧ v.dec.next.toNat = 256 + min (j - 1) 65279 ∧
      ∀ k : Code, k.toNat < v.dec.next.toNat → readStore v.dec.table k = readStore t.enc.table k)) ∧
  (∀ (s t u : State) (xs : List Byte) (codes : List Code), Safe s → Safe u → xs ≠ [] →
    runCommands (.encInit :: xs.map .encSymbol) s = .next t →
    t.encOut = s.encOut ++ codes →
    ∃ v ys, runCommands (.decInit :: codes.map .decCode) u = .next v ∧ Safe v ∧
      v.decOut = u.decOut ++ ys ∧ ys <+: xs ∧ ys.length < xs.length)

/-- The host's sequences (70_reset_and_hazards.md R96) raise no error and give the source's operations: the compress
sequence of an image of any legal size, in either mode and byte order, and then the decompress sequence of the codes it
emitted, give back the image's difference symbols. -/
def Obligations.CompressedImageDecompresses : Prop :=
  ∀ (s : State) (f : BitVec 2) (rows cols chans : Dim) (m : Mode) (g : Grid) (symbols : List Byte),
    Inv s → Safe s → s.dif.state ≠ .run → f.getLsbD 0 = true →
    rows ≠ 0#24 → cols ≠ 0#24 → chans ≠ 0#24 → chans.toNat ≤ s.params.maxChans →
    symbols = (match m with
      | .reference => referenceSymbols rows.toNat cols.toNat chans.toNat g
      | .invertible => invertibleSymbols rows.toNat cols.toNat chans.toNat g) →
    ∃ (t : State) (codes : List Code),
      runCommands ([.encInit, .setCtrl f, .difSetRows rows, .difSetCols cols, .difSetChans chans,
          .difSetMode (modeBit m), .difStart] ++
        (gridSamples rows.toNat cols.toNat chans.toNat g).map .difSample ++ [.encFlush]) s = .next t ∧
      Safe t ∧ t.dif.state = .done ∧ t.difOut = s.difOut ∧ t.encOut = s.encOut ++ codes ∧
      ∃ v, runCommands (.decInit :: codes.map .decCode) t = .next v ∧ Safe v ∧ v.decOut = s.decOut ++ symbols

/-! ### Invariants -/

/-- The invariant holds at reset (10_state.md section 9); the value of MAX_CHANS there is the model's free parameter
(log 1). -/
def Obligations.ResetMeetsTheInvariant : Prop := Inv State.reset

/-- Every step keeps the invariant, whatever the host does: the ranges and the scan position of 10_state.md R19 and R20,
LEFT's written entries (R21), the Encoder's invariants (R25), the Decoder's (R26 to R28) and the error fields (R17). -/
def Obligations.EveryStepKeepsTheInvariant : Prop :=
  ∀ s t : State, Inv s → step s = .next t → Inv t

/-- No rule reads unspecified contents (10_state.md R34): from a state of the invariant every step ends in a next state,
never in a fault or a refusal. -/
def Obligations.NoStepStops : Prop :=
  ∀ s : State, Inv s → ∃ t, step s = .next t

/-- The Encoder's invariants as the spec lists them (10_state.md R25): NEXT's range, prefixes below their codes, the
lengths of strings and the longest one, no two codes for one string, the match is a key, and every proper non-empty
prefix of a key is a key. -/
def Obligations.EncoderStringsAreKeys : Prop :=
  ∀ e : Enc, e.Inv →
    (256 ≤ e.next.toNat ∧ e.next.toNat ≤ 65535) ∧
    (∀ k : Code, 256 ≤ k.toNat → k.toNat < e.next.toNat →
      ∃ p a, readStore e.table k = some p ∧ p.pre.toNat < k.toNat ∧ dictString e.next e.table k = some a ∧
        2 ≤ a.symbols.length ∧ a.symbols.length ≤ k.toNat - 254 ∧ a.symbols.length ≤ 65280) ∧
    (∀ (j k : Code) (a : SymString), j.toNat < e.next.toNat → k.toNat < e.next.toNat →
      dictString e.next e.table j = some a → dictString e.next e.table k = some a → j = k) ∧
    (e.mv = true → e.matchCode.toNat < e.next.toNat) ∧
    (∀ (k : Code) (a b : SymString), k.toNat < e.next.toNat → dictString e.next e.table k = some a →
      b.symbols <+: a.symbols → ∃ j : Code, j.toNat < e.next.toNat ∧ dictString e.next e.table j = some b)

/-- The strings of codes (10_state.md R24, R28): a seed stands for its own symbol; a later code for its prefix's string
with its symbol, with a smaller prefix and the same first symbol. -/
def Obligations.StringsFollowThePrefixChain : Prop :=
  ∀ (next : Code) (table : Store 16 Entry), TableInv next table →
    (∀ k : Code, k.toNat < 256 →
      ∃ a, dictString next table k = some a ∧ a.symbols = [k.setWidth 8]) ∧
    (∀ k : Code, 256 ≤ k.toNat → k.toNat < next.toNat →
      ∃ e p a, readStore table k = some e ∧ e.pre.toNat < k.toNat ∧ dictString next table e.pre = some p ∧
        dictString next table k = some a ∧ a.symbols = p.symbols ++ [e.sym] ∧ a.first = p.first)

/-- The streams (10_state.md R29): a command only appends; the host removes at the front, and removal changes no other
state. That removal from an empty stream changes nothing is the model's deduction (log 6). -/
def Obligations.StreamsOnlyGrowByCommands : Prop :=
  (∀ (w : Word) (s t : State), executeWord w s = .next t →
    s.difOut <+: t.difOut ∧ s.encOut <+: t.encOut ∧ s.decOut <+: t.decOut) ∧
  (∀ s : State,
    performAction (.take .dif) s = .next { s with difOut := s.difOut.tail } ∧
    performAction (.take .enc) s = .next { s with encOut := s.encOut.tail } ∧
    performAction (.take .dec) s = .next { s with decOut := s.decOut.tail })

/-- The parameter MAX_CHANS is a constant and no field but STATUS and register 0xE shows more than its own field
(10_state.md sections 1 and 2): no step changes the parameters. -/
def Obligations.NoStepChangesTheParameters : Prop :=
  ∀ s t : State, step s = .next t → t.params = s.params

/-- The Encoder and the Decoder are independent (60_exceptions.md section 5): a command of one and a command of the
other, neither of which raises, can be given in either order. -/
def Obligations.EncoderAndDecoderCommute : Prop :=
  ∀ (i j : Instr) (s a b : State), (opcodeOf i).toNat / 16 = 2 → (opcodeOf j).toNat / 16 = 3 → s.glob.err = false →
    exec i s = .next a → a.glob.err = false → exec j s = .next b → b.glob.err = false →
    ∃ t, exec j a = .next t ∧ exec i b = .next t ∧ t.glob.err = false

/-! ### Frames: what a command leaves unchanged -/

/-- The global commands (40_control.md section 2): NOP leaves everything; SET_CTRL leaves everything but the two control
fields; SOFT_RESET leaves the streams. None touches the parameters or the host's side. -/
def Obligations.GlobalCommandsLeaveTheRest : Prop :=
  ∀ (i : Instr) (s t : State), (opcodeOf i).toNat / 16 = 0 → exec i s = .next t →
    (t.difOut = s.difOut ∧ t.encOut = s.encOut ∧ t.decOut = s.decOut) ∧
    (t.params = s.params ∧ t.inputs = s.inputs ∧ t.rdOut = s.rdOut ∧ t.draws = s.draws) ∧
    (i ≠ .softReset → t.dif = s.dif ∧ t.enc = s.enc ∧ t.dec = s.dec ∧
      t.glob.err = s.glob.err ∧ t.glob.cause = s.glob.cause ∧ t.glob.errCmd = s.glob.errCmd) ∧
    (i = .nop → t = s)

/-- The Differencer's commands (41_differencer.md): they leave the Decoder, its stream, the control fields and the host's
side; all but DIF_SAMPLE leave the Encoder, every stream and every entry of LEFT; each setting command changes its own
field only; DIF_START the scan position and the model's own record of the current row (log 20) only; DIF_SAMPLE leaves
the configuration and every entry of LEFT but the
current channel's, and reaches the Encoder only when chained. -/
def Obligations.DifferencerCommandsLeaveTheRest : Prop :=
  ∀ (i : Instr) (s t : State), (opcodeOf i).toNat / 16 = 1 → exec i s = .next t →
    (t.dec = s.dec ∧ t.decOut = s.decOut) ∧
    (t.glob.chain = s.glob.chain ∧ t.glob.byteOrder = s.glob.byteOrder) ∧
    (t.glob = s.glob ∨ t = raiseError t.glob.cause (encode i) s) ∧
    (t.params = s.params ∧ t.inputs = s.inputs ∧ t.rdOut = s.rdOut ∧ t.draws = s.draws) ∧
    ((∀ v, i ≠ .difSample v) → t.enc = s.enc ∧ t.encOut = s.encOut ∧ t.difOut = s.difOut ∧ t.dif.left = s.dif.left) ∧
    (∀ n, i = .difSetCols n → t.dif = { s.dif with cols := t.dif.cols }) ∧
    (∀ n, i = .difSetChans n → t.dif = { s.dif with chans := t.dif.chans }) ∧
    (∀ n, i = .difSetRows n → t.dif = { s.dif with rows := t.dif.rows }) ∧
    (∀ b, i = .difSetMode b → t.dif = { s.dif with mode := t.dif.mode }) ∧
    (i = .difStart → t.dif = { s.dif with
      x := t.dif.x, y := t.dif.y, c := t.dif.c, state := t.dif.state, leftRow := t.dif.leftRow }) ∧
    (∀ v, i = .difSample v →
      t.dif.cols = s.dif.cols ∧ t.dif.chans = s.dif.chans ∧ t.dif.rows = s.dif.rows ∧ t.dif.mode = s.dif.mode ∧
      (∀ c, c ≠ s.dif.c → readStore t.dif.left c = readStore s.dif.left c) ∧
      t.enc.ended = s.enc.ended ∧
      (∀ k, k ≠ s.enc.next → readStore t.enc.table k = readStore s.enc.table k) ∧
      (s.glob.chain = false → t.enc = s.enc ∧ t.encOut = s.encOut) ∧
      (s.glob.chain = true → t.difOut = s.difOut))

/-- The Encoder's commands (42_encoder.md): they leave the Differencer, the Decoder, their streams, the control fields
and the host's side; ENC_INIT leaves ENC_OUT; ENC_SYMBOL leaves ENDED and every table entry but NEXT's; ENC_FLUSH leaves
NEXT and the table. -/
def Obligations.EncoderCommandsLeaveTheRest : Prop :=
  ∀ (i : Instr) (s t : State), (opcodeOf i).toNat / 16 = 2 → exec i s = .next t →
    (t.dif = s.dif ∧ t.difOut = s.difOut ∧ t.dec = s.dec ∧ t.decOut = s.decOut) ∧
    (t.glob.chain = s.glob.chain ∧ t.glob.byteOrder = s.glob.byteOrder) ∧
    (t.glob = s.glob ∨ t = raiseError t.glob.cause (encode i) s) ∧
    (t.params = s.params ∧ t.inputs = s.inputs ∧ t.rdOut = s.rdOut ∧ t.draws = s.draws) ∧
    (i = .encInit → t.encOut = s.encOut ∧ t.glob = s.glob) ∧
    (∀ x, i = .encSymbol x → t.enc.ended = s.enc.ended ∧
      ∀ k, k ≠ s.enc.next → readStore t.enc.table k = readStore s.enc.table k) ∧
    (i = .encFlush → t.enc.next = s.enc.next ∧ t.enc.table = s.enc.table ∧ t.glob = s.glob)

/-- The Decoder's commands (43_decoder.md): they leave the Differencer, the Encoder, their streams, the control fields
and the host's side; DEC_INIT and DEC_END leave DEC_OUT; DEC_CODE leaves the pending byte; DEC_CODE and DEC_BYTE leave
every table entry but NEXT's; DEC_END leaves the Decoder. -/
def Obligations.DecoderCommandsLeaveTheRest : Prop :=
  ∀ (i : Instr) (s t : State), (opcodeOf i).toNat / 16 = 3 → exec i s = .next t →
    (t.dif = s.dif ∧ t.difOut = s.difOut ∧ t.enc = s.enc ∧ t.encOut = s.encOut) ∧
    (t.glob.chain = s.glob.chain ∧ t.glob.byteOrder = s.glob.byteOrder) ∧
    (t.glob = s.glob ∨ t = raiseError t.glob.cause (encode i) s) ∧
    (t.params = s.params ∧ t.inputs = s.inputs ∧ t.rdOut = s.rdOut ∧ t.draws = s.draws) ∧
    (i = .decInit ∨ i = .decEnd → t.decOut = s.decOut) ∧
    (i = .decEnd → t.dec = s.dec) ∧
    (∀ k, i = .decCode k → t.dec.half = s.dec.half ∧ t.dec.byte0 = s.dec.byte0) ∧
    (∀ x k, i = .decCode k ∨ i = .decByte x →
      ∀ j, j ≠ s.dec.next → readStore t.dec.table j = readStore s.dec.table j)

/-! ### The assembler -/

/-- The assembler's operands (30_encoding.md R53): a number that does not fit its field is refused, one that fits is
encoded as it stands; SET_CTRL encodes `chain | (order << 1)`; a mode is a name or its digit; a comment starts with `;`;
and the rule's three examples. -/
def Obligations.AssemblerRefusesWhatDoesNotFit : Prop :=
  (∀ n : Nat,
    (256 ≤ n → assembleLine (.difSample n) = none ∧ assembleLine (.encSymbol n) = none ∧
      assembleLine (.decByte n) = none) ∧
    (65536 ≤ n → assembleLine (.decCode n) = none) ∧
    (16777216 ≤ n → assembleLine (.difSetCols n) = none ∧ assembleLine (.difSetChans n) = none ∧
      assembleLine (.difSetRows n) = none) ∧
    (n < 256 → ((assembleLine (.difSample n)).map (List.map fun i => (encode i).toNat)) = some [0x15000000 + n] ∧
      ((assembleLine (.encSymbol n)).map (List.map fun i => (encode i).toNat)) = some [0x21000000 + n] ∧
      ((assembleLine (.decByte n)).map (List.map fun i => (encode i).toNat)) = some [0x32000000 + n]) ∧
    (n < 65536 → ((assembleLine (.decCode n)).map (List.map fun i => (encode i).toNat)) = some [0x31000000 + n]) ∧
    (n < 16777216 → ((assembleLine (.difSetCols n)).map (List.map fun i => (encode i).toNat)) = some [0x10000000 + n] ∧
      ((assembleLine (.difSetChans n)).map (List.map fun i => (encode i).toNat)) = some [0x11000000 + n] ∧
      ((assembleLine (.difSetRows n)).map (List.map fun i => (encode i).toNat)) = some [0x12000000 + n])) ∧
  (∀ chain order : Nat,
    (chain < 2 → order < 2 →
      ((assembleLine (.setCtrl chain order)).map (List.map fun i => (encode i).toNat)) =
        some [0x02000000 + chain + 2 * order]) ∧
    (2 ≤ chain ∨ 2 ≤ order → assembleLine (.setCtrl chain order) = none)) ∧
  assembleText "DIF_SAMPLE 10 ; a comment".toList = some [0x1500000A#32] ∧
  assembleText "DEC_CODE 256".toList = some [0x31000100#32] ∧
  assembleText "SET_CTRL 1, 0".toList = some [0x02000001#32] ∧
  assembleText "DIF_SET_MODE INVERTIBLE".toList = some [0x13000001#32] ∧
  assembleText "DIF_SET_MODE 0".toList = some [0x13000000#32] ∧
  assembleText "DEC_CODE 0x100".toList = some [0x31000100#32]

/-- The pseudo-instructions (30_encoding.md R54): what each expands to, in order; and when DEC_CODE_BYTES has the effect
of DEC_CODE: with no byte pending it has the effect of DEC_CODE of the code that the order of `S.BYTE_ORDER` reads from
the two bytes, which is the operand where the orders agree and the operand with its bytes exchanged where they differ;
with a byte pending it never has that effect. -/
def Obligations.PseudoInstructionsExpand : Prop :=
  (∀ rows cols chans mode : Nat, rows < 16777216 → cols < 16777216 → chans < 16777216 → mode < 2 →
    assembleLine (.difImage rows cols chans mode) =
      some [.difSetRows (BitVec.ofNat 24 rows), .difSetCols (BitVec.ofNat 24 cols),
        .difSetChans (BitVec.ofNat 24 chans), .difSetMode (BitVec.ofNat 1 mode), .difStart]) ∧
  (∀ vs : List Nat, vs ≠ [] → (∀ v ∈ vs, v < 256) →
    assembleLine (.difSamples vs) = some (vs.map fun v => .difSample (BitVec.ofNat 8 v)) ∧
    assembleLine (.encSymbols vs) = some (vs.map fun v => .encSymbol (BitVec.ofNat 8 v))) ∧
  (∀ k : Code, ∃ b0 b1 c0 c1 : Byte,
    (b0, b1) = codeBytes .highFirst k ∧ (c0, c1) = codeBytes .lowFirst k ∧
    assembleLine (.decCodeBytes k.toNat 0) = some [.decByte b0, .decByte b1] ∧
    assembleLine (.decCodeBytes k.toNat 1) = some [.decByte c0, .decByte c1]) ∧
  (∀ (s : State) (k : Code) (o : ByteOrder) (is : List Instr), Inv s → Safe s →
    assembleLine (.decCodeBytes k.toNat (byteOrderBit o).toNat) = some is →
    (s.dec.half = false → ∃ k' : Code,
      (o = s.glob.byteOrder → k' = k) ∧
      (o ≠ s.glob.byteOrder → k'.toNat = 256 * (k.toNat % 256) + k.toNat / 256) ∧
      ∀ t, runCommands [.decCode k'] s = .next t → Safe t → runCommands is s = .next t) ∧
    (s.dec.half = true → runCommands is s ≠ runCommands [.decCode k] s))

/-! ### The guards -/

/-- The guards against reads of unspecified contents (10_state.md R34), in states no run reaches: a sample outside column
0 whose channel no column-0 sample of the current row has written faults, whatever LEFT holds from an earlier row, and
DIF_START and the start of each row leave no channel written; a code whose string needs an entry of DEC_TABLE that has no
contents, or one at or above DEC.NEXT, faults; and Lookup does not depend on entries at or above NEXT. The record of the
row and the faults are the model's (log 9, log 20). -/
def Obligations.GuardsFaultOnUnspecifiedReads : Prop :=
  (∀ (s : State) (v : Byte), s.dif.state = .run → s.dif.x ≠ 0#24 → s.dif.c.toNat < s.params.maxChans →
    readStore s.dif.leftRow s.dif.c = none → exec (.difSample v) s = .fault .leftUnwritten) ∧
  (∀ s t : State, exec .difStart s = .next t → t.glob.err = false → ∀ c, readStore t.dif.leftRow c = none) ∧
  (∀ (s t : State) (v : Byte), exec (.difSample v) s = .next t → t.glob.err = false →
    (t.dif.x = 0#24 → t.dif.c = 0#24 → ∀ c, readStore t.dif.leftRow c = none) ∧
    (s.dif.x = 0#24 → t.dif.x ≠ 0#24 ∨ t.dif.c ≠ 0#24 → readStore t.dif.leftRow s.dif.c = some ()) ∧
    (s.dif.x ≠ 0#24 → t.dif.x ≠ 0#24 → t.dif.leftRow = s.dif.leftRow)) ∧
  (∀ (s : State) (k : Code), s.dec.half = false → s.dec.pv = true → 256 ≤ k.toNat → k.toNat < s.dec.next.toNat →
    (readStore s.dec.table k = none → exec (.decCode k) s = .fault .decEntryUnspecified) ∧
    (∀ e, readStore s.dec.table k = some e → 256 ≤ e.pre.toNat → s.dec.next.toNat ≤ e.pre.toNat →
      exec (.decCode k) s = .fault .decEntryUnspecified)) ∧
  (∀ s : State, s.dec.half = false → s.dec.pv = true → s.dec.next.toNat < 65535 → 256 ≤ s.dec.prev.toNat →
    s.dec.next.toNat ≤ s.dec.prev.toNat → exec (.decCode s.dec.next) s = .fault .decEntryUnspecified) ∧
  (∀ (next m : Code) (x : Byte) (table : Store 16 Entry),
    lookupEntry next table m x = lookupEntry next (table.filter fun p => p.1.toNat < next.toNat) m x)
end

