-- ==== Sys2Proof/Laws/State.lean ====
section
/-! SUPPORT. What each named update of the state leaves of each field, so that no proof unfolds a record update. -/

namespace Sys2Proof.Machine

variable (s : State)

/-! ### Raising an error -/

@[simp] theorem raiseError_glob (c : Cause) (w : Word) : (raiseError c w s).glob = { s.glob with err := true, cause := c, errCmd := w } := rfl
@[simp] theorem raiseError_dif (c : Cause) (w : Word) : (raiseError c w s).dif = s.dif := rfl
@[simp] theorem raiseError_enc (c : Cause) (w : Word) : (raiseError c w s).enc = s.enc := rfl
@[simp] theorem raiseError_dec (c : Cause) (w : Word) : (raiseError c w s).dec = s.dec := rfl
@[simp] theorem raiseError_difOut (c : Cause) (w : Word) : (raiseError c w s).difOut = s.difOut := rfl
@[simp] theorem raiseError_encOut (c : Cause) (w : Word) : (raiseError c w s).encOut = s.encOut := rfl
@[simp] theorem raiseError_decOut (c : Cause) (w : Word) : (raiseError c w s).decOut = s.decOut := rfl
@[simp] theorem raiseError_params (c : Cause) (w : Word) : (raiseError c w s).params = s.params := rfl
@[simp] theorem raiseError_inputs (c : Cause) (w : Word) : (raiseError c w s).inputs = s.inputs := rfl
@[simp] theorem raiseError_rdOut (c : Cause) (w : Word) : (raiseError c w s).rdOut = s.rdOut := rfl
@[simp] theorem raiseError_draws (c : Cause) (w : Word) : (raiseError c w s).draws = s.draws := rfl

/-! ### The two resets -/

@[simp] theorem softReset_glob : (softReset s).glob = .reset := rfl
@[simp] theorem softReset_dif : (softReset s).dif = .reset := rfl
@[simp] theorem softReset_enc : (softReset s).enc = .reset := rfl
@[simp] theorem softReset_dec : (softReset s).dec = .reset := rfl
@[simp] theorem softReset_difOut : (softReset s).difOut = s.difOut := rfl
@[simp] theorem softReset_encOut : (softReset s).encOut = s.encOut := rfl
@[simp] theorem softReset_decOut : (softReset s).decOut = s.decOut := rfl
@[simp] theorem softReset_params : (softReset s).params = s.params := rfl
@[simp] theorem softReset_inputs : (softReset s).inputs = s.inputs := rfl
@[simp] theorem softReset_rdOut : (softReset s).rdOut = s.rdOut := rfl
@[simp] theorem softReset_draws : (softReset s).draws = s.draws := rfl

/-! ### Hardware reset -/

@[simp] theorem hardReset_glob : (hardReset s).glob = .reset := rfl
@[simp] theorem hardReset_dif : (hardReset s).dif = .reset := rfl
@[simp] theorem hardReset_enc : (hardReset s).enc = .reset := rfl
@[simp] theorem hardReset_dec : (hardReset s).dec = .reset := rfl
@[simp] theorem hardReset_difOut : (hardReset s).difOut = [] := rfl
@[simp] theorem hardReset_encOut : (hardReset s).encOut = [] := rfl
@[simp] theorem hardReset_decOut : (hardReset s).decOut = [] := rfl
@[simp] theorem hardReset_params : (hardReset s).params = s.params := rfl
@[simp] theorem hardReset_inputs : (hardReset s).inputs = s.inputs := rfl
@[simp] theorem hardReset_rdOut : (hardReset s).rdOut = s.rdOut := rfl
@[simp] theorem hardReset_draws : (hardReset s).draws = s.draws := rfl

/-! ### Emitting a difference symbol -/

@[simp] theorem emitDif_glob (d : Byte) : (emitDif d s).glob = s.glob := rfl
@[simp] theorem emitDif_dif (d : Byte) : (emitDif d s).dif = s.dif := rfl
@[simp] theorem emitDif_enc (d : Byte) : (emitDif d s).enc = s.enc := rfl
@[simp] theorem emitDif_dec (d : Byte) : (emitDif d s).dec = s.dec := rfl
@[simp] theorem emitDif_difOut (d : Byte) : (emitDif d s).difOut = s.difOut ++ [d] := rfl
@[simp] theorem emitDif_encOut (d : Byte) : (emitDif d s).encOut = s.encOut := rfl
@[simp] theorem emitDif_decOut (d : Byte) : (emitDif d s).decOut = s.decOut := rfl
@[simp] theorem emitDif_params (d : Byte) : (emitDif d s).params = s.params := rfl
@[simp] theorem emitDif_inputs (d : Byte) : (emitDif d s).inputs = s.inputs := rfl
@[simp] theorem emitDif_rdOut (d : Byte) : (emitDif d s).rdOut = s.rdOut := rfl
@[simp] theorem emitDif_draws (d : Byte) : (emitDif d s).draws = s.draws := rfl

/-! ### Taking from a stream -/

@[simp] theorem takeFront_glob (ch : Stream) : (takeFront ch s).glob = s.glob := by cases ch <;> rfl
@[simp] theorem takeFront_dif (ch : Stream) : (takeFront ch s).dif = s.dif := by cases ch <;> rfl
@[simp] theorem takeFront_enc (ch : Stream) : (takeFront ch s).enc = s.enc := by cases ch <;> rfl
@[simp] theorem takeFront_dec (ch : Stream) : (takeFront ch s).dec = s.dec := by cases ch <;> rfl
@[simp] theorem takeFront_params (ch : Stream) : (takeFront ch s).params = s.params := by cases ch <;> rfl
@[simp] theorem takeFront_inputs (ch : Stream) : (takeFront ch s).inputs = s.inputs := by cases ch <;> rfl
@[simp] theorem takeFront_rdOut (ch : Stream) : (takeFront ch s).rdOut = s.rdOut := by cases ch <;> rfl
@[simp] theorem takeFront_draws (ch : Stream) : (takeFront ch s).draws = s.draws := by cases ch <;> rfl

/-! ### Reading the read port -/

@[simp] theorem readPort_glob (a : BitVec 4) (b : Bool) : (readPort a b s).glob = s.glob := by cases b <;> rfl
@[simp] theorem readPort_dif (a : BitVec 4) (b : Bool) : (readPort a b s).dif = s.dif := by cases b <;> rfl
@[simp] theorem readPort_enc (a : BitVec 4) (b : Bool) : (readPort a b s).enc = s.enc := by cases b <;> rfl
@[simp] theorem readPort_dec (a : BitVec 4) (b : Bool) : (readPort a b s).dec = s.dec := by cases b <;> rfl
@[simp] theorem readPort_difOut (a : BitVec 4) (b : Bool) : (readPort a b s).difOut = s.difOut := by cases b <;> rfl
@[simp] theorem readPort_encOut (a : BitVec 4) (b : Bool) : (readPort a b s).encOut = s.encOut := by cases b <;> rfl
@[simp] theorem readPort_decOut (a : BitVec 4) (b : Bool) : (readPort a b s).decOut = s.decOut := by cases b <;> rfl
@[simp] theorem readPort_params (a : BitVec 4) (b : Bool) : (readPort a b s).params = s.params := by cases b <;> rfl
@[simp] theorem readPort_inputs (a : BitVec 4) (b : Bool) : (readPort a b s).inputs = s.inputs := by cases b <;> rfl

/-! ### Offering a command word -/

@[simp] theorem offerWord_glob (w : Word) : (offerWord w s).glob = s.glob := rfl
@[simp] theorem offerWord_dif (w : Word) : (offerWord w s).dif = s.dif := rfl
@[simp] theorem offerWord_enc (w : Word) : (offerWord w s).enc = s.enc := rfl
@[simp] theorem offerWord_dec (w : Word) : (offerWord w s).dec = s.dec := rfl
@[simp] theorem offerWord_difOut (w : Word) : (offerWord w s).difOut = s.difOut := rfl
@[simp] theorem offerWord_encOut (w : Word) : (offerWord w s).encOut = s.encOut := rfl
@[simp] theorem offerWord_decOut (w : Word) : (offerWord w s).decOut = s.decOut := rfl
@[simp] theorem offerWord_params (w : Word) : (offerWord w s).params = s.params := rfl
@[simp] theorem offerWord_inputs (w : Word) : (offerWord w s).inputs = .command w :: s.inputs := rfl
@[simp] theorem offerWord_rdOut (w : Word) : (offerWord w s).rdOut = s.rdOut := rfl
@[simp] theorem offerWord_draws (w : Word) : (offerWord w s).draws = s.draws := rfl

/-! ### Pending commands -/

@[simp] theorem withCommands_glob (is : List Instr) : (withCommands is s).glob = s.glob := rfl
@[simp] theorem withCommands_dif (is : List Instr) : (withCommands is s).dif = s.dif := rfl
@[simp] theorem withCommands_enc (is : List Instr) : (withCommands is s).enc = s.enc := rfl
@[simp] theorem withCommands_dec (is : List Instr) : (withCommands is s).dec = s.dec := rfl
@[simp] theorem withCommands_difOut (is : List Instr) : (withCommands is s).difOut = s.difOut := rfl
@[simp] theorem withCommands_encOut (is : List Instr) : (withCommands is s).encOut = s.encOut := rfl
@[simp] theorem withCommands_decOut (is : List Instr) : (withCommands is s).decOut = s.decOut := rfl
@[simp] theorem withCommands_params (is : List Instr) : (withCommands is s).params = s.params := rfl
@[simp] theorem withCommands_inputs (is : List Instr) : (withCommands is s).inputs = is.map (fun i => HostAction.command (encode i)) := rfl
@[simp] theorem withCommands_rdOut (is : List Instr) : (withCommands is s).rdOut = s.rdOut := rfl
@[simp] theorem withCommands_draws (is : List Instr) : (withCommands is s).draws = s.draws := rfl

/-! ### The units at reset -/

@[simp] theorem global_reset_err : Global.reset.err = false := rfl
@[simp] theorem global_reset_cause : Global.reset.cause = .noError := rfl
@[simp] theorem global_reset_errCmd : Global.reset.errCmd = 0#32 := rfl
@[simp] theorem global_reset_chain : Global.reset.chain = false := rfl
@[simp] theorem global_reset_byteOrder : Global.reset.byteOrder = .highFirst := rfl
@[simp] theorem dif_reset_cols : Dif.reset.cols = 0#24 := rfl
@[simp] theorem dif_reset_chans : Dif.reset.chans = 0#24 := rfl
@[simp] theorem dif_reset_rows : Dif.reset.rows = 0#24 := rfl
@[simp] theorem dif_reset_mode : Dif.reset.mode = .reference := rfl
@[simp] theorem dif_reset_state : Dif.reset.state = .idle := rfl
@[simp] theorem dif_reset_x : Dif.reset.x = 0#24 := rfl
@[simp] theorem dif_reset_y : Dif.reset.y = 0#24 := rfl
@[simp] theorem dif_reset_c : Dif.reset.c = 0#24 := rfl
@[simp] theorem dif_reset_left : Dif.reset.left = [] := rfl
@[simp] theorem dif_reset_leftRow : Dif.reset.leftRow = [] := rfl
@[simp] theorem enc_reset_next : Enc.reset.next = 256#16 := rfl
@[simp] theorem enc_reset_matchCode : Enc.reset.matchCode = 0#16 := rfl
@[simp] theorem enc_reset_mv : Enc.reset.mv = false := rfl
@[simp] theorem enc_reset_ended : Enc.reset.ended = false := rfl
@[simp] theorem enc_reset_table : Enc.reset.table = [] := rfl
@[simp] theorem dec_reset_next : Dec.reset.next = 256#16 := rfl
@[simp] theorem dec_reset_prev : Dec.reset.prev = 0#16 := rfl
@[simp] theorem dec_reset_pv : Dec.reset.pv = false := rfl
@[simp] theorem dec_reset_half : Dec.reset.half = false := rfl
@[simp] theorem dec_reset_byte0 : Dec.reset.byte0 = 0#8 := rfl
@[simp] theorem dec_reset_table : Dec.reset.table = [] := rfl

/-- The Encoder after ENC_INIT is the Encoder at reset (70_reset_and_hazards.md R93). -/
theorem encInitial_eq_reset : encInitial = Enc.reset := rfl

/-- The Decoder after DEC_INIT is the Decoder at reset (70_reset_and_hazards.md R93). -/
theorem decInitial_eq_reset : decInitial = Dec.reset := rfl

end Sys2Proof.Machine
end

