-- ==== Sys2Proof/Laws/Store.lean ====
section
/-! SUPPORT. The internal memories: a read after a write, the canonical form, and the entries of a table that meets its
invariant. -/

namespace Sys2Proof.Machine

variable {w : Nat} {α : Type}

@[simp] theorem readStore_nil (k : BitVec w) : readStore ([] : Store w α) k = none := rfl

theorem readStore_cons (k' : BitVec w) (v : α) (t : Store w α) (k : BitVec w) :
    readStore ((k', v) :: t) k = if k' = k then some v else readStore t k := rfl

/-- An entry that reads is listed. -/
theorem mem_of_readStore {t : Store w α} {k : BitVec w} {v : α} (h : readStore t k = some v) : (k, v) ∈ t := by
  induction t with
  | nil => simp at h
  | cons p t ih =>
    obtain ⟨k', v'⟩ := p
    rw [readStore_cons] at h
    split at h
    · next hk => simp_all
    · exact List.mem_cons_of_mem _ (ih h)

/-- In canonical form a listed entry reads as it is listed. -/
theorem readStore_of_mem {t : Store w α} (hwf : t.wf) {k : BitVec w} {v : α} (h : (k, v) ∈ t) :
    readStore t k = some v := by
  induction t with
  | nil => simp at h
  | cons p t ih =>
    obtain ⟨k', v'⟩ := p
    rw [Store.wf, List.pairwise_cons] at hwf
    rw [readStore_cons]
    rcases List.mem_cons.mp h with h | h
    · simp_all
    · have hlt := hwf.1 _ h
      have hne : k' ≠ k := by rintro rfl; simp at hlt
      rw [if_neg hne, ih hwf.2 h]

theorem readStore_iff_mem {t : Store w α} (hwf : t.wf) {k : BitVec w} {v : α} :
    readStore t k = some v ↔ (k, v) ∈ t := ⟨mem_of_readStore, readStore_of_mem hwf⟩

@[simp] theorem readStore_writeStore_same (t : Store w α) (k : BitVec w) (v : α) :
    readStore (writeStore t k v) k = some v := by
  induction t with
  | nil => simp [writeStore, readStore]
  | cons p t ih =>
    obtain ⟨k', v'⟩ := p
    simp only [writeStore]
    split
    · simp [readStore]
    · split
      · simp [readStore]
      · next h => rw [readStore_cons, if_neg (Ne.symm h), ih]

theorem readStore_writeStore_other (t : Store w α) (k : BitVec w) (v : α) (j : BitVec w) (h : j ≠ k) :
    readStore (writeStore t k v) j = readStore t j := by
  induction t with
  | nil => simp [writeStore, readStore, Ne.symm h]
  | cons p t ih =>
    obtain ⟨k', v'⟩ := p
    simp only [writeStore]
    split
    · rw [readStore_cons k, if_neg (Ne.symm h)]
    · split
      · next hk => subst hk; rw [readStore_cons, readStore_cons, if_neg (Ne.symm h), if_neg (Ne.symm h)]
      · rw [readStore_cons, readStore_cons, ih]

/-- The indexes of a memory after a write: the old ones and the one written. -/
theorem mem_writeStore_index {t : Store w α} {k : BitVec w} {v : α} {p : BitVec w × α} (h : p ∈ writeStore t k v) :
    p = (k, v) ∨ p ∈ t := by
  induction t with
  | nil => simpa [writeStore] using h
  | cons q t ih =>
    obtain ⟨k', v'⟩ := q
    simp only [writeStore] at h
    split at h
    · rcases List.mem_cons.mp h with h | h
      · exact .inl h
      · exact .inr h
    · split at h
      · rcases List.mem_cons.mp h with h | h
        · exact .inl h
        · exact .inr (List.mem_cons_of_mem _ h)
      · rcases List.mem_cons.mp h with h | h
        · exact .inr (h ▸ List.mem_cons_self)
        · exact (ih h).imp id (List.mem_cons_of_mem _)

/-- A write keeps the canonical form. -/
theorem writeStore_wf {t : Store w α} (hwf : t.wf) (k : BitVec w) (v : α) : Store.wf (writeStore t k v) := by
  induction t with
  | nil => simp [writeStore, Store.wf]
  | cons p t ih =>
    obtain ⟨k', v'⟩ := p
    rw [Store.wf, List.pairwise_cons] at hwf
    simp only [writeStore]
    split
    · next hlt =>
      rw [Store.wf, List.pairwise_cons, List.pairwise_cons]
      refine ⟨?_, hwf⟩
      intro a ha
      rcases List.mem_cons.mp ha with ha | ha
      · simpa [ha] using hlt
      · have := hwf.1 _ ha
        simp only at this ⊢
        bv_omega
    · next hge =>
      split
      · next heq =>
        subst heq
        rw [Store.wf, List.pairwise_cons]
        exact hwf
      · next hne =>
        rw [Store.wf, List.pairwise_cons]
        refine ⟨?_, ih hwf.2⟩
        intro a ha
        rcases mem_writeStore_index ha with ha | ha
        · subst ha
          simp only
          bv_omega
        · exact hwf.1 _ ha

/-- A write above every index goes to the end. -/
theorem writeStore_append {t : Store w α} {k : BitVec w} (v : α) (h : ∀ p ∈ t, p.1 < k) :
    writeStore t k v = t ++ [(k, v)] := by
  induction t with
  | nil => rfl
  | cons p t ih =>
    obtain ⟨k', v'⟩ := p
    have hk : k' < k := h _ List.mem_cons_self
    simp only [writeStore, List.cons_append]
    rw [if_neg (by bv_omega), if_neg (by bv_omega), ih (fun p hp => h p (List.mem_cons_of_mem _ hp))]

/-! ### LEFT -/

/-- A read of LEFT ends well exactly where the current row has written the entry. -/
theorem readLeft_ok {m : Nat} {left : Store 24 Byte} {leftRow : Store 24 Unit} {c : Dim} {l : Byte} :
    readLeft m left leftRow c = .ok l ↔
      c.toNat < m ∧ readStore leftRow c = some () ∧ readStore left c = some l := by
  unfold readLeft
  split
  · next h => cases hw : readStore leftRow c <;> cases hr : readStore left c <;> simp [h]
  · next h => simp [h]

/-- A read of LEFT that does not end well faults. -/
theorem readLeft_error {m : Nat} {left : Store 24 Byte} {leftRow : Store 24 Unit} {c : Dim} {r : Stop}
    (h : readLeft m left leftRow c = .error r) : ∃ f, r = .fault f := by
  unfold readLeft at h
  split at h
  · split at h
    · cases h
    · exact ⟨_, (Except.error.inj h).symm⟩
  · exact ⟨_, (Except.error.inj h).symm⟩

theorem writeLeft_ok {m : Nat} {left : Store 24 Byte} {c : Dim} {v : Byte} {t : Store 24 Byte} :
    writeLeft m left c v = .ok t ↔ c.toNat < m ∧ t = writeStore left c v := by
  unfold writeLeft
  split
  · next h => simp [h, eq_comm]
  · next h => simp [h]

/-! ### Tables -/

/-- A table that meets its invariant is canonical. -/
theorem TableInv.wf {next : Code} {t : Store 16 Entry} (h : TableInv next t) : t.wf := by
  have hp : (t.map (fun p => p.1.toNat)).Pairwise (· < ·) := by
    rw [h.2.1]; exact List.pairwise_lt_range'
  rw [List.pairwise_map] at hp
  exact hp.imp (fun hab => by simpa [BitVec.lt_def] using hab)

/-- Exactly the codes 256..NEXT-1 are listed. -/
theorem TableInv.index {next : Code} {t : Store 16 Entry} (h : TableInv next t) {p : Code × Entry} (hp : p ∈ t) :
    256 ≤ p.1.toNat ∧ p.1.toNat < next.toNat := by
  have hm : p.1.toNat ∈ t.map (fun p => p.1.toNat) := List.mem_map.mpr ⟨p, hp, rfl⟩
  rw [h.2.1, List.mem_range'_1] at hm
  have := h.1
  omega

/-- Every code 256..NEXT-1 has an entry (R23, R27). -/
theorem TableInv.entry {next : Code} {t : Store 16 Entry} (h : TableInv next t) {k : Code} (h1 : 256 ≤ k.toNat)
    (h2 : k.toNat < next.toNat) : ∃ e, readStore t k = some e ∧ e.pre.toNat < k.toNat := by
  have hm : k.toNat ∈ t.map (fun p => p.1.toNat) := by
    rw [h.2.1, List.mem_range'_1]
    have := h.1
    omega
  obtain ⟨p, hp, hk⟩ := List.mem_map.mp hm
  have hk' : p.1 = k := BitVec.eq_of_toNat_eq hk
  refine ⟨p.2, readStore_of_mem h.wf (hk' ▸ hp), ?_⟩
  have := h.2.2 _ hp
  omega

/-- An entry that reads has a code 256..NEXT-1 and a prefix below it. -/
theorem TableInv.of_read {next : Code} {t : Store 16 Entry} (h : TableInv next t) {k : Code} {e : Entry}
    (hr : readStore t k = some e) : 256 ≤ k.toNat ∧ k.toNat < next.toNat ∧ e.pre.toNat < k.toNat := by
  have hm := mem_of_readStore hr
  have h1 := h.index hm
  exact ⟨h1.1, h1.2, h.2.2 _ hm⟩

/-- The table with nothing specified. -/
theorem tableInv_empty : TableInv 256#16 [] := by decide

/-- An insertion keeps the invariant, if the prefix is a key. -/
theorem TableInv.write {next : Code} {t : Store 16 Entry} (h : TableInv next t) (hroom : next.toNat < 65535) {e : Entry}
    (he : e.pre.toNat < next.toNat) : TableInv (next + 1#16) (writeStore t next e) := by
  have hlt : ∀ p ∈ t, p.1 < next := fun p hp => by
    have := (h.index hp).2
    simpa [BitVec.lt_def] using this
  have hn : (next + 1#16).toNat = next.toNat + 1 := by bv_omega
  have h1 := h.1
  rw [writeStore_append e hlt]
  refine ⟨by omega, ?_, ?_⟩
  · rw [List.map_append, h.2.1, hn, show next.toNat + 1 - 256 = (next.toNat - 256) + 1 by omega, List.range'_1_concat]
    simp
    omega
  · intro p hp
    rcases List.mem_append.mp hp with hp | hp
    · exact h.2.2 _ hp
    · simp only [List.mem_singleton] at hp
      subst hp
      exact he

/-- Two canonical memories that read alike are equal. -/
theorem store_ext {w : Nat} {α : Type} {a b : Store w α} (ha : a.wf) (hb : b.wf)
    (h : ∀ k, readStore a k = readStore b k) : a = b := by
  have hne : ∀ x y : BitVec w × α, x.1 < y.1 → x ≠ y := by
    rintro x y hlt rfl
    exact absurd hlt (by simp)
  have hp : a.Perm b := by
    rw [List.perm_ext_iff_of_nodup (ha.imp (hne _ _)) (hb.imp (hne _ _))]
    rintro ⟨k, v⟩
    rw [← readStore_iff_mem ha, ← readStore_iff_mem hb, h k]
  refine hp.eq_of_pairwise (le := fun x y => x.1 < y.1) (fun x y _ _ h1 h2 => ?_) ha hb
  have h1 := BitVec.lt_def.mp h1
  have h2 := BitVec.lt_def.mp h2
  omega

/-- There is no entry outside 256..NEXT-1. -/
theorem TableInv.unlisted {next : Code} {t : Store 16 Entry} (h : TableInv next t) {k : Code}
    (hk : k.toNat < 256 ∨ next.toNat ≤ k.toNat) : readStore t k = none := by
  cases hr : readStore t k with
  | none => rfl
  | some e =>
    have := h.of_read hr
    omega

end Sys2Proof.Machine
end

