-- ==== Sys2Proof/Laws/Dictionary.lean ====
section
/-! SUPPORT. The dictionary the two units hold: the strings of codes (10_state.md R24, R25, R28), Lookup (42_encoder.md
R69) and insertion (R68, 43_decoder.md R74). -/

namespace Sys2Proof.Machine

variable {next : Code} {t : Store 16 Entry}

/-! ### Strings -/

@[simp] theorem snoc_symbols (a : SymString) (s : Byte) : (a.snoc s).symbols = a.symbols ++ [s] := by
  simp [SymString.snoc, SymString.symbols]

@[simp] theorem snoc_first (a : SymString) (s : Byte) : (a.snoc s).first = a.first := rfl

theorem lowByte_toNat (k : Code) : (lowByte k).toNat = k.toNat % 256 := by
  simp [lowByte]

theorem symbols_injective {a b : SymString} (h : a.symbols = b.symbols) : a = b := by
  obtain ⟨a1, a2⟩ := a
  obtain ⟨b1, b2⟩ := b
  simpa [SymString.symbols] using h

/-- The string of a seed code is its one symbol (R24). -/
theorem stringByLinks_seed (fuel : Nat) {k : Code} (h : k.toNat < 256) :
    stringByLinks next t fuel k = some ⟨lowByte k, []⟩ := by
  cases fuel <;> simp [stringByLinks, h]

theorem dictString_seed {k : Code} (h : k.toNat < 256) : dictString next t k = some ⟨lowByte k, []⟩ :=
  stringByLinks_seed _ h

/-- With a link for each code below `k`, the number of links left over does not matter. -/
theorem stringByLinks_enough (h : TableInv next t) :
    ∀ (fuel : Nat) (k : Code), k.toNat ≤ fuel → stringByLinks next t fuel k = dictString next t k := by
  intro fuel
  induction fuel using Nat.strongRecOn with
  | _ fuel ih =>
    intro k hk
    by_cases hs : k.toNat < 256
    · rw [stringByLinks_seed _ hs, dictString_seed hs]
    · obtain ⟨f, rfl⟩ : ∃ f, fuel = f + 1 := ⟨fuel - 1, by omega⟩
      obtain ⟨j, hj⟩ : ∃ j, k.toNat = j + 1 := ⟨k.toNat - 1, by omega⟩
      rw [dictString, hj]
      simp only [stringByLinks, hs, if_false]
      split
      · next hn =>
        obtain ⟨e, he, hpre⟩ := h.entry (by omega) hn
        rw [he]
        simp only
        rw [ih f (by omega) e.pre (by omega), ih j (by omega) e.pre (by omega)]
      · rfl

/-- The string of a later code is its prefix's string with its symbol (R24, R28). -/
theorem dictString_entry (h : TableInv next t) {k : Code} {e : Entry} (hr : readStore t k = some e) :
    dictString next t k = (dictString next t e.pre).map (fun a => a.snoc e.sym) := by
  obtain ⟨h1, h2, h3⟩ := h.of_read hr
  obtain ⟨j, hj⟩ : ∃ j, k.toNat = j + 1 := ⟨k.toNat - 1, by omega⟩
  conv_lhs => rw [dictString, hj]
  simp only [stringByLinks]
  rw [if_neg (by omega), if_pos h2, hr]
  simp only
  rw [stringByLinks_enough h j e.pre (by omega)]
  cases dictString next t e.pre <;> rfl

/-- Every code below NEXT has a string, of at least one symbol and of at least two if it is no seed; its length is
bounded by its code (R25, R28). -/
theorem dictString_defined (h : TableInv next t) : ∀ (n : Nat) (k : Code), k.toNat = n → k.toNat < next.toNat →
    ∃ a, dictString next t k = some a ∧
      (256 ≤ n → 2 ≤ a.symbols.length ∧ a.symbols.length + 254 ≤ n) ∧ (n < 256 → a.symbols.length = 1) := by
  intro n
  induction n using Nat.strongRecOn with
  | _ n ih =>
    intro k hk hlt
    by_cases hs : k.toNat < 256
    · exact ⟨_, dictString_seed hs, by omega, by simp [SymString.symbols]⟩
    · obtain ⟨e, he, hpre⟩ := h.entry (by omega) hlt
      obtain ⟨a, ha, hlen, hone⟩ := ih e.pre.toNat (by omega) e.pre rfl (by omega)
      refine ⟨a.snoc e.sym, by rw [dictString_entry h he, ha]; rfl, ?_, by omega⟩
      intro _
      rw [snoc_symbols, List.length_append, List.length_singleton]
      by_cases hp : e.pre.toNat < 256
      · have := hone hp; omega
      · have := hlen (by omega); omega

theorem exists_dictString (h : TableInv next t) {k : Code} (hlt : k.toNat < next.toNat) :
    ∃ a, dictString next t k = some a := by
  obtain ⟨a, ha, -⟩ := dictString_defined h _ k rfl hlt
  exact ⟨a, ha⟩

/-- No two codes stand for one string, if no pair stands for two codes (R25). -/
theorem dictString_injective (h : TableInv next t) (hnd : (t.map (fun p => p.2)).Nodup) :
    ∀ (n : Nat) (j k : Code) (a : SymString), a.symbols.length = n → dictString next t j = some a →
      dictString next t k = some a → j.toNat < next.toNat → k.toNat < next.toNat → j = k := by
  have hinj : ∀ {j k : Code} {e : Entry}, readStore t j = some e → readStore t k = some e → j = k := by
    intro j k e hj hk
    have := (List.inj_on_of_nodup_map hnd) (mem_of_readStore hj) (mem_of_readStore hk) rfl
    exact congrArg Prod.fst this
  intro n
  induction n using Nat.strongRecOn with
  | _ n ih =>
    intro j k a hn hj hk hjn hkn
    obtain ⟨a1, ha1, hj2, hj1⟩ := dictString_defined h _ j rfl hjn
    obtain ⟨a2, ha2, hk2, hk1⟩ := dictString_defined h _ k rfl hkn
    rw [ha1] at hj; rw [ha2] at hk
    cases hj; cases hk
    by_cases hjs : j.toNat < 256
    · have hl := hj1 hjs
      have hks : k.toNat < 256 := by
        by_contra hc
        have := hk2 (by omega)
        omega
      rw [dictString_seed hjs] at ha1
      rw [dictString_seed hks] at ha2
      have heq := ha1.trans ha2.symm
      simp only [Option.some.injEq, SymString.mk.injEq, and_true] at heq
      have hn := congrArg BitVec.toNat heq
      rw [lowByte_toNat, lowByte_toNat] at hn
      exact BitVec.eq_of_toNat_eq (by omega)
    · have hl := hj2 (by omega)
      have hks : ¬ k.toNat < 256 := by
        intro hc
        have := hk1 hc
        omega
      obtain ⟨e, he, hpe⟩ := h.entry (by omega) hjn
      obtain ⟨f, hf, hpf⟩ := h.entry (k := k) (by omega) hkn
      obtain ⟨b, hb⟩ := exists_dictString h (k := e.pre) (by omega)
      obtain ⟨c, hc⟩ := exists_dictString h (k := f.pre) (by omega)
      rw [dictString_entry h he, hb] at ha1
      rw [dictString_entry h hf, hc] at ha2
      have heq := ha1.trans ha2.symm
      simp only [Option.map_some, Option.some.injEq] at heq ha1
      have hs := congrArg SymString.symbols heq
      rw [snoc_symbols, snoc_symbols] at hs
      have hs' := List.append_inj' hs rfl
      have hbc := symbols_injective hs'.1
      have hsym : e.sym = f.sym := by simpa using hs'.2
      subst hbc
      have hlen : a.symbols.length = b.symbols.length + 1 := by rw [← ha1]; simp
      have hpre := ih b.symbols.length (by omega) e.pre f.pre b rfl hb hc (by omega) (by omega)
      have hef : e = f := by
        cases e; cases f; simp_all
      subst hef
      exact hinj he hf

/-- Writing entry NEXT leaves the string of every key. -/
theorem dictString_write (h : TableInv next t) (hroom : next.toNat < 65535) {e : Entry}
    (he : e.pre.toNat < next.toNat) : ∀ (n : Nat) (k : Code), k.toNat = n → k.toNat < next.toNat →
    dictString (next + 1#16) (writeStore t next e) k = dictString next t k := by
  have h' := h.write hroom he
  intro n
  induction n using Nat.strongRecOn with
  | _ n ih =>
    intro k hk hlt
    by_cases hs : k.toNat < 256
    · rw [dictString_seed hs, dictString_seed hs]
    · obtain ⟨f, hf, hpf⟩ := h.entry (by omega) hlt
      have hne : k ≠ next := by rintro rfl; omega
      have hf' : readStore (writeStore t next e) k = some f := by
        rw [readStore_writeStore_other _ _ _ _ hne, hf]
      rw [dictString_entry h hf, dictString_entry h' hf', ih f.pre.toNat (by omega) f.pre rfl (by omega)]

/-- Two tables with the same entries below NEXT of the first give the same strings there. -/
theorem dictString_agree {n1 n2 : Code} {t1 t2 : Store 16 Entry} (h1 : TableInv n1 t1) (h2 : TableInv n2 t2)
    (hr : ∀ k : Code, k.toNat < n1.toNat → readStore t1 k = readStore t2 k) :
    ∀ (n : Nat) (k : Code), k.toNat = n → k.toNat < n1.toNat → dictString n1 t1 k = dictString n2 t2 k := by
  intro n
  induction n using Nat.strongRecOn with
  | _ n ih =>
    intro k hk hlt
    by_cases hs : k.toNat < 256
    · rw [dictString_seed hs, dictString_seed hs]
    · obtain ⟨f, hf, hpf⟩ := h1.entry (by omega) hlt
      rw [dictString_entry h1 hf, dictString_entry h2 ((hr k hlt).symm.trans hf),
        ih f.pre.toNat (by omega) f.pre rfl (by omega)]

/-! ### Lookup (R69) -/

/-- What Lookup finds is an entry below NEXT with the pair. -/
theorem lookupEntry_some {m : Code} {s : Byte} (h : TableInv next t) {k : Code} (hk : lookupEntry next t m s = some k) :
    256 ≤ k.toNat ∧ k.toNat < next.toNat ∧ readStore t k = some ⟨m, s⟩ := by
  unfold lookupEntry at hk
  split at hk
  · next p hp =>
    have hmem := List.mem_of_find?_eq_some hp
    have hprop := List.find?_some hp
    simp only [Bool.and_eq_true, decide_eq_true_eq, beq_iff_eq] at hprop
    cases hk
    obtain ⟨p1, p2⟩ := p
    simp only at hprop hmem ⊢
    obtain ⟨⟨h1, h2⟩, rfl⟩ := hprop
    exact ⟨h1, h2, readStore_of_mem h.wf hmem⟩
  · cases hk

/-- Where Lookup finds nothing, no entry has the pair. -/
theorem lookupEntry_none {m : Code} {s : Byte} (h : TableInv next t) (hk : lookupEntry next t m s = none) (k : Code) :
    readStore t k ≠ some ⟨m, s⟩ := by
  intro hr
  obtain ⟨h1, h2, -⟩ := h.of_read hr
  unfold lookupEntry at hk
  split at hk
  · cases hk
  · next hp =>
    have := List.find?_eq_none.mp hp _ (mem_of_readStore hr)
    simp [h1, h2] at this

/-- Lookup is exact (R69): it returns the one code whose entry is the pair. -/
theorem lookupEntry_iff (h : TableInv next t) (hnd : (t.map (fun p => p.2)).Nodup) {m : Code} {s : Byte} {k : Code} :
    lookupEntry next t m s = some k ↔ readStore t k = some ⟨m, s⟩ := by
  refine ⟨fun hk => (lookupEntry_some h hk).2.2, fun hr => ?_⟩
  cases hl : lookupEntry next t m s with
  | none => exact absurd hr (lookupEntry_none h hl k)
  | some j =>
    have hj := (lookupEntry_some h hl).2.2
    have := (List.inj_on_of_nodup_map hnd) (mem_of_readStore hj) (mem_of_readStore hr) rfl
    exact congrArg some (congrArg Prod.fst this)

/-! ### Insertion (R68, R74) -/

/-- Everything an insertion can do. -/
theorem insertEntry_cases {e : Entry} {r : Code × Store 16 Entry} (h : insertEntry next t e = .ok r) :
    (next.toNat < 65535 ∧ 256 ≤ next.toNat ∧ r = (next + 1#16, writeStore t next e)) ∨
    (65535 ≤ next.toNat ∧ r = (next, t)) := by
  unfold insertEntry at h
  split at h
  · next h1 =>
    split at h
    · next h2 => exact .inl ⟨h1, h2, by simpa using h.symm⟩
    · cases h
  · next h1 => exact .inr ⟨by omega, by simpa using h.symm⟩

/-- With `256 <= NEXT` an insertion ends well. -/
theorem insertEntry_ok (h : 256 ≤ next.toNat) (e : Entry) :
    insertEntry next t e =
      .ok (if next.toNat < 65535 then (next + 1#16, writeStore t next e) else (next, t)) := by
  by_cases hroom : next.toNat < 65535 <;> simp [insertEntry, hroom, h]

/-- An insertion keeps the table's invariant. -/
theorem TableInv.insert {e : Entry} {r : Code × Store 16 Entry} (h : TableInv next t) (he : e.pre.toNat < next.toNat)
    (hr : insertEntry next t e = .ok r) : TableInv r.1 r.2 := by
  rcases insertEntry_cases hr with ⟨h1, -, rfl⟩ | ⟨-, rfl⟩
  · exact h.write h1 he
  · exact h

end Sys2Proof.Machine
end

