-- ==== Sys2Proof/Laws/Units.lean ====
section
/-! SUPPORT. What each unit's step can do, said once: EncStep (42_encoder.md R68), DecStep (43_decoder.md R74), and the
sample step of the Differencer (41_differencer.md R64), with the invariant each keeps. -/

namespace Sys2Proof.Machine

/-! ### The Encoder -/

/-- Everything EncStep can do: start a match, extend it, or emit it and start another. -/
theorem encStep_cases {sym : Byte} {e e' : Enc} {out : List Code} (h : encStep sym e = .ok (e', out)) :
    (e.mv = false ∧ e' = { e with matchCode := seedCode sym, mv := true } ∧ out = []) ∨
    (e.mv = true ∧ ∃ k, lookupEntry e.next e.table e.matchCode sym = some k ∧
      e' = { e with matchCode := k } ∧ out = []) ∨
    (e.mv = true ∧ lookupEntry e.next e.table e.matchCode sym = none ∧
      ∃ r, insertEntry e.next e.table ⟨e.matchCode, sym⟩ = .ok r ∧
        e' = { e with next := r.1, table := r.2, matchCode := seedCode sym } ∧ out = [e.matchCode]) := by
  unfold encStep at h
  split at h
  · next hmv =>
    simp only [Except.ok.injEq, Prod.mk.injEq] at h
    exact .inl ⟨hmv, h.1.symm, h.2.symm⟩
  · next hmv =>
    have hmv : e.mv = true := by simpa using hmv
    split at h
    · next k hk =>
      simp only [Except.ok.injEq, Prod.mk.injEq] at h
      exact .inr (.inl ⟨hmv, k, hk, h.1.symm, h.2.symm⟩)
    · next hk =>
      split at h
      · next nx tb hi =>
        simp only [Except.ok.injEq, Prod.mk.injEq] at h
        exact .inr (.inr ⟨hmv, hk, _, hi, h.1.symm, h.2.symm⟩)
      · cases h

/-- With `256 <= ENC.NEXT` EncStep ends well: it "raises nothing" (R68). -/
theorem encStep_ok (sym : Byte) {e : Enc} (h : 256 ≤ e.next.toNat) : ∃ r, encStep sym e = .ok r := by
  unfold encStep
  split
  · exact ⟨_, rfl⟩
  · split
    · exact ⟨_, rfl⟩
    · rw [insertEntry_ok h]
      exact ⟨_, rfl⟩

theorem seedCode_toNat (s : Byte) : (seedCode s).toNat = s.toNat := by
  simp [seedCode]
  omega

/-- EncStep keeps the Encoder's invariant and emits only keys. -/
theorem encStep_inv {sym : Byte} {e e' : Enc} {out : List Code} (hi : e.Inv) (h : encStep sym e = .ok (e', out)) :
    e'.Inv ∧ e'.mv = true ∧ e'.ended = e.ended ∧ ∀ c ∈ out, c.toNat < e.next.toNat := by
  obtain ⟨ht, hnd, hmv, -⟩ := hi
  have hs := seedCode_toNat sym
  have h256 := ht.1
  rcases encStep_cases h with ⟨-, rfl, rfl⟩ | ⟨hm, k, hk, rfl, rfl⟩ | ⟨hm, hk, r, hr, rfl, rfl⟩
  · exact ⟨⟨ht, hnd, fun _ => by show (seedCode sym).toNat < e.next.toNat; omega, by simp⟩, rfl, rfl, by simp⟩
  · have hl := lookupEntry_some ht hk
    exact ⟨⟨ht, hnd, fun _ => hl.2.1, by simp [hm]⟩, hm, rfl, by simp⟩
  · have ht' := ht.insert (hmv hm) hr
    have h256' := ht'.1
    refine ⟨⟨ht', ?_, fun _ => by show (seedCode sym).toNat < r.1.toNat; omega, by simp [hm]⟩, hm, rfl, ?_⟩
    · rcases insertEntry_cases hr with ⟨h1, -, rfl⟩ | ⟨-, rfl⟩
      · have hlt : ∀ p ∈ e.table, p.1 < e.next := fun p hp => by
          have := (ht.index hp).2
          simpa [BitVec.lt_def] using this
        show ((writeStore e.table e.next _).map _).Nodup
        rw [writeStore_append _ hlt, List.map_append]
        refine List.nodup_append.mpr ⟨hnd, by simp, ?_⟩
        intro a ha b hb
        simp only [List.map_cons, List.map_nil, List.mem_singleton] at hb
        subst hb
        rintro rfl
        obtain ⟨p, hp, hpe⟩ := List.mem_map.mp ha
        obtain ⟨p1, p2⟩ := p
        simp only at hpe
        subst hpe
        exact lookupEntry_none ht hk p1 (readStore_of_mem ht.wf hp)
      · exact hnd
    · intro c hc
      simp only [List.mem_singleton] at hc
      subst hc
      exact hmv hm

/-- EncStep leaves ENDED and every entry but NEXT's. -/
theorem encStep_frame {sym : Byte} {e e' : Enc} {out : List Code} (h : encStep sym e = .ok (e', out)) :
    e'.ended = e.ended ∧ ∀ k, k ≠ e.next → readStore e'.table k = readStore e.table k := by
  rcases encStep_cases h with ⟨-, rfl, -⟩ | ⟨-, k, -, rfl, -⟩ | ⟨-, -, r, hr, rfl, -⟩
  · exact ⟨rfl, fun _ _ => rfl⟩
  · exact ⟨rfl, fun _ _ => rfl⟩
  · rcases insertEntry_cases hr with ⟨-, -, rfl⟩ | ⟨-, rfl⟩
    · exact ⟨rfl, fun k hk => readStore_writeStore_other _ _ _ _ hk⟩
    · exact ⟨rfl, fun _ _ => rfl⟩

/-! ### The Decoder -/

/-- The string of a key is read without a fault (10_state.md R28, R34). -/
theorem decString_ok {d : Dec} (h : TableInv d.next d.table) {k : Code} (hk : k.toNat < d.next.toNat) :
    ∃ a, decString d k = .ok a ∧ dictString d.next d.table k = some a := by
  obtain ⟨a, ha⟩ := exists_dictString h hk
  exact ⟨a, by simp [decString, ha], ha⟩

theorem decString_eq_ok {d : Dec} {k : Code} {a : SymString} :
    decString d k = .ok a ↔ dictString d.next d.table k = some a := by
  unfold decString
  cases dictString d.next d.table k <;> simp

/-- Everything the choice of `cur` can be (R74, steps 2 and 3). -/
theorem currentString_cases {d : Dec} {k : Code} {a : SymString} (h : currentString d k = .ok a) :
    (k.toNat < d.next.toNat ∧ dictString d.next d.table k = some a) ∨
    (k = d.next ∧ d.next.toNat < 65535 ∧
      ∃ p, dictString d.next d.table d.prev = some p ∧ a = p.snoc p.first) := by
  unfold currentString at h
  split at h
  · next hk => exact .inl ⟨hk, decString_eq_ok.mp h⟩
  · split at h
    · next hk =>
      split at h
      · next p hp =>
        exact .inr ⟨hk.1, hk.2, p, decString_eq_ok.mp hp, by simpa using h.symm⟩
      · cases h
    · cases h

/-- Everything DecStep can do when it ends well: take the first code, or a code that resolves. -/
theorem decStep_cases {k : Code} {d d' : Dec} {out : List Byte} (h : decStep k d = .ok (d', out)) :
    (d.pv = false ∧ k.toNat < 256 ∧ d' = { d with prev := k, pv := true } ∧ out = [lowByte k]) ∨
    (d.pv = true ∧ ∃ cur r, currentString d k = .ok cur ∧
      insertEntry d.next d.table ⟨d.prev, cur.first⟩ = .ok r ∧
      d' = { d with next := r.1, table := r.2, prev := k } ∧ out = cur.symbols) := by
  unfold decStep at h
  split at h
  · next hpv =>
    split at h
    · cases h
    · next hk =>
      simp only [Except.ok.injEq, Prod.mk.injEq] at h
      exact .inl ⟨hpv, by omega, h.1.symm, h.2.symm⟩
  · next hpv =>
    have hpv : d.pv = true := by simpa using hpv
    split at h
    · cases h
    · next cur hc =>
      split at h
      · next nx tb hi =>
        simp only [Except.ok.injEq, Prod.mk.injEq] at h
        exact .inr ⟨hpv, cur, _, hc, hi, h.1.symm, h.2.symm⟩
      · cases h

/-- When DecStep raises CORRUPT_CODE (R74): a first code that is no seed, or a code that is neither a key nor the next
code that would be assigned. -/
theorem decStep_error {k : Code} {d : Dec} {e : Stop} (hi : d.Inv) (h : decStep k d = .error e) :
    e = .raise .corruptCode ∧
    ((d.pv = false ∧ 256 ≤ k.toNat) ∨
      (d.pv = true ∧ d.next.toNat ≤ k.toNat ∧ ¬ (k = d.next ∧ d.next.toNat < 65535))) := by
  obtain ⟨ht, hp, -, -⟩ := hi
  unfold decStep at h
  split at h
  · next hpv =>
    split at h
    · next hk => exact ⟨by simpa using h.symm, .inl ⟨hpv, hk⟩⟩
    · cases h
  · next hpv =>
    have hpv : d.pv = true := by simpa using hpv
    split at h
    · next r hc =>
      unfold currentString at hc
      split at hc
      · next hk =>
        obtain ⟨a, ha, -⟩ := decString_ok ht hk
        rw [ha] at hc; cases hc
      · next hk =>
        split at hc
        · obtain ⟨a, ha, -⟩ := decString_ok ht (hp hpv)
          rw [ha] at hc; cases hc
        · next hk2 => exact ⟨by simp_all, .inr ⟨hpv, by omega, hk2⟩⟩
    · rw [insertEntry_ok ht.1] at h
      cases h

/-- DecStep keeps the Decoder's invariant and does not touch the pending byte. -/
theorem decStep_inv {k : Code} {d d' : Dec} {out : List Byte} (hi : d.Inv) (h : decStep k d = .ok (d', out)) :
    d'.Inv ∧ d'.pv = true ∧ d'.half = d.half ∧ d'.byte0 = d.byte0 := by
  obtain ⟨ht, hp, hnp, hh⟩ := hi
  have h256 := ht.1
  rcases decStep_cases h with ⟨hpv, hk, rfl, rfl⟩ | ⟨hpv, cur, r, hc, hr, rfl, rfl⟩
  · exact ⟨⟨ht, fun _ => by show k.toNat < d.next.toNat; omega, by simp, hh⟩, rfl, rfl, rfl⟩
  · have ht' := ht.insert (e := ⟨d.prev, cur.first⟩) (hp hpv) hr
    refine ⟨⟨ht', fun _ => ?_, by simp [hpv], hh⟩, hpv, rfl, rfl⟩
    show k.toNat < r.1.toNat
    rcases insertEntry_cases hr with ⟨h1, -, rfl⟩ | ⟨h1, rfl⟩
    · show k.toNat < (d.next + 1#16).toNat
      rcases currentString_cases hc with ⟨hk, -⟩ | ⟨rfl, -⟩ <;> bv_omega
    · rcases currentString_cases hc with ⟨hk, -⟩ | ⟨rfl, hlt, -⟩
      · exact hk
      · omega

/-- DecStep leaves the pending byte and every entry but NEXT's. -/
theorem decStep_frame {k : Code} {d d' : Dec} {out : List Byte} (h : decStep k d = .ok (d', out)) :
    d'.half = d.half ∧ d'.byte0 = d.byte0 ∧ ∀ j, j ≠ d.next → readStore d'.table j = readStore d.table j := by
  rcases decStep_cases h with ⟨-, -, rfl, -⟩ | ⟨-, cur, r, -, hr, rfl, -⟩
  · exact ⟨rfl, rfl, fun _ _ => rfl⟩
  · rcases insertEntry_cases hr with ⟨-, -, rfl⟩ | ⟨-, rfl⟩
    · exact ⟨rfl, rfl, fun j hj => readStore_writeStore_other _ _ _ _ hj⟩
    · exact ⟨rfl, rfl, fun _ _ => rfl⟩

/-- DecStep does not look at the pending byte. -/
theorem decStep_pending (k : Code) (d : Dec) (b : Bool) (b0 : Byte) :
    decStep k { d with half := b, byte0 := b0 } =
      (decStep k d).map (fun r => ({ r.1 with half := b, byte0 := b0 }, r.2)) := by
  have hc : currentString { d with half := b, byte0 := b0 } k = currentString d k := rfl
  unfold decStep
  rw [hc]
  dsimp only
  by_cases h1 : d.pv = false
  · rw [if_pos h1, if_pos h1]
    split <;> rfl
  · rw [if_neg h1, if_neg h1]
    cases currentString d k with
    | error e => rfl
    | ok cur =>
      simp only
      cases insertEntry d.next d.table ⟨d.prev, cur.first⟩ <;> rfl

/-! ### The Differencer -/

/-- The scan stays in the image, or ends with every position 0 (10_state.md R20). -/
theorem advanceScan_cases (d : Dif) :
    (d.c.toNat + 1 < d.chans.toNat ∧ advanceScan d = { d with c := d.c + 1#24 }) ∨
    (d.chans.toNat ≤ d.c.toNat + 1 ∧ d.x.toNat + 1 < d.cols.toNat ∧
      advanceScan d = { d with c := 0#24, x := d.x + 1#24 }) ∨
    (d.chans.toNat ≤ d.c.toNat + 1 ∧ d.cols.toNat ≤ d.x.toNat + 1 ∧ d.y.toNat + 1 < d.rows.toNat ∧
      advanceScan d = { d with c := 0#24, x := 0#24, y := d.y + 1#24, leftRow := [] }) ∨
    (d.chans.toNat ≤ d.c.toNat + 1 ∧ d.cols.toNat ≤ d.x.toNat + 1 ∧ d.rows.toNat ≤ d.y.toNat + 1 ∧
      advanceScan d = { d with c := 0#24, x := 0#24, y := 0#24, state := .done, leftRow := [] }) := by
  unfold advanceScan
  split
  · next h => exact .inl ⟨h, rfl⟩
  · next h =>
    split
    · next h2 => exact .inr (.inl ⟨by omega, h2, rfl⟩)
    · next h2 =>
      split
      · next h3 => exact .inr (.inr (.inl ⟨by omega, by omega, h3, rfl⟩))
      · next h3 => exact .inr (.inr (.inr ⟨by omega, by omega, by omega, rfl⟩))

@[simp] theorem advanceScan_cols (d : Dif) : (advanceScan d).cols = d.cols := by
  rcases advanceScan_cases d with h | h | h | h <;> simp [h]
@[simp] theorem advanceScan_chans (d : Dif) : (advanceScan d).chans = d.chans := by
  rcases advanceScan_cases d with h | h | h | h <;> simp [h]
@[simp] theorem advanceScan_rows (d : Dif) : (advanceScan d).rows = d.rows := by
  rcases advanceScan_cases d with h | h | h | h <;> simp [h]
@[simp] theorem advanceScan_mode (d : Dif) : (advanceScan d).mode = d.mode := by
  rcases advanceScan_cases d with h | h | h | h <;> simp [h]
@[simp] theorem advanceScan_left (d : Dif) : (advanceScan d).left = d.left := by
  rcases advanceScan_cases d with h | h | h | h <;> simp [h]

/-- Everything the write of a sample into LEFT can do. -/
theorem recordSample_ok {v : Byte} {m : Nat} {d e : Dif} :
    recordSample v m d = .ok e ↔ d.c.toNat < m ∧
      e = { d with left := writeStore d.left d.c v
                   leftRow := if d.x = 0#24 then writeStore d.leftRow d.c () else d.leftRow } := by
  constructor
  · intro h
    unfold recordSample at h
    split at h
    · next left hw =>
      obtain ⟨hc, rfl⟩ := writeLeft_ok.mp hw
      exact ⟨hc, (Except.ok.inj h).symm⟩
    · cases h
  · rintro ⟨hc, rfl⟩
    rw [recordSample, writeLeft_ok.mpr ⟨hc, rfl⟩]

/-- A sample that LEFT cannot take faults. -/
theorem recordSample_error {v : Byte} {m : Nat} {d : Dif} {r : Stop} (h : recordSample v m d = .error r) :
    ∃ f, r = .fault f := by
  unfold recordSample writeLeft at h
  by_cases hc : d.c.toNat < m
  · simp [hc] at h
  · exact ⟨_, by simpa [hc] using h.symm⟩

/-- In column 0 the sample's channel becomes the last of the row's written ones. -/
theorem recordSample_leftRow {m : Nat} {d : Dif} (hi : d.Inv m) (hrun : d.state = .run) :
    (if d.x = 0#24 then writeStore d.leftRow d.c () else d.leftRow).map (fun p => p.1.toNat) =
      List.range (if d.x = 0#24 then d.c.toNat + 1 else d.chans.toNat) := by
  have hrow := hi.2.2.2.2.2.2.1 hrun
  by_cases hx : d.x = 0#24
  · rw [if_pos hx] at hrow ⊢
    rw [if_pos hx]
    have hlt : ∀ p ∈ d.leftRow, p.1 < d.c := fun p hp => by
      have : p.1.toNat ∈ d.leftRow.map (fun p => p.1.toNat) := List.mem_map.mpr ⟨p, hp, rfl⟩
      rw [hrow, List.mem_range] at this
      simpa [BitVec.lt_def] using this
    rw [writeStore_append _ hlt, List.map_append, hrow, List.range_succ]
    rfl
  · rw [if_neg hx] at hrow ⊢
    rw [if_neg hx]
    exact hrow

/-- The scan keeps the invariant, once the sample just taken is recorded. -/
theorem advanceScan_inv {m : Nat} {d e : Dif} {v : Byte} (hi : d.Inv m) (hrun : d.state = .run)
    (he : recordSample v m d = .ok e) : (advanceScan e).Inv m := by
  obtain ⟨-, rfl⟩ := recordSample_ok.mp he
  have hrow := recordSample_leftRow hi hrun
  obtain ⟨hch, hin, -, hwf, hdepth, hleft, -, -⟩ := hi
  obtain ⟨hx, hy, hc⟩ := hin hrun
  have hleft := hleft hrun
  have hwf' := writeStore_wf hwf d.c v
  have hdepth' : ∀ j ∈ (writeStore d.left d.c v).map (fun p => p.1.toNat), j < m := by
    rw [List.forall_mem_map]
    intro p hp
    rcases mem_writeStore_index hp with rfl | hp
    · show d.c.toNat < m; omega
    · exact List.forall_mem_map.mp hdepth p hp
  have hcn : BitVec.ofNat 24 d.c.toNat = d.c := by simp
  have hread : ∀ j, j < (if d.x = 0#24 then d.c.toNat + 1 else d.chans.toNat) →
      (readStore (writeStore d.left d.c v) (BitVec.ofNat 24 j)).isSome = true := by
    intro j hj
    by_cases hjc : BitVec.ofNat 24 j = d.c
    · rw [hjc]; simp
    · rw [readStore_writeStore_other _ _ _ _ hjc]
      apply hleft j
      rw [List.mem_range]
      split
      · next h0 =>
        rw [if_pos h0] at hj
        rcases Nat.lt_succ_iff_lt_or_eq.mp hj with h | h
        · exact h
        · exact absurd (by rw [h, hcn]) hjc
      · next h0 => rwa [if_neg h0] at hj
  rcases advanceScan_cases { d with left := writeStore d.left d.c v, leftRow := _ } with
    ⟨h1, h⟩ | ⟨h1, h2, h⟩ | ⟨h1, h2, h3, h⟩ | ⟨h1, h2, h3, h⟩ <;> rw [h] <;> simp only at h1
  · have hn : (d.c + 1#24).toNat = d.c.toNat + 1 := by bv_omega
    refine ⟨hch, fun _ => ⟨hx, hy, by show (d.c + 1#24).toNat < d.chans.toNat; omega⟩, fun hne => absurd hrun hne, hwf', hdepth',
      fun _ j hj => hread j ?_, fun _ => ?_, fun hne => absurd hrun hne⟩
    · rw [List.mem_range] at hj
      simp only [hn] at hj
      exact hj
    · simpa only [hn] using hrow
  · simp only at h2
    have hn : (d.x + 1#24).toNat = d.x.toNat + 1 := by bv_omega
    have hne : d.x + 1#24 ≠ 0#24 := by
      intro h0
      rw [h0] at hn
      simp at hn
    refine ⟨hch, fun _ => ⟨by show (d.x + 1#24).toNat < d.cols.toNat; omega, hy, by show (0#24).toNat < d.chans.toNat; simp; omega⟩,
      fun hne => absurd hrun hne, hwf', hdepth', fun _ j hj => hread j ?_, fun _ => ?_, fun hne => absurd hrun hne⟩
    · rw [List.mem_range] at hj
      simp only [if_neg hne] at hj
      split
      · omega
      · exact hj
    · simp only [if_neg hne]
      rw [hrow]
      congr 1
      split
      · omega
      · rfl
  · simp only at h2 h3
    have hn : (d.y + 1#24).toNat = d.y.toNat + 1 := by bv_omega
    refine ⟨hch, fun _ => ⟨by show (0#24).toNat < d.cols.toNat; simp; omega, by show (d.y + 1#24).toNat < d.rows.toNat; omega,
      by show (0#24).toNat < d.chans.toNat; simp; omega⟩, fun hne => absurd hrun hne, hwf', hdepth', fun _ j hj => ?_, fun _ => rfl,
      fun hne => absurd hrun hne⟩
    simp at hj
  · exact ⟨hch, by simp, by simp, hwf', hdepth', by simp, by simp, fun _ => rfl⟩

/-- In a state of the invariant the entry of LEFT that a sample reads has been written in its row (10_state.md R34). -/
theorem readLeft_of_inv {m : Nat} {d : Dif} (hi : d.Inv m) (hrun : d.state = .run) (hx : d.x ≠ 0#24) :
    ∃ l, readLeft m d.left d.leftRow d.c = .ok l := by
  obtain ⟨hch, hin, -, -, -, hleft, hrow, -⟩ := hi
  obtain ⟨-, -, hc⟩ := hin hrun
  have hs := hleft hrun d.c.toNat (by rw [if_neg hx, List.mem_range]; exact hc)
  have hcn : BitVec.ofNat 24 d.c.toNat = d.c := by simp
  rw [hcn] at hs
  obtain ⟨l, hl⟩ := Option.isSome_iff_exists.mp hs
  have hmem : d.c.toNat ∈ d.leftRow.map (fun p => p.1.toNat) := by
    rw [hrow hrun, if_neg hx, List.mem_range]
    exact hc
  obtain ⟨p, hp, hpc⟩ := List.mem_map.mp hmem
  have hwf : d.leftRow.wf := by
    have h : (d.leftRow.map (fun p => p.1.toNat)).Pairwise (· < ·) := by
      rw [hrow hrun]; exact List.pairwise_lt_range
    rw [List.pairwise_map] at h
    exact h.imp (fun hab => by simpa [BitVec.lt_def] using hab)
  have hrd : readStore d.leftRow d.c = some () := by
    rw [← BitVec.eq_of_toNat_eq hpc]
    exact readStore_of_mem hwf hp
  exact ⟨l, readLeft_ok.mpr ⟨by omega, hrd, hl⟩⟩

/-- In a state of the invariant the symbol of a sample is computed without a fault. -/
theorem sampleSymbol_of_inv {m : Nat} {d : Dif} (hi : d.Inv m) (hrun : d.state = .run) (v : Byte) :
    ∃ sym, sampleSymbol v m d = .ok sym := by
  unfold sampleSymbol
  split
  · cases d.mode
    · exact ⟨none, rfl⟩
    · exact ⟨some v, rfl⟩
  · next hx =>
    obtain ⟨l, hl⟩ := readLeft_of_inv hi hrun hx
    exact ⟨_, by rw [hl]⟩

end Sys2Proof.Machine
end

