-- ==== Sys2Proof/Laws/Commands.lean ====
section
/-! SUPPORT. What a command, a word and a step can do, said once: each command's outcomes, the two ways a command word
is dispatched (40_control.md R55), and the host's actions. -/

namespace Sys2Proof.Machine

variable {s t : State}

/-! ### The end of a command -/

@[simp] theorem finishCommand_ok (i : Instr) (s t : State) : finishCommand i s (.ok t) = .next t := rfl
@[simp] theorem finishCommand_raise (i : Instr) (s : State) (c : Cause) :
    finishCommand i s (.error (.raise c)) = .next (raiseError c (encode i) s) := rfl
@[simp] theorem finishCommand_fault (i : Instr) (s : State) (f : Fault) :
    finishCommand i s (.error (.fault f)) = .fault f := rfl

/-- A command that ends in a next state has run to its end or raised. -/
theorem finishCommand_next {i : Instr} {r : Except Stop State} :
    finishCommand i s r = .next t ↔ r = .ok t ∨ ∃ c, r = .error (.raise c) ∧ t = raiseError c (encode i) s := by
  rcases r with (c | f) | u
  · simp [eq_comm]
  · simp
  · simp

/-! ### The steps of the units within a command -/

/-- Everything a symbol taken by the Encoder can do. -/
theorem consumeSymbol_cases {sym : Byte} (h : consumeSymbol sym s = .ok t) :
    ∃ e out, encStep sym s.enc = .ok (e, out) ∧ t = { s with enc := e, encOut := s.encOut ++ out } := by
  unfold consumeSymbol at h
  split at h
  · next e out he => exact ⟨e, out, he, by simpa using h.symm⟩
  · cases h

/-- With `256 <= ENC.NEXT` the Encoder takes every symbol. -/
theorem consumeSymbol_ok (sym : Byte) (h : 256 ≤ s.enc.next.toNat) : ∃ t, consumeSymbol sym s = .ok t := by
  obtain ⟨⟨e, out⟩, he⟩ := encStep_ok sym h
  exact ⟨_, by rw [consumeSymbol, he]⟩

/-- Everything a code taken by the Decoder can do when it ends well. -/
theorem consumeCode_cases {k : Code} (h : consumeCode k s = .ok t) :
    ∃ d out, decStep k s.dec = .ok (d, out) ∧ t = { s with dec := d, decOut := s.decOut ++ out } := by
  unfold consumeCode at h
  split at h
  · next d out hd => exact ⟨d, out, hd, by simpa using h.symm⟩
  · cases h

theorem consumeCode_error {k : Code} {r : Stop} (h : consumeCode k s = .error r) : decStep k s.dec = .error r := by
  unfold consumeCode at h
  split at h
  · cases h
  · next r' hd => rw [hd]; simpa using h

/-- Everything DEC_BYTE on the second byte of a pair can do when it ends well. -/
theorem completePair_cases {b : Byte} (h : completePair b s = .ok t) :
    ∃ d out, decStep (pairCode s.glob.byteOrder s.dec.byte0 b) s.dec = .ok (d, out) ∧
      t = { s with dec := { d with half := false, byte0 := 0#8 }, decOut := s.decOut ++ out } := by
  unfold completePair at h
  split at h
  · next u hu =>
    obtain ⟨d, out, hd, rfl⟩ := consumeCode_cases hu
    exact ⟨d, out, hd, by simpa using h.symm⟩
  · cases h

theorem completePair_error {b : Byte} {r : Stop} (h : completePair b s = .error r) :
    decStep (pairCode s.glob.byteOrder s.dec.byte0 b) s.dec = .error r := by
  unfold completePair at h
  split at h
  · cases h
  · next r' hr => rw [consumeCode_error hr]; simpa using h

/-- Everything a sample can do when it ends well: LEFT and the scan position move, and the symbol, if the sample yields
one, goes to DIF_OUT or to the Encoder. -/
theorem takeSample_cases {v : Byte} (h : takeSample v s = .ok t) :
    s.dif.state = .run ∧
    ∃ sym d, sampleSymbol v s.params.maxChans s.dif = .ok sym ∧
      ¬ (sym.isSome = true ∧ s.glob.chain = true ∧ s.enc.ended = true) ∧
      recordSample v s.params.maxChans s.dif = .ok d ∧
      deliverSymbol sym { s with dif := advanceScan d } = .ok t := by
  unfold takeSample at h
  split at h
  · cases h
  · next hrun =>
    split at h
    · cases h
    · next sym hsym =>
      split at h
      · cases h
      · next hend =>
        split at h
        · cases h
        · next d hd =>
          exact ⟨by simpa using hrun, sym, d, hsym, by simpa [and_assoc] using hend, hd, h⟩

/-- The ways a symbol is delivered. -/
theorem deliverSymbol_cases {sym : Option Byte} (h : deliverSymbol sym s = .ok t) :
    (sym = none ∧ t = s) ∨
    (∃ d, sym = some d ∧ s.glob.chain = false ∧ t = emitDif d s) ∨
    (∃ d e out, sym = some d ∧ s.glob.chain = true ∧ encStep d s.enc = .ok (e, out) ∧
      t = { s with enc := e, encOut := s.encOut ++ out }) := by
  unfold deliverSymbol at h
  split at h
  · exact .inl ⟨rfl, by simpa using h.symm⟩
  · next d =>
    split at h
    · next hc =>
      obtain ⟨e, out, he, rfl⟩ := consumeSymbol_cases h
      exact .inr (.inr ⟨d, e, out, rfl, hc, he, rfl⟩)
    · next hc => exact .inr (.inl ⟨d, rfl, by simpa using hc, by simpa using h.symm⟩)

/-- With `256 <= ENC.NEXT` every symbol is delivered. -/
theorem deliverSymbol_ok (sym : Option Byte) (h : 256 ≤ s.enc.next.toNat) : ∃ t, deliverSymbol sym s = .ok t := by
  unfold deliverSymbol
  split
  · exact ⟨_, rfl⟩
  · split
    · exact consumeSymbol_ok _ h
    · exact ⟨_, rfl⟩

/-- The invariant lets every sample of a running scan end well, unless its symbol would go to an Encoder that has been
flushed (R64). -/
theorem takeSample_ok {v : Byte} (hi : Inv s) (hrun : s.dif.state = .run) {sym : Option Byte}
    (hsym : sampleSymbol v s.params.maxChans s.dif = .ok sym)
    (hend : ¬ (sym.isSome = true ∧ s.glob.chain = true ∧ s.enc.ended = true)) :
    ∃ t, takeSample v s = .ok t := by
  obtain ⟨-, -, hd, he, -⟩ := hi
  have hc : s.dif.c.toNat < s.params.maxChans := by
    have := (hd.2.1 hrun).2.2
    have := hd.1
    omega
  unfold takeSample
  rw [if_neg (by simp [hrun]), hsym]
  simp only
  rw [if_neg (by simpa [and_assoc] using hend), recordSample_ok.mpr ⟨hc, rfl⟩]
  exact deliverSymbol_ok sym he.1.1

/-! ### Every command -/

/-- The outcomes of the commands that set a dimension (41_differencer.md R61). -/
theorem setDimension_cases (i : Instr) (n : Dim) (limit : Nat) (d : Dif) (s : State) :
    (s.dif.state = .run ∧ setDimension i n limit d s = raiseError .sequence (encode i) s) ∨
    (s.dif.state ≠ .run ∧ (n = 0#24 ∨ limit < n.toNat) ∧ setDimension i n limit d s = raiseError .config (encode i) s) ∨
    (s.dif.state ≠ .run ∧ n ≠ 0#24 ∧ n.toNat ≤ limit ∧ setDimension i n limit d s = { s with dif := d }) := by
  unfold setDimension
  split
  · next h => exact .inl ⟨h, rfl⟩
  · next h =>
    split
    · next h2 => exact .inr (.inl ⟨h, .inl h2, rfl⟩)
    · next h2 =>
      split
      · next h3 => exact .inr (.inl ⟨h, .inr h3, rfl⟩)
      · next h3 => exact .inr (.inr ⟨h, h2, by omega, rfl⟩)

/-- How a command that ends in a next state changes the block: the outcomes of the sixteen rules. -/
inductive Effect : Instr → State → State → Prop where
  | raised {i : Instr} {s : State} (c : Cause) (hc : c ≠ .noError) : Effect i s (raiseError c (encode i) s)
  | nop {s : State} : Effect .nop s s
  | softReset {s : State} : Effect .softReset s (softReset s)
  | setCtrl {f : BitVec 2} {s : State} :
      Effect (.setCtrl f) s { s with glob := { s.glob with chain := chainOf f, byteOrder := byteOrderOf f } }
  | difSetCols {n : Dim} {s : State} (hs : s.dif.state ≠ .run) :
      Effect (.difSetCols n) s { s with dif := { s.dif with cols := n } }
  | difSetChans {n : Dim} {s : State} (hs : s.dif.state ≠ .run) (hm : n.toNat ≤ s.params.maxChans) :
      Effect (.difSetChans n) s { s with dif := { s.dif with chans := n } }
  | difSetRows {n : Dim} {s : State} (hs : s.dif.state ≠ .run) :
      Effect (.difSetRows n) s { s with dif := { s.dif with rows := n } }
  | difSetMode {b : BitVec 1} {s : State} :
      Effect (.difSetMode b) s { s with dif := { s.dif with mode := modeOf b } }
  | difStart {s : State} (h : s.dif.cols ≠ 0#24 ∧ s.dif.chans ≠ 0#24 ∧ s.dif.rows ≠ 0#24) :
      Effect .difStart s { s with dif := { s.dif with x := 0#24, y := 0#24, c := 0#24, state := .run, leftRow := [] } }
  | difSample {v : Byte} {s t : State} (h : takeSample v s = .ok t) : Effect (.difSample v) s t
  | encInit {s : State} : Effect .encInit s { s with enc := encInitial }
  | encSymbol {x : Byte} {s : State} {e : Enc} {out : List Code} (hend : s.enc.ended = false)
      (h : encStep x s.enc = .ok (e, out)) : Effect (.encSymbol x) s { s with enc := e, encOut := s.encOut ++ out }
  | encFlush {s : State} :
      Effect .encFlush s { s with
        enc := { s.enc with matchCode := 0#16, mv := false, ended := true }
        encOut := if s.enc.mv then s.encOut ++ [s.enc.matchCode] else s.encOut }
  | decInit {s : State} : Effect .decInit s { s with dec := decInitial }
  | decCode {k : Code} {s : State} {d : Dec} {out : List Byte} (hh : s.dec.half = false)
      (h : decStep k s.dec = .ok (d, out)) : Effect (.decCode k) s { s with dec := d, decOut := s.decOut ++ out }
  | decByteFirst {b : Byte} {s : State} (hh : s.dec.half = false) :
      Effect (.decByte b) s { s with dec := { s.dec with byte0 := b, half := true } }
  | decByteSecond {b : Byte} {s : State} {d : Dec} {out : List Byte} (hh : s.dec.half = true)
      (h : decStep (pairCode s.glob.byteOrder s.dec.byte0 b) s.dec = .ok (d, out)) :
      Effect (.decByte b) s { s with dec := { d with half := false, byte0 := 0#8 }, decOut := s.decOut ++ out }
  | decEnd {s : State} (hh : s.dec.half = false) : Effect .decEnd s s

/-- A unit's step raises only CORRUPT_CODE. -/
theorem decStep_raise {k : Code} {d : Dec} {c : Cause} (h : decStep k d = .error (.raise c)) : c = .corruptCode := by
  unfold decStep at h
  split at h
  · split at h
    · simpa using h.symm
    · cases h
  · split at h
    · next r hc =>
      obtain rfl : r = .raise c := by simpa using h
      unfold currentString at hc
      split at hc
      · unfold decString at hc
        split at hc <;> simp at hc
      · split at hc
        · split at hc
          · cases hc
          · next r' hr =>
            unfold decString at hr
            split at hr <;> simp_all
        · simpa using hc.symm
    · split at h
      · cases h
      · next r hr =>
        unfold insertEntry at hr
        split at hr
        · split at hr
          · cases hr
          · simp_all
        · cases hr

/-- EncStep raises nothing (R68). -/
theorem encStep_raise {x : Byte} {e : Enc} {c : Cause} : encStep x e ≠ .error (.raise c) := by
  intro h
  unfold encStep at h
  split at h
  · cases h
  · split at h
    · cases h
    · split at h
      · cases h
      · next r hr =>
        unfold insertEntry at hr
        split at hr
        · split at hr
          · cases hr
          · simp_all
        · cases hr

/-- A sample raises only SEQUENCE (R64). -/
theorem takeSample_raise {v : Byte} {c : Cause} (h : takeSample v s = .error (.raise c)) : c = .sequence := by
  unfold takeSample at h
  split at h
  · simpa using h.symm
  · split at h
    · next r hr =>
      obtain rfl : r = .raise c := by simpa using h
      unfold sampleSymbol at hr
      split at hr
      · split at hr <;> cases hr
      · split at hr
        · cases hr
        · next r' hr' =>
          obtain ⟨f, rfl⟩ := readLeft_error hr'
          cases hr
    · split at h
      · simpa using h.symm
      · split at h
        · next r hr =>
          obtain ⟨f, rfl⟩ := recordSample_error hr
          cases h
        · unfold deliverSymbol at h
          split at h
          · cases h
          · split at h
            · unfold consumeSymbol at h
              split at h
              · cases h
              · next r hr =>
                obtain rfl : r = .raise c := by simpa using h
                exact absurd hr encStep_raise
            · cases h

/-- Whatever a command does, it is one of the outcomes above. -/
theorem exec_effect {i : Instr} (h : exec i s = .next t) : Effect i s t := by
  cases i with
  | nop => cases h; exact .nop
  | softReset => cases h; exact .softReset
  | setCtrl f => cases h; exact .setCtrl
  | difSetCols n =>
    cases h
    rcases setDimension_cases (.difSetCols n) n 16777215 { s.dif with cols := n } s with
      ⟨-, h⟩ | ⟨-, -, h⟩ | ⟨hs, -, -, h⟩ <;> rw [h]
    · exact .raised _ (by decide)
    · exact .raised _ (by decide)
    · exact .difSetCols hs
  | difSetChans n =>
    cases h
    rcases setDimension_cases (.difSetChans n) n s.params.maxChans { s.dif with chans := n } s with
      ⟨-, h⟩ | ⟨-, -, h⟩ | ⟨hs, -, hm, h⟩ <;> rw [h]
    · exact .raised _ (by decide)
    · exact .raised _ (by decide)
    · exact .difSetChans hs hm
  | difSetRows n =>
    cases h
    rcases setDimension_cases (.difSetRows n) n 16777215 { s.dif with rows := n } s with
      ⟨-, h⟩ | ⟨-, -, h⟩ | ⟨hs, -, -, h⟩ <;> rw [h]
    · exact .raised _ (by decide)
    · exact .raised _ (by decide)
    · exact .difSetRows hs
  | difSetMode b =>
    replace h := finishCommand_next.mp h
    obtain h | ⟨c, h, rfl⟩ := h
    · split at h
      · cases h
      · cases h; exact .difSetMode
    · refine .raised c ?_
      split at h
      · cases h; decide
      · cases h
  | difStart =>
    replace h := finishCommand_next.mp h
    obtain h | ⟨c, h, rfl⟩ := h
    · split at h
      · cases h
      · next hd => cases h; exact .difStart (by simpa using hd)
    · refine .raised c ?_
      split at h
      · cases h; decide
      · cases h
  | difSample v =>
    replace h := finishCommand_next.mp h
    obtain h | ⟨c, h, rfl⟩ := h
    · exact .difSample h
    · exact .raised c (by rw [takeSample_raise h]; decide)
  | encInit => cases h; exact .encInit
  | encSymbol x =>
    replace h := finishCommand_next.mp h
    obtain h | ⟨c, h, rfl⟩ := h
    · split at h
      · cases h
      · next he =>
        obtain ⟨e, out, hs, rfl⟩ := consumeSymbol_cases h
        exact .encSymbol (by simpa using he) hs
    · refine .raised c ?_
      split at h
      · cases h; decide
      · unfold consumeSymbol at h
        split at h
        · cases h
        · next r hr =>
          obtain rfl : r = .raise c := by simpa using h
          exact absurd hr encStep_raise
  | encFlush => cases h; exact .encFlush
  | decInit => cases h; exact .decInit
  | decCode k =>
    replace h := finishCommand_next.mp h
    obtain h | ⟨c, h, rfl⟩ := h
    · split at h
      · cases h
      · next hh =>
        obtain ⟨d, out, hs, rfl⟩ := consumeCode_cases h
        exact .decCode (by simpa using hh) hs
    · refine .raised c ?_
      split at h
      · cases h; decide
      · rw [decStep_raise (consumeCode_error h)]; decide
  | decByte b =>
    replace h := finishCommand_next.mp h
    obtain h | ⟨c, h, rfl⟩ := h
    · split at h
      · next hh =>
        obtain ⟨d, out, hs, rfl⟩ := completePair_cases h
        exact .decByteSecond hh hs
      · next hh => cases h; exact .decByteFirst (by simpa using hh)
    · refine .raised c ?_
      split at h
      · rw [decStep_raise (completePair_error h)]; decide
      · cases h
  | decEnd =>
    replace h := finishCommand_next.mp h
    obtain h | ⟨c, h, rfl⟩ := h
    · split at h
      · cases h
      · next hh => cases h; exact .decEnd (by simpa using hh)
    · refine .raised c ?_
      split at h
      · cases h; decide
      · cases h

/-- No command touches the host's side or the parameters. -/
theorem exec_hostSide {i : Instr} (h : exec i s = .next t) :
    t.params = s.params ∧ t.inputs = s.inputs ∧ t.rdOut = s.rdOut ∧ t.draws = s.draws := by
  cases exec_effect h with
  | difSample hs =>
    obtain ⟨-, sym, d', -, -, -, hd⟩ := takeSample_cases hs
    rcases deliverSymbol_cases hd with ⟨-, rfl⟩ | ⟨d, -, -, rfl⟩ | ⟨d, e, out, -, -, -, rfl⟩ <;> simp
  | _ => simp

/-! ### Words and steps -/

/-- A halted block performs the one word SOFT_RESET and discards every other (40_control.md R55). -/
theorem executeWord_halted (w : Word) (h : s.glob.err = true) :
    executeWord w s = .next (if w = softResetWord then softReset s else s) := by
  simp only [executeWord, h, if_true]
  split <;> rfl

/-- A word that decodes is performed by its command's rule. -/
theorem executeWord_ok {w : Word} {i : Instr} (h : s.glob.err = false) (hd : decode w = .ok i) :
    executeWord w s = exec i s := by
  simp [executeWord, h, hd]

/-- A word that does not decode raises (R51, R52). -/
theorem executeWord_bad {w : Word} {e : DecodeError} (h : s.glob.err = false) (hd : decode w = .bad e) :
    executeWord w s = .next (raiseError (decodeCause e) w s) := by
  simp [executeWord, h, hd]

theorem step_idle (h : s.inputs = []) : step s = .next s := by simp [step, advance, h]

theorem step_action {a : HostAction} {rest : List HostAction} (h : s.inputs = a :: rest) :
    step s = performAction a { s with inputs := rest } := by simp [step, advance, h]

@[simp] theorem step_offerWord (w : Word) (s : State) : step (offerWord w s) = executeWord w s := rfl

@[simp] theorem runSteps_zero (s : State) : runSteps 0 s = .next s := rfl

theorem runSteps_succ {n : Nat} (h : step s = .next t) : runSteps (n + 1) s = runSteps n t := by
  simp [runSteps, h]

end Sys2Proof.Machine
end

