-- ==== Sys2Proof/Laws/Encoding.lean ====
section
/-! SUPPORT. The fields of a word packed from an opcode and a payload, the payload's parts (30_encoding.md R47, R48),
and the rows of the opcode table (R52). -/

namespace Sys2Proof

@[simp] theorem opcodeField_packWord (op : Byte) (p : BitVec 24) : opcodeField (packWord op p) = op := by
  apply BitVec.eq_of_getLsbD_eq
  intro i hi
  have : ¬ 24 + i < 24 := by omega
  simp [opcodeField, packWord, hi, show 24 + i < 32 by omega]

@[simp] theorem imm24Field_packWord (op : Byte) (p : BitVec 24) : imm24Field (packWord op p) = p := by
  apply BitVec.eq_of_getLsbD_eq
  intro i hi
  simp [imm24Field, packWord, hi, show i < 32 by omega]

/-- A word is its opcode and its payload. -/
theorem packWord_fields (w : Word) : packWord (opcodeField w) (imm24Field w) = w := by
  apply BitVec.eq_of_getLsbD_eq
  intro i hi
  interval_cases i <;> simp [opcodeField, imm24Field, packWord]

/-- A field inside the payload can be read from the payload. -/
theorem extract_of_payload (w : Word) (lo n : Nat) (h : lo + n ≤ 24) :
    w.extractLsb' lo n = (imm24Field w).extractLsb' lo n := by
  apply BitVec.eq_of_getLsbD_eq
  intro i hi
  simp [imm24Field, hi, show lo + i < 24 by omega]

/-- The low bits of a zero-extended operand are the operand. -/
theorem extract_low {n : Nat} (v : BitVec n) (h : n ≤ 24) : (v.setWidth 24).extractLsb' 0 n = v := by
  apply BitVec.eq_of_getLsbD_eq
  intro i hi
  simp [hi, show i < 24 by omega]

/-- The reserved bits above a zero-extended operand are 0. -/
theorem extract_high {n : Nat} (v : BitVec n) (m : Nat) : (v.setWidth 24).extractLsb' n m = 0#m := by
  apply BitVec.eq_of_getLsbD_eq
  intro i hi
  simp

/-- A payload with its reserved bits 0 is its operand, zero-extended. -/
theorem payload_of_low (p : BitVec 24) (n m : Nat) (hnm : n + m = 24) (h : p.extractLsb' n m = 0#m) :
    (p.extractLsb' 0 n).setWidth 24 = p := by
  apply BitVec.eq_of_getLsbD_eq
  intro i hi
  by_cases hn : i < n
  · simp [hi, hn]
  · have hb := congrArg (fun q => q.getLsbD (i - n)) h
    have hlt : i - n < m := by omega
    have hadd : n + (i - n) = i := by omega
    simp only [BitVec.getLsbD_extractLsb', hlt, hadd, decide_true, Bool.true_and] at hb
    simp [hn, hb]

/-- The bits of a packed word. -/
theorem packWord_getLsbD (op : Byte) (p : BitVec 24) (i : Nat) :
    (packWord op p).getLsbD i = if i < 24 then p.getLsbD i else op.getLsbD (i - 24) := by
  unfold packWord
  by_cases h : i < 24
  · simp [h, show i < 32 by omega]
  · rw [if_neg h, BitVec.getLsbD_or, BitVec.getLsbD_shiftLeft, BitVec.getLsbD_setWidth, BitVec.getLsbD_setWidth,
      BitVec.getLsbD_of_ge p i (by omega)]
    by_cases h2 : i < 32
    · simp [h, h2, show i - 24 < 32 by omega]
    · rw [BitVec.getLsbD_of_ge op (i - 24) (by omega)]; simp

/-- Masking the operand bits of a word leaves the opcode exactly where the reserved bits are 0 (R52). -/
theorem mask_iff (op : Byte) (p : BitVec 24) (n m : Nat) (hnm : n + m = 24) :
    packWord op p &&& (BitVec.allOnes 32 <<< n) = packWord op 0#24 ↔ p.extractLsb' n m = 0#m := by
  constructor
  · intro h
    apply BitVec.eq_of_getLsbD_eq
    intro i hi
    have hb := congrArg (fun q => q.getLsbD (n + i)) h
    simp only [BitVec.getLsbD_and, packWord_getLsbD, if_pos (show n + i < 24 by omega), BitVec.getLsbD_shiftLeft,
      BitVec.getLsbD_allOnes, BitVec.getLsbD_zero] at hb
    simpa [hi, show n + i < 32 by omega, show i < 32 by omega] using hb
  · intro h
    apply BitVec.eq_of_getLsbD_eq
    intro i hi
    rw [BitVec.getLsbD_and, packWord_getLsbD, packWord_getLsbD, BitVec.getLsbD_shiftLeft, BitVec.getLsbD_allOnes]
    by_cases h24 : i < 24
    · by_cases hn : i < n
      · simp [hn, h24]
      · have hb := congrArg (fun q => q.getLsbD (i - n)) h
        simp only [BitVec.getLsbD_extractLsb', show i - n < m by omega, show n + (i - n) = i by omega, decide_true,
          Bool.true_and, BitVec.getLsbD_zero] at hb
        rw [if_pos h24, if_pos h24, hb]
        simp
    · simp [h24, hi, show ¬ i < n by omega, show i - n < 32 by omega]

/-- How a word of an assigned opcode decodes, by the mask and match of its row (R52). -/
theorem decode_of_row {w m k : Word} (h : opcodeRow (opcodeField w) = some (m, k)) :
    (w &&& k = m → ∃ i, decode w = .ok i ∧ opcodeOf i = opcodeField w) ∧
    (w &&& k ≠ m → decode w = .bad .reservedBits) := by
  have hw := packWord_fields w
  have key (n r : Nat) (hnr : n + r = 24) := mask_iff (opcodeField w) (imm24Field w) n r hnr
  have z := key 0 24 rfl
  have b1 := key 1 23 rfl
  have b2 := key 2 22 rfl
  have i8 := key 8 16 rfl
  have i16 := key 16 8 rfl
  have i24 := (key 24 0 rfl).mpr (BitVec.eq_nil _)
  rw [hw, ← extract_of_payload w _ _ (by omega)] at z b1 b2 i8 i16
  rw [hw] at i24
  have hop : opcodeField w = BitVec.ofNat 8 (opcodeField w).toNat := by simp
  unfold opcodeRow at h
  split at h <;> simp only [Option.some.injEq, Prod.mk.injEq, reduceCtorEq] at h
  all_goals
    next he =>
    obtain ⟨rfl, rfl⟩ := h
    rw [he] at hop
    simp only [decode, he, decodeZ, decodeB1, decodeB2, decodeI8, decodeI16, decodeI24]
    rw [hop] at z b1 b2 i8 i16 i24 ⊢
    first
    | exact ⟨fun _ => ⟨_, rfl, rfl⟩, fun hm => absurd i24 hm⟩
    | (constructor <;> intro hm <;> first | rw [if_pos (z.mp hm)] | rw [if_neg (fun hh => hm (z.mpr hh))]
       exact ⟨_, rfl, rfl⟩)
    | (constructor <;> intro hm <;> first | rw [if_pos (i8.mp hm)] | rw [if_neg (fun hh => hm (i8.mpr hh))]
       exact ⟨_, rfl, rfl⟩)
    | (constructor <;> intro hm <;> first | rw [if_pos (i16.mp hm)] | rw [if_neg (fun hh => hm (i16.mpr hh))]
       exact ⟨_, rfl, rfl⟩)
    | (constructor <;> intro hm <;> first | rw [if_pos (b1.mp hm)] | rw [if_neg (fun hh => hm (b1.mpr hh))]
       exact ⟨_, rfl, rfl⟩)
    | (constructor <;> intro hm <;> first | rw [if_pos (b2.mp hm)] | rw [if_neg (fun hh => hm (b2.mpr hh))]
       exact ⟨_, rfl, rfl⟩)

end Sys2Proof
end

