-- ==== Sys2Proof/Laws/Runs.lean ====
section
/-! SUPPORT. Runs of commands: what a command does never depends on what is pending behind it, so a run is its first
command and then the run of the rest. -/

namespace Sys2Proof.Machine

/-- An outcome with a change of its next state. -/
def mapNext (f : State → State) : Host.Outcome State Fault Refusal → Host.Outcome State Fault Refusal
  | .next t => .next (f t)
  | .fault r => .fault r
  | .refused r => .refused r

@[simp] theorem mapNext_next (f : State → State) (t : State) : mapNext f (.next t) = .next (f t) := rfl
@[simp] theorem mapNext_fault (f : State → State) (r : Fault) : mapNext f (.fault r) = .fault r := rfl
@[simp] theorem mapNext_refused (f : State → State) (r : Refusal) : mapNext f (.refused r) = .refused r := rfl

/-- Replacing what is pending. -/
abbrev setInputs (l : List HostAction) (s : State) : State := { s with inputs := l }

variable (l : List HostAction) (s : State)


/-- A body with a change of the state it ends in. -/
def mapBody (f : State → State) : Except Stop State → Except Stop State
  | .ok t => .ok (f t)
  | .error r => .error r

@[simp] theorem mapBody_ok (f : State → State) (t : State) : mapBody f (.ok t) = .ok (f t) := rfl
@[simp] theorem mapBody_error (f : State → State) (r : Stop) : mapBody f (.error r) = .error r := rfl

theorem finishCommand_setInputs (i : Instr) (r : Except Stop State) :
    finishCommand i (setInputs l s) (mapBody (setInputs l) r) = mapNext (setInputs l) (finishCommand i s r) := by
  rcases r with (c | f) | u <;> rfl

theorem consumeSymbol_setInputs (x : Byte) :
    consumeSymbol x (setInputs l s) = mapBody (setInputs l) (consumeSymbol x s) := by
  simp only [consumeSymbol]
  cases encStep x s.enc <;> rfl

theorem consumeCode_setInputs (k : Code) :
    consumeCode k (setInputs l s) = mapBody (setInputs l) (consumeCode k s) := by
  simp only [consumeCode]
  cases decStep k s.dec <;> rfl

theorem completePair_setInputs (b : Byte) :
    completePair b (setInputs l s) = mapBody (setInputs l) (completePair b s) := by
  unfold completePair
  rw [consumeCode_setInputs]
  cases consumeCode (pairCode s.glob.byteOrder s.dec.byte0 b) s <;> rfl

theorem deliverSymbol_setInputs (sym : Option Byte) :
    deliverSymbol sym (setInputs l s) = mapBody (setInputs l) (deliverSymbol sym s) := by
  unfold deliverSymbol
  split
  · rfl
  · split
    · exact consumeSymbol_setInputs l s _
    · rfl

theorem takeSample_setInputs (v : Byte) :
    takeSample v (setInputs l s) = mapBody (setInputs l) (takeSample v s) := by
  unfold takeSample
  dsimp only
  by_cases hrun : s.dif.state ≠ .run
  · rw [if_pos hrun, if_pos hrun]; rfl
  · rw [if_neg hrun, if_neg hrun]
    cases sampleSymbol v s.params.maxChans s.dif with
    | error r => rfl
    | ok sym =>
      simp only
      by_cases hend : (sym.isSome && s.glob.chain && s.enc.ended) = true
      · rw [if_pos hend, if_pos hend]; rfl
      · rw [if_neg hend, if_neg hend]
        cases recordSample v s.params.maxChans s.dif with
        | error r => rfl
        | ok d => exact deliverSymbol_setInputs l { s with dif := advanceScan d } sym

theorem setDimension_setInputs (i : Instr) (n : Dim) (limit : Nat) (d : Dif) :
    setDimension i n limit d (setInputs l s) = setInputs l (setDimension i n limit d s) := by
  rcases setDimension_cases i n limit d s with ⟨h1, h⟩ | ⟨h1, h2, h⟩ | ⟨h1, h2, h3, h⟩ <;> rw [h]
  · simp [setDimension, h1, raiseError, setInputs]
  · simp only [setDimension, if_neg h1]
    rcases h2 with h2 | h2
    · rw [if_pos h2]; rfl
    · split <;> rfl
  · simp only [setDimension, if_neg h1, if_neg h2, if_neg (Nat.not_lt.mpr h3)]

/-- A command does the same whatever is pending behind it. -/
theorem exec_setInputs (i : Instr) : exec i (setInputs l s) = mapNext (setInputs l) (exec i s) := by
  cases i with
  | difSetCols n => exact congrArg Host.Outcome.next (setDimension_setInputs l s _ _ _ _)
  | difSetChans n => exact congrArg Host.Outcome.next (setDimension_setInputs l s _ _ _ _)
  | difSetRows n => exact congrArg Host.Outcome.next (setDimension_setInputs l s _ _ _ _)
  | difSetMode b =>
    simp only [exec, execDifSetMode]
    by_cases h : s.dif.state = .run <;> simp only [h, if_true, if_false] <;> rfl
  | difStart =>
    simp only [exec, execDifStart]
    by_cases h : s.dif.cols = 0#24 ∨ s.dif.chans = 0#24 ∨ s.dif.rows = 0#24
    · rw [if_pos h, if_pos h]; rfl
    · rw [if_neg h, if_neg h]; rfl
  | difSample v =>
    simp only [exec, execDifSample, takeSample_setInputs]
    exact finishCommand_setInputs l s _ _
  | encSymbol x =>
    simp only [exec, execEncSymbol]
    by_cases h : s.enc.ended = true
    · rw [if_pos h, if_pos h]; rfl
    · rw [if_neg h, if_neg h, consumeSymbol_setInputs]
      exact finishCommand_setInputs l s _ _
  | decCode k =>
    simp only [exec, execDecCode]
    by_cases h : s.dec.half = true
    · rw [if_pos h, if_pos h]; rfl
    · rw [if_neg h, if_neg h, consumeCode_setInputs]
      exact finishCommand_setInputs l s _ _
  | decByte b =>
    simp only [exec, execDecByte]
    by_cases h : s.dec.half = true
    · rw [if_pos h, if_pos h, completePair_setInputs]
      exact finishCommand_setInputs l s _ _
    · rw [if_neg h, if_neg h]; rfl
  | decEnd =>
    simp only [exec, execDecEnd]
    by_cases h : s.dec.half = true
    · rw [if_pos h, if_pos h]; rfl
    · rw [if_neg h, if_neg h]; rfl
  | _ => rfl

/-- A command word does the same whatever is pending behind it. -/
theorem executeWord_setInputs (w : Word) :
    executeWord w (setInputs l s) = mapNext (setInputs l) (executeWord w s) := by
  unfold executeWord
  by_cases h : s.glob.err = true
  · rw [if_pos h, if_pos h]
    by_cases hw : w = softResetWord
    · rw [if_pos hw, if_pos hw]; rfl
    · rw [if_neg hw, if_neg hw]; rfl
  · rw [if_neg h, if_neg h]
    cases decode w with
    | bad e => rfl
    | ok i => exact exec_setInputs l s i

/-! ### Runs -/

theorem runCommands_nil : runCommands [] s = .next (setInputs [] s) := rfl

theorem withCommands_setInputs (is : List Instr) : withCommands is (setInputs l s) = withCommands is s := rfl

/-- A run does not depend on what was pending before. -/
theorem runCommands_setInputs (is : List Instr) : runCommands is (setInputs l s) = runCommands is s := rfl

/-- A run is its first command and then the run of the rest. -/
theorem runCommands_cons (i : Instr) (is : List Instr) :
    runCommands (i :: is) s =
      match executeWord (encode i) s with
      | .next t => runCommands is t
      | .fault f => .fault f
      | .refused r => .refused r := by
  have hstep : step (withCommands (i :: is) s) =
      executeWord (encode i) (setInputs (is.map fun i => HostAction.command (encode i)) s) := rfl
  rw [executeWord_setInputs] at hstep
  show runSteps (is.length + 1) _ = _
  rw [runSteps, hstep]
  cases executeWord (encode i) s <;> rfl

theorem runCommands_cons_next {i : Instr} {is : List Instr} {t : State} (h : executeWord (encode i) s = .next t) :
    runCommands (i :: is) s = runCommands is t := by
  rw [runCommands_cons, h]

end Sys2Proof.Machine
end

