-- ==== Sys2Proof/Laws/Invariant.lean ====
section
/-! SUPPORT. The invariant of Safety.lean: the reset fields have it, raising an error keeps it, and so does every
effect a command can have. -/

namespace Sys2Proof.Machine

/-- The reset values have the invariant, for every legal MAX_CHANS (10_state.md R33). -/
theorem reset_parts (p : Params) (hp : p.Inv) : Global.reset.Inv ∧ p.Inv ∧ Dif.reset.Inv p.maxChans ∧ Enc.reset.Inv ∧ Dec.reset.Inv := by
  refine ⟨by decide, hp, ?_, by decide, by decide⟩
  refine ⟨by simp, by simp, by simp, by simp, by simp, by simp, by simp, by simp⟩

/-- Raising an error keeps the invariant (60_exceptions.md R82). -/
theorem raise_inv {s : State} {c : Cause} {w : Word} (hi : Inv s) (hc : c ≠ .noError) : Inv (raiseError c w s) := by
  obtain ⟨hg, hp, hd, he, hdd⟩ := hi
  exact ⟨⟨by simp [raiseError], fun _ => hc⟩, hp, hd, he, hdd⟩

/-- Whatever a command does, it keeps the invariant. -/
theorem effect_inv {i : Instr} {s t : State} (hi : Inv s) (h : Effect i s t) : Inv t := by
  have hi' := hi
  obtain ⟨hg, hp, hd, he, hdd⟩ := hi
  have hd0 := hd
  obtain ⟨d1, d2, d3, d4, d5, d6, d7, d8⟩ := hd
  cases h with
  | raised c hc => exact raise_inv hi' hc
  | nop => exact hi'
  | softReset => exact reset_parts _ hp
  | setCtrl => exact ⟨hg, hp, hd0, he, hdd⟩
  | difSetCols hs => exact ⟨hg, hp, ⟨d1, fun h => absurd h hs, d3, d4, d5, fun h => absurd h hs, fun h => absurd h hs, d8⟩, he, hdd⟩
  | difSetChans hs hm => exact ⟨hg, hp, ⟨hm, fun h => absurd h hs, d3, d4, d5, fun h => absurd h hs, fun h => absurd h hs, d8⟩, he, hdd⟩
  | difSetRows hs => exact ⟨hg, hp, ⟨d1, fun h => absurd h hs, d3, d4, d5, fun h => absurd h hs, fun h => absurd h hs, d8⟩, he, hdd⟩
  | difSetMode => exact ⟨hg, hp, hd0, he, hdd⟩
  | difStart h =>
    obtain ⟨h1, h2, h3⟩ := h
    have pos : ∀ n : Dim, n ≠ 0#24 → 0 < n.toNat := fun n h => by
      rcases Nat.eq_zero_or_pos n.toNat with h0 | h0
      · exact absurd (BitVec.eq_of_toNat_eq h0) h
      · exact h0
    refine ⟨hg, hp, ⟨d1, fun _ => ⟨pos _ h1, pos _ h3, pos _ h2⟩, fun h => absurd rfl h, d4, d5, fun _ => by simp,
      fun _ => rfl, fun h => absurd rfl h⟩, he, hdd⟩
  | difSample hs =>
    obtain ⟨hrun, sym, d, -, -, hrec, hdel⟩ := takeSample_cases hs
    have hd' := advanceScan_inv hd0 hrun hrec
    rcases deliverSymbol_cases hdel with ⟨h1, rfl⟩ | ⟨d', h1, h2, rfl⟩ | ⟨d', e, out, h1, h2, h3, rfl⟩
    · exact ⟨hg, hp, hd', he, hdd⟩
    · exact ⟨hg, hp, hd', he, hdd⟩
    · exact ⟨hg, hp, hd', (encStep_inv he h3).1, hdd⟩
  | encInit => exact ⟨hg, hp, hd0, (by decide : encInitial.Inv), hdd⟩
  | encSymbol _ h => exact ⟨hg, hp, hd0, (encStep_inv he h).1, hdd⟩
  | encFlush => exact ⟨hg, hp, hd0, ⟨he.1, he.2.1, by simp, by simp⟩, hdd⟩
  | decInit => exact ⟨hg, hp, hd0, he, (by decide : decInitial.Inv)⟩
  | decCode hh h => exact ⟨hg, hp, hd0, he, (decStep_inv hdd h).1⟩
  | decByteFirst => exact ⟨hg, hp, hd0, he, ⟨hdd.1, hdd.2.1, hdd.2.2.1, by simp⟩⟩
  | decByteSecond hh h =>
    have := (decStep_inv hdd h).1
    exact ⟨hg, hp, hd0, he, ⟨this.1, this.2.1, this.2.2.1, by simp⟩⟩
  | decEnd => exact hi'

end Sys2Proof.Machine
end

