-- ==== Sys2Proof/Laws/PerInstr.lean ====
section
/-! SUPPORT. Per-instruction facts. Family TableRow: the word of every command meets the match and mask of its own row of
spec/opcode_table.json and carries its opcode (30_encoding.md R50, R52). -/

namespace Sys2Proof.Laws.TableRow

/-- The word of the command meets its own row. -/
def Statement (i : Instr) : Prop :=
  opcodeField (encode i) = opcodeOf i ∧
  ∃ m k, opcodeRow (opcodeOf i) = some (m, k) ∧ encode i &&& k = m

/-- A word whose operand has `n` bits meets the mask that leaves those bits out. -/
theorem row_of_operand {op : Byte} {n : Nat} (v : BitVec n) (m : Nat) (hnm : n + m = 24) {x k : Word}
    (hr : opcodeRow op = some (x, k)) (hx : packWord op 0#24 = x) (hk : BitVec.allOnes 32 <<< n = k) :
    opcodeField (packWord op (v.setWidth 24)) = op ∧
    ∃ m k, opcodeRow op = some (m, k) ∧ packWord op (v.setWidth 24) &&& k = m := by
  refine ⟨opcodeField_packWord _ _, x, k, hr, ?_⟩
  rw [← hk, ← hx]
  exact (mask_iff op _ n m hnm).mpr (extract_high v m)

theorem nop : Statement .nop := row_of_operand 0#0 24 rfl rfl (by decide) (by decide)
theorem softReset : Statement .softReset := row_of_operand 0#0 24 rfl rfl (by decide) (by decide)
theorem setCtrl (f : BitVec 2) : Statement (.setCtrl f) := row_of_operand f 22 rfl rfl (by decide) (by decide)
theorem difSetCols (n : Dim) : Statement (.difSetCols n) := by
  have h := row_of_operand (op := 0x10#8) n 0 rfl rfl (by decide) (by decide)
  rwa [BitVec.setWidth_eq] at h
theorem difSetChans (n : Dim) : Statement (.difSetChans n) := by
  have h := row_of_operand (op := 0x11#8) n 0 rfl rfl (by decide) (by decide)
  rwa [BitVec.setWidth_eq] at h
theorem difSetRows (n : Dim) : Statement (.difSetRows n) := by
  have h := row_of_operand (op := 0x12#8) n 0 rfl rfl (by decide) (by decide)
  rwa [BitVec.setWidth_eq] at h
theorem difSetMode (b : BitVec 1) : Statement (.difSetMode b) := row_of_operand b 23 rfl rfl (by decide) (by decide)
theorem difStart : Statement .difStart := row_of_operand 0#0 24 rfl rfl (by decide) (by decide)
theorem difSample (v : Byte) : Statement (.difSample v) := row_of_operand v 16 rfl rfl (by decide) (by decide)
theorem encInit : Statement .encInit := row_of_operand 0#0 24 rfl rfl (by decide) (by decide)
theorem encSymbol (s : Byte) : Statement (.encSymbol s) := row_of_operand s 16 rfl rfl (by decide) (by decide)
theorem encFlush : Statement .encFlush := row_of_operand 0#0 24 rfl rfl (by decide) (by decide)
theorem decInit : Statement .decInit := row_of_operand 0#0 24 rfl rfl (by decide) (by decide)
theorem decCode (k : Code) : Statement (.decCode k) := row_of_operand k 8 rfl rfl (by decide) (by decide)
theorem decByte (b : Byte) : Statement (.decByte b) := row_of_operand b 16 rfl rfl (by decide) (by decide)
theorem decEnd : Statement .decEnd := row_of_operand 0#0 24 rfl rfl (by decide) (by decide)

end Sys2Proof.Laws.TableRow
end

