-- ==== Sys2Proof/Tests/Slice0.lean ====
section
/-! SUPPORT. Tests with expected results from spec/ (the words of 30_encoding.md, the vectors of 95_test_vectors.md), and
for every statement of the Obligations file that has hypotheses a witness: concrete states and operands that meet them,
one for each clause. -/

namespace Sys2Proof.Tests

open Sys2Proof Sys2Proof.Machine

-- The invariant is one large conjunction, decided part by part.
set_option synthInstance.maxSize 1024

/-! ### Small states -/

/-- Reset with MAX_CHANS = 4, as vector DF13 has it. -/
def base : State := { State.reset with params := { maxChans := 4 } }

/-- A 2 x 2 image of 2 channels being scanned at (y, x, c), channel 0 last 10 and channel 1 last 200. -/
def scan (y x c : Nat) (m : Mode) (chain : Bool) : State :=
  { base with
    glob := { Global.reset with chain := chain }
    dif := { cols := 2#24, chans := 2#24, rows := 2#24, mode := m, state := .run, x := BitVec.ofNat 24 x,
             y := BitVec.ofNat 24 y, c := BitVec.ofNat 24 c, left := [(0#24, 10#8), (1#24, 200#8)]
             leftRow := (List.range (if x = 0 then c else 2)).map fun j => (BitVec.ofNat 24 j, ()) } }

/-- A configured Differencer, IDLE. -/
def configured (m : Mode) : State :=
  { base with dif := { Dif.reset with cols := 2#24, chans := 1#24, rows := 2#24, mode := m } }

/-- The Encoder in the middle of EN4: entry 256 = (1, 2). -/
def encoding (matchCode : Code) : State :=
  { base with enc := { next := 257#16, matchCode := matchCode, mv := true, ended := false,
                       table := [(256#16, ⟨1#16, 2#8⟩)] } }

/-- The Encoder after ENC_FLUSH (EN7). -/
def flushed : State := { base with enc := { Enc.reset with ended := true } }

/-- The Decoder in the middle of DE2: entry 256 = (1, 2), previous code 2. -/
def decoding : State :=
  { base with dec := { next := 257#16, prev := 2#16, pv := true, half := false, byte0 := 0#8,
                       table := [(256#16, ⟨1#16, 2#8⟩)] } }

/-- A Decoder with the first byte of a pair. -/
def halfway (o : ByteOrder) (b : Byte) : State :=
  { base with glob := { Global.reset with byteOrder := o }, dec := { Dec.reset with half := true, byte0 := b } }

/-- A halted block. -/
def halted : State := raiseError .sequence 0x15000004#32 base

/-- What holds of the next state of an outcome; a fault or a refusal meets nothing. -/
def after (o : Host.Outcome State Fault Refusal) (p : State → Bool) : Bool :=
  match o with
  | .next t => p t
  | .fault _ => false
  | .refused _ => false

/-! ### WellFormed: one ill-formed line for each check, refused by the check and by the assembler (R53) -/

theorem test_wf_refuses_each_field : ([
    .setCtrl 2 0, .setCtrl 0 2, .difSetCols 16777216, .difSetChans 16777216, .difSetRows 16777216, .difSetMode 2,
    .difSample 256, .encSymbol 256, .decCode 65536, .decByte 256,
    .difImage 16777216 1 1 0, .difImage 1 16777216 1 0, .difImage 1 1 16777216 0, .difImage 1 1 1 2,
    .difSamples [], .difSamples [1, 256], .encSymbols [], .encSymbols [256, 1],
    .decCodeBytes 65536 0, .decCodeBytes 0 2] : List AsmLine).all
      (fun l => !l.wf && (assembleLine l).isNone) = true := by decide

theorem test_wf_accepts_the_greatest : ([
    .setCtrl 1 1, .difSetCols 16777215, .difSetMode 1, .difSample 255, .decCode 65535,
    .decCodeBytes 65535 1] : List AsmLine).all (fun l => l.wf) = true := by decide

/-! ### Decoding: a word of every row, written from its format (R48, R50) -/

theorem test_decode_nop : decode 0b00000000_00000000_00000000_00000000#32 = .ok .nop := by decide
theorem test_decode_soft_reset : decode 0b00000001_00000000_00000000_00000000#32 = .ok .softReset := by decide
theorem test_decode_set_ctrl : decode 0b00000010_00000000_00000000_00000010#32 = .ok (.setCtrl 0b10#2) := by decide
theorem test_decode_set_cols : decode 0b00010000_11111111_00000000_00000001#32 = .ok (.difSetCols 0xFF0001#24) := by
  decide
theorem test_decode_set_chans : decode 0b00010001_00000000_00000000_00000101#32 = .ok (.difSetChans 5#24) := by decide
theorem test_decode_set_rows : decode 0b00010010_00000000_00000001_00000000#32 = .ok (.difSetRows 256#24) := by decide
theorem test_decode_set_mode : decode 0b00010011_00000000_00000000_00000001#32 = .ok (.difSetMode 1#1) := by decide
theorem test_decode_start : decode 0b00010100_00000000_00000000_00000000#32 = .ok .difStart := by decide
theorem test_decode_sample : decode 0b00010101_00000000_00000000_00001010#32 = .ok (.difSample 10#8) := by decide
theorem test_decode_enc_init : decode 0b00100000_00000000_00000000_00000000#32 = .ok .encInit := by decide
theorem test_decode_enc_symbol : decode 0b00100001_00000000_00000000_10000001#32 = .ok (.encSymbol 129#8) := by decide
theorem test_decode_enc_flush : decode 0b00100010_00000000_00000000_00000000#32 = .ok .encFlush := by decide
theorem test_decode_dec_init : decode 0b00110000_00000000_00000000_00000000#32 = .ok .decInit := by decide
theorem test_decode_dec_code : decode 0b00110001_00000000_10000000_00000001#32 = .ok (.decCode 0x8001#16) := by decide
theorem test_decode_dec_byte : decode 0b00110010_00000000_00000000_00000001#32 = .ok (.decByte 1#8) := by decide
theorem test_decode_dec_end : decode 0b00110011_00000000_00000000_00000000#32 = .ok .decEnd := by decide

/-- CT2, CT4, CT13: the lowest reserved bit of each format (R52). -/
theorem test_decode_reserved_bits :
    [0x00000001#32, 0x02000004#32, 0x13000002#32, 0x2100010A#32, 0x31010000#32, 0x33800000#32].all
      (fun w => decode w == .bad .reservedBits) = true := by decide

/-- The table's bit numbers are the word's (R47), and the next step runs the word. -/
theorem test_table_word : decodeTableWord 32 0x31000100 = some (.decCode 256#16) ∧
    decodeTableWord 32 0x05000000 = none ∧ decodeTableWord 40 0x31000100 = none := by decide

theorem test_fetch_word :
    after (step (State.reset.withFetchWord 32 0x2100000A)) (fun t => t.enc.matchCode == 10#16 && t.enc.mv) = true := by
  decide

/-! ### One step of each command (95_test_vectors.md) -/

/-- CT1. -/
theorem test_nop : after (exec .nop base) (fun t => t == base) = true := by decide

/-- CT9: the halt ends; P4: the streams stay. -/
theorem test_soft_reset :
    after (executeWord 0x01000000#32 { halted with difOut := [5#8] })
      (fun t => statusWord t == 0#32 && t.difOut == [5#8] && !errIrq t) = true := by decide

/-- CT8: a halted block discards 0x01000001. -/
theorem test_soft_reset_discarded : after (executeWord 0x01000001#32 halted) (fun t => t == halted) = true := by decide

/-- CT3. -/
theorem test_set_ctrl : after (exec (.setCtrl 3#2) base) (fun t => readReg t 0x2#4 == 3#32) = true := by decide

/-- CT14. -/
theorem test_set_cols :
    after (exec (.difSetCols 0xFFFFFF#24) base) (fun t => readReg t 0x3#4 == 16777215#32 && !t.glob.err) = true := by
  decide

/-- CT11: SEQUENCE before CONFIG. -/
theorem test_set_cols_in_run :
    after (executeWord 0x10000000#32 (scan 0 0 0 .reference false)) (fun t => statusWord t == 0x27#32) = true := by
  decide

/-- DF13, with MAX_CHANS = 4. -/
theorem test_set_chans_above :
    after (executeWord 0x11000005#32 base)
      (fun t => statusWord t == 0x9#32 && t.glob.errCmd == 0x11000005#32 && t.dif.chans == 0#24) = true := by decide

theorem test_set_chans_limit : after (exec (.difSetChans 4#24) base) (fun t => t.dif.chans == 4#24) = true := by decide

/-- DF19: legal in DONE. -/
theorem test_set_rows :
    after (exec (.difSetRows 5#24) { base with dif := { Dif.reset with state := .done } })
      (fun t => readReg t 0x5#4 == 5#32) = true := by decide

/-- R62's example; DF18. -/
theorem test_set_mode : after (exec (.difSetMode 1#1) base) (fun t => readReg t 0x6#4 == 1#32) = true := by decide
theorem test_set_mode_in_run :
    after (executeWord 0x13000001#32 (scan 0 0 0 .reference false))
      (fun t => t.glob.cause == .sequence && t.dif.mode == .reference) = true := by decide

/-- DF19: from DONE to RUN; DF14. -/
theorem test_start :
    after (exec .difStart { configured .reference with dif := { (configured .reference).dif with state := .done } })
      (fun t => statusWord t == 0x20#32) = true := by decide
theorem test_start_unconfigured :
    after (executeWord 0x14000000#32 base) (fun t => statusWord t == 0x9#32 && t.dif.state == .idle) = true := by decide

/-- DF5b: the second channel's 190 against its own 200 gives 246. -/
theorem test_sample_invertible :
    after (exec (.difSample 190#8) (scan 0 1 1 .invertible false))
      (fun t => t.difOut == [246#8] && t.dif.y == 1#24 && t.dif.x == 0#24 && t.dif.c == 0#24) = true := by decide

/-- DF5a chained: the symbol 10 goes to the Encoder and not to DIF_OUT (R65). -/
theorem test_sample_chained :
    after (exec (.difSample 190#8) (scan 0 1 1 .reference true))
      (fun t => t.difOut == [] && t.enc.matchCode == 10#16 && t.enc.mv) = true := by decide

/-- R70's example. -/
theorem test_enc_init :
    after (exec .encInit (encoding 2#16)) (fun t => readReg t 0xA#4 == 256#32 && readReg t 0xB#4 == 0#32) = true := by
  decide

/-- EN4's trace: (2, 1) is no key, so 2 is emitted and 257 = (2, 1); (1, 2) is key 256. -/
theorem test_enc_symbol :
    after (exec (.encSymbol 1#8) (encoding 2#16))
      (fun t => t.encOut == [2#16] && readStore t.enc.table 257#16 == some ⟨2#16, 1#8⟩ && t.enc.matchCode == 1#16) =
      true ∧
    after (exec (.encSymbol 2#8) (encoding 1#16)) (fun t => t.encOut == [] && t.enc.matchCode == 256#16) = true := by
  decide

/-- EN4's flush; EN9. -/
theorem test_enc_flush :
    after (exec .encFlush (encoding 256#16))
      (fun t => t.encOut == [256#16] && statusWord t == 0x100#32 && t.enc.next == 257#16) = true := by decide
theorem test_enc_symbol_after_flush :
    after (executeWord 0x21000001#32 flushed) (fun t => statusWord t == 0x107#32) = true := by decide

/-- DE14: the pending byte is dropped. -/
theorem test_dec_init :
    after (exec .decInit (halfway .highFirst 5#8)) (fun t => !t.dec.half && t.dec.byte0 == 0#8) = true := by decide

/-- DE2: 256 emits [1, 2] and 257 = (2, 1). -/
theorem test_dec_code :
    after (exec (.decCode 256#16) decoding)
      (fun t => t.decOut == [1#8, 2#8] && readStore t.dec.table 257#16 == some ⟨2#16, 1#8⟩ && t.dec.prev == 256#16) =
      true := by decide

/-- DE4's case: the code is the next one that would be assigned. -/
theorem test_dec_code_next :
    after (exec (.decCode 257#16) decoding)
      (fun t => t.decOut == [2#8, 2#8] && readStore t.dec.table 257#16 == some ⟨2#16, 2#8⟩) = true := by decide

/-- DE9 and DE10. -/
theorem test_dec_byte_high_first :
    after (executeWord 0x32000000#32 (halfway .highFirst 1#8))
      (fun t => statusWord t == 0x80B#32 && t.dec.byte0 == 1#8 && t.decOut == []) = true := by decide
theorem test_dec_byte_low_first :
    after (exec (.decByte 0#8) (halfway .lowFirst 1#8)) (fun t => t.decOut == [1#8] && statusWord t == 0x400#32) =
      true := by decide

/-- W3; DE13. -/
theorem test_dec_end_odd :
    after (executeWord 0x33000000#32 (halfway .highFirst 0#8)) (fun t => statusWord t == 0x80D#32) = true := by decide
theorem test_dec_end : after (exec .decEnd base) (fun t => t == base) = true := by decide

/-! ### A nearly full and a full dictionary -/

/-- `n` entries, each with the code before it as its prefix and the symbol 0. -/
def chainTable (n : Nat) : Store 16 Entry :=
  (List.range' 256 n).map fun k => (BitVec.ofNat 16 k, ⟨BitVec.ofNat 16 (k - 1), 0#8⟩)

theorem chainTable_inv {n : Nat} (h : n ≤ 65279) {next : Code} (hn : next.toNat = 256 + n) :
    TableInv next (chainTable n) := by
  refine ⟨by omega, ?_, ?_⟩
  · rw [chainTable, List.map_map, show next.toNat - 256 = n by omega]
    conv_rhs => rw [← List.map_id (List.range' 256 n)]
    refine List.map_congr_left fun k hk => ?_
    rw [List.mem_range'_1] at hk
    simp only [Function.comp, BitVec.toNat_ofNat, id]
    omega
  · intro p hp
    obtain ⟨k, hk, rfl⟩ := List.mem_map.mp hp
    rw [List.mem_range'_1] at hk
    simp only [BitVec.toNat_ofNat]
    omega

theorem chainTable_nodup {n : Nat} (h : n ≤ 65279) : ((chainTable n).map (fun p => p.2)).Nodup := by
  rw [chainTable, List.map_map]
  refine List.Nodup.map_on ?_ List.nodup_range'
  intro a ha b hb hab
  rw [List.mem_range'_1] at ha hb
  have := congrArg (fun e : Entry => e.pre.toNat) hab
  simp only [Function.comp, BitVec.toNat_ofNat] at this
  omega

theorem chainTable_sym {n : Nat} {k : Code} {e : Entry} (h : readStore (chainTable n) k = some e) : e.sym = 0#8 := by
  obtain ⟨j, -, hj⟩ := List.mem_map.mp (mem_of_readStore h)
  cases hj
  rfl

/-- The Encoder with `n` entries and the match 0. -/
def filledEnc (n : Nat) : Enc :=
  { next := BitVec.ofNat 16 (256 + n), matchCode := 0#16, mv := true, ended := false, table := chainTable n }

/-- The Decoder with `n` entries and the previous code 0. -/
def filledDec (n : Nat) : Dec :=
  { next := BitVec.ofNat 16 (256 + n), prev := 0#16, pv := true, half := false, byte0 := 0#8, table := chainTable n }

theorem filledEnc_inv {n : Nat} (h : n ≤ 65279) : (filledEnc n).Inv := by
  have hn : (filledEnc n).next.toNat = 256 + n := by simp [filledEnc]; omega
  refine ⟨chainTable_inv h hn, chainTable_nodup h, fun _ => ?_, by simp [filledEnc]⟩
  rw [hn]; simp [filledEnc]

theorem filledDec_inv {n : Nat} (h : n ≤ 65279) : (filledDec n).Inv := by
  have hn : (filledDec n).next.toNat = 256 + n := by simp [filledDec]; omega
  refine ⟨chainTable_inv h hn, fun _ => ?_, by simp [filledDec], by simp [filledDec]⟩
  rw [hn]; simp [filledDec]

/-! ### Witnesses: encoding -/

theorem witness_EncodeOfDecodeIsTheWord : decode 0x15000000#32 = .ok (.difSample 0#8) ∧
    decode 0x10FFFFFF#32 = .ok (.difSetCols 0xFFFFFF#24) := by decide

/-- CT6 and the assigned opcodes beside each range. -/
theorem witness_UnassignedOpcodesRaise :
    [0x03000000#32, 0x0F000000#32, 0x16000000#32, 0x1F000000#32, 0x23000000#32, 0x2F000000#32, 0x34000000#32,
      0xFF000000#32].all (fun w => decode w == .bad .illegalOpcode) = true ∧
    [0x02000000#32, 0x10000000#32, 0x15000000#32, 0x20000000#32, 0x22000000#32, 0x30000000#32, 0x33000000#32].all
      (fun w => decode w != .bad .illegalOpcode) = true ∧
    base.glob.err = false := by decide

theorem witness_UnassignedOpcodesRaise_nop : ∀ s : State, exec .nop s = .next s := fun _ => rfl

theorem witness_ReservedBitsRaise :
    opcodeRow (opcodeField 0x150000FF#32) = some (0x15000000#32, 0xFFFFFF00#32) ∧
    0x150000FF#32 &&& 0xFFFFFF00#32 = 0x15000000#32 ∧
    opcodeRow (opcodeField 0x15000100#32) = some (0x15000000#32, 0xFFFFFF00#32) ∧
    0x15000100#32 &&& 0xFFFFFF00#32 ≠ 0x15000000#32 ∧ base.glob.err = false := by decide

theorem witness_ExecuteFollowsTheDispatch :
    halted.glob.err = true ∧ base.glob.err = false ∧ opcodeRow (opcodeField 0x05000001#32) = none ∧
    opcodeRow (opcodeField 0x33000000#32) = some (0x33000000#32, 0xFFFFFFFF#32) := by decide

/-! ### Witnesses: steps -/

theorem witness_StepPerformsThePendingCommand :
    (offerWord 0x21000007#32 base).inputs = [.command 0x21000007#32] ∧ base.glob.err = false ∧
    decode 0x21000007#32 = .ok (.encSymbol 7#8) := by decide

theorem witness_StepTakesTheOtherHostActions :
    base.inputs = [] ∧
    ∀ a ∈ [HostAction.take .dif, .take .enc, .take .dec, .hardReset],
      ({ base with inputs := [a] } : State).inputs = a :: [] := by decide

theorem witness_RunsOfCommandsCompose :
    after (runCommands [.encSymbol 1#8, .encSymbol 2#8] base) (fun t => t.encOut == [1#16]) = true := by decide

/-! ### Witnesses: errors -/

theorem witness_ErrorsArePrecise :
    base.glob.err = false ∧ after (executeWord 0x15000001#32 base) (fun t => t.glob.err) = true ∧
    0x01000001#32 ≠ 0x01000000#32 := by decide

/-- A halting word for each cause. -/
theorem witness_EachCauseHasItsCondition :
    after (executeWord 0x05000000#32 base) (fun t => t.glob.cause == .illegalOpcode) = true ∧
    after (executeWord 0x02000004#32 base) (fun t => t.glob.cause == .reservedBits) = true ∧
    after (executeWord 0x15000001#32 base) (fun t => t.glob.cause == .sequence) = true ∧
    after (executeWord 0x14000000#32 base) (fun t => t.glob.cause == .config) = true ∧
    after (executeWord 0x31000100#32 base) (fun t => t.glob.cause == .corruptCode) = true ∧
    after (executeWord 0x33000000#32 (halfway .highFirst 0#8)) (fun t => t.glob.cause == .corruptOdd) = true := by
  decide

/-- CT7, CT11, CT12, CT8. -/
theorem witness_FirstErrorInOrderIsRaised :
    opcodeRow (opcodeField 0x05000001#32) = none ∧ base.glob.err = false ∧
    opcodeRow (opcodeField 0x02000004#32) = some (0x02000000#32, 0xFFFFFFFC#32) ∧
    0x02000004#32 &&& 0xFFFFFFFC#32 ≠ 0x02000000#32 ∧
    (scan 0 0 0 .reference false).dif.state = .run ∧ (halfway .highFirst 0#8).dec.half = true ∧
    halted.glob.err = true ∧ 0x01000001#32 ≠ 0x01000000#32 := by decide

theorem witness_OnlyResetLeavesTheHalt :
    halted.glob.err = true ∧
    after (step (offerWord 0x01000000#32 halted)) (fun t => !t.glob.err) = true ∧
    after (step { halted with inputs := [.hardReset] }) (fun t => !t.glob.err) = true := by decide

theorem witness_ErrorsDoNotNest :
    halted.glob.err = true ∧ after (step (offerWord 0x05000000#32 halted)) (fun t => t.glob == halted.glob) = true := by
  decide

theorem witness_SoftResetClearsEveryField :
    opcodeField 0x01000001#32 = 0x01#8 ∧ 0x01000001#32 ≠ 0x01000000#32 ∧ base.glob.err = false ∧
    halted.glob.err = true := by decide

theorem witness_ReadPortShowsTheRegisters :
    base.params.maxChans ≤ 16777215 ∧ ({ maxChans := 16777215 } : Params).maxChans ≤ 16777215 := by decide

/-! ### Witnesses: global commands -/

theorem witness_NopChangesNothing :
    opcodeField 0x00000001#32 = 0x00#8 ∧ imm24Field 0x00000001#32 ≠ 0#24 ∧ base.glob.err = false := by decide

theorem witness_SetCtrlWritesTheControlFields :
    opcodeField 0x02000004#32 = 0x02#8 ∧ 4 ≤ (imm24Field 0x02000004#32).toNat ∧ base.glob.err = false := by decide

/-! ### Witnesses: the Differencer -/

/-- 0, MAX_CHANS, the value above it and the greatest value. -/
theorem witness_DimensionCommandsWriteTheirField :
    (scan 0 0 0 .reference false).dif.state = .run ∧ base.dif.state ≠ .run ∧
    base.params.maxChans < (5#24).toNat ∧ (4#24 : Dim) ≠ 0#24 ∧ (4#24).toNat ≤ base.params.maxChans ∧
    (16777215#24 : Dim) ≠ 0#24 ∧ (1#24 : Dim) ≠ 0#24 := by decide

theorem witness_ModeCommandWritesTheMode :
    (scan 0 0 0 .reference false).dif.state = .run ∧ base.dif.state ≠ .run ∧
    opcodeField 0x13000002#32 = 0x13#8 ∧ 2 ≤ (imm24Field 0x13000002#32).toNat ∧ base.glob.err = false := by decide

theorem witness_StartBeginsTheScan :
    base.dif.cols = 0#24 ∧ (configured .reference).dif.cols ≠ 0#24 ∧ (configured .reference).dif.chans ≠ 0#24 ∧
    (configured .reference).dif.rows ≠ 0#24 := by decide

/-- Every position of the image, in both modes, chained and not: all four ways the scan moves. -/
theorem witness_SampleStepsTheScan_positions :
    ∀ m ∈ [Mode.reference, .invertible], ∀ ch ∈ [false, true], ∀ y ∈ [0, 1], ∀ x ∈ [0, 1], ∀ c ∈ [0, 1],
      Inv (scan y x c m ch) ∧ (scan y x c m ch).dif.state = .run ∧ (scan y x c m ch).enc.ended = false := by decide

/-- The two SEQUENCE clauses, and a flushed Encoder that a sample without a symbol does not meet (DF16). -/
theorem witness_SampleStepsTheScan :
    Inv base ∧ base.dif.state ≠ .run ∧
    Inv { scan 0 1 0 .reference true with enc := { Enc.reset with ended := true } } ∧
    (scan 0 1 0 .reference true).dif.x ≠ 0#24 ∧ (scan 0 0 0 .invertible true).dif.mode = .invertible ∧
    Inv { scan 0 0 0 .reference true with enc := { Enc.reset with ended := true } } := by decide

theorem witness_ChainedSymbolActsAsEncSymbol :
    Inv (scan 0 1 0 .reference true) ∧ (scan 0 1 0 .reference true).glob.chain = true ∧
    after (exec (.difSample 12#8) (scan 0 1 0 .reference true)) (fun t => t.enc.matchCode == 2#16) = true := by decide

theorem witness_ChainedSymbolActsAsEncSymbol_symbol :
    sampleSymbol 12#8 4 (scan 0 1 0 .reference true).dif = .ok (some 2#8) := rfl

theorem witness_DifferencesAreExact :
    (255#8).toNat ≤ (255#8).toNat ∧ (0#8).toNat < (255#8).toNat ∧ (254#8).toNat < (255#8).toNat := by decide

theorem witness_ChainedImageFeedsTheEncoder :
    ∀ m ∈ [Mode.reference, .invertible], ∀ s ∈ [{ configured m with glob := { Global.reset with chain := true } }],
      Inv s ∧ Safe s ∧ s.glob.chain = true ∧ s.enc.ended = false ∧ s.dif.mode = m ∧ s.dif.cols ≠ 0#24 ∧
      s.dif.chans ≠ 0#24 ∧ s.dif.rows ≠ 0#24 := by decide

theorem witness_images :
    ∀ m ∈ [Mode.reference, .invertible],
      Inv (configured m) ∧ Safe (configured m) ∧ (configured m).glob.chain = false ∧ (configured m).dif.mode = m ∧
      (configured m).dif.cols ≠ 0#24 ∧ (configured m).dif.chans ≠ 0#24 ∧ (configured m).dif.rows ≠ 0#24 := by decide

/-- No sample, one fewer than the image takes, and exactly as many. -/
theorem witness_ImageTakesItsCountOfSamples :
    ([] : List Byte).length ≤ 2 * 2 * 1 ∧ [10#8, 10#8, 50#8].length < 2 * 2 * 1 ∧
    [10#8, 10#8, 50#8, 40#8].length = 2 * 2 * 1 := by decide

/-! ### Witnesses: the Encoder -/

theorem witness_EncSymbolStepsTheEncoder :
    (flushed.enc.Inv ∧ flushed.enc.ended = true) ∧ (base.enc.Inv ∧ base.enc.ended = false ∧ base.enc.mv = false) ∧
    ((encoding 1#16).enc.Inv ∧ (encoding 1#16).enc.ended = false ∧ (encoding 1#16).enc.mv = true ∧
      readStore (encoding 1#16).enc.table 256#16 = some ⟨(encoding 1#16).enc.matchCode, 2#8⟩) := by decide

/-- A miss with room for one more entry (EN12) and with none (EN10). -/
theorem witness_EncSymbolStepsTheEncoder_full :
    ∀ n ∈ [65278, 65279],
      (filledEnc n).Inv ∧ (filledEnc n).ended = false ∧ (filledEnc n).mv = true ∧
      (∀ k, readStore (filledEnc n).table k ≠ some ⟨(filledEnc n).matchCode, 1#8⟩) ∧
      (n = 65278 → (filledEnc n).next.toNat < 65535) ∧ (n = 65279 → (filledEnc n).next = 65535#16) := by
  intro n hn
  have h : n ≤ 65279 := by
    simp only [List.mem_cons, List.not_mem_nil, or_false] at hn
    omega
  refine ⟨filledEnc_inv h, rfl, rfl, fun k hk => ?_, ?_, ?_⟩
  · exact absurd (show (1#8 : Byte) = 0#8 from chainTable_sym hk) (by decide)
  · rintro rfl; simp [filledEnc]
  · rintro rfl; rfl

theorem witness_LookupFindsTheKey :
    (encoding 1#16).enc.Inv ∧ (1#16).toNat < (encoding 1#16).enc.next.toNat ∧
    (256#16).toNat < (encoding 1#16).enc.next.toNat ∧ lookupEntry 257#16 (encoding 1#16).enc.table 1#16 2#8 = some 256#16 := by
  decide

theorem witness_EmittedCodesAreKeys :
    Inv (encoding 2#16) ∧ after (exec (.encSymbol 1#8) (encoding 2#16)) (fun t => t.encOut == [2#16]) = true := by decide

theorem witness_EncodedStringsJoinToTheInput : Safe base ∧ [0#8, 10#8] ≠ ([] : List Byte) := by decide

/-! ### Witnesses: the Decoder -/

theorem witness_DecCodeStepsTheDecoder :
    (halfway .highFirst 0#8).dec.Inv ∧ (halfway .highFirst 0#8).dec.half = true ∧
    base.dec.Inv ∧ base.dec.half = false ∧ base.dec.pv = false ∧ 256 ≤ (256#16).toNat ∧ (255#16).toNat < 256 ∧
    decoding.dec.Inv ∧ decoding.dec.half = false ∧ decoding.dec.pv = true ∧
    (¬ (258#16).toNat < decoding.dec.next.toNat ∧ 258#16 ≠ decoding.dec.next) ∧
    (256#16).toNat < decoding.dec.next.toNat ∧ (257#16 = decoding.dec.next ∧ decoding.dec.next.toNat < 65535) := by
  decide

/-- The code 65535 at a full table (DE8), a known code there, and the next code while there is room for one entry. -/
theorem witness_DecCodeStepsTheDecoder_full :
    (filledDec 65279).Inv ∧ (filledDec 65279).pv = true ∧ (filledDec 65279).next = 65535#16 ∧
    ¬ (65535#16).toNat < (filledDec 65279).next.toNat ∧ (65534#16).toNat < (filledDec 65279).next.toNat ∧
    (filledDec 65278).Inv ∧ 65534#16 = (filledDec 65278).next ∧ (filledDec 65278).next.toNat < 65535 := by
  refine ⟨filledDec_inv (by omega), rfl, rfl, ?_, ?_, filledDec_inv (by omega), rfl, ?_⟩ <;> simp [filledDec]

theorem witness_DecByteCompletesTheCode :
    base.dec.Inv ∧ base.dec.half = false ∧
    (halfway .lowFirst 1#8).dec.Inv ∧ (halfway .lowFirst 1#8).dec.half = true ∧
    after (exec (.decCode 1#16) base) (fun t => !t.glob.err) = true := by decide

theorem witness_DecByteCompletesTheCode_steps :
    decStep 1#16 (halfway .lowFirst 1#8).dec = .ok ({ (halfway .lowFirst 1#8).dec with prev := 1#16, pv := true }, [1#8]) ∧
    decStep 256#16 (halfway .highFirst 1#8).dec = .error (.raise .corruptCode) := ⟨rfl, rfl⟩

theorem witness_DecEndChecksTheByteCount :
    (halfway .highFirst 0#8).dec.half = true ∧ base.dec.half = false := by decide

theorem witness_DecoderMirrorsTheEncoder :
    Safe base ∧ [0#8, 10#8] ≠ ([] : List Byte) ∧
    after (runCommands (.encInit :: ([0#8, 10#8].map .encSymbol ++ [.encFlush])) base)
      (fun t => t.encOut == base.encOut ++ [0#16, 10#16]) = true := by decide

/-- Without the flush only [0] comes out (W2). -/
theorem witness_DecoderMirrorsTheEncoder_unflushed :
    after (runCommands (.encInit :: [0#8, 10#8].map .encSymbol) base)
      (fun t => t.encOut == base.encOut ++ [0#16] && statusWord t == 0x80#32) = true := by decide

/-- The least and the greatest legal channel count. -/
theorem witness_CompressedImageDecompresses :
    Inv base ∧ Safe base ∧ base.dif.state ≠ .run ∧ (0b01#2).getLsbD 0 = true ∧ (0b11#2).getLsbD 0 = true ∧
    (2#24 : Dim) ≠ 0#24 ∧ (1#24 : Dim) ≠ 0#24 ∧ (1#24).toNat ≤ base.params.maxChans ∧ (4#24 : Dim) ≠ 0#24 ∧
    (4#24).toNat ≤ base.params.maxChans := by decide

/-! ### Witnesses: invariants and frames -/

theorem witness_EveryStepKeepsTheInvariant :
    Inv (offerWord 0x21000001#32 (encoding 2#16)) ∧
    after (step (offerWord 0x21000001#32 (encoding 2#16))) (fun t => t.encOut == [2#16]) = true := by decide

theorem witness_NoStepStops : Inv (scan 1 1 1 .reference true) ∧ Inv decoding ∧ Inv halted := by decide

theorem witness_EncoderStringsAreKeys :
    (encoding 256#16).enc.Inv ∧ (filledEnc 65279).Inv := ⟨by decide, filledEnc_inv (by omega)⟩

theorem witness_EncoderStringsAreKeys_strings :
    dictString 257#16 (encoding 256#16).enc.table 256#16 = some ⟨1#8, [2#8]⟩ ∧
    (SymString.symbols ⟨1#8, []⟩) <+: (SymString.symbols ⟨1#8, [2#8]⟩) := ⟨rfl, by decide⟩

theorem witness_StringsFollowThePrefixChain :
    TableInv 257#16 decoding.dec.table ∧ (255#16).toNat < 256 ∧ 256 ≤ (256#16).toNat ∧ (256#16).toNat < (257#16).toNat := by
  decide

theorem witness_StreamsOnlyGrowByCommands :
    after (executeWord 0x22000000#32 (encoding 256#16)) (fun t => t.encOut == [256#16]) = true := by decide

theorem witness_NoStepChangesTheParameters :
    after (step { base with inputs := [.hardReset] }) (fun t => t.params == base.params) = true := by decide

theorem witness_EncoderAndDecoderCommute :
    (opcodeOf (.encSymbol 1#8)).toNat / 16 = 2 ∧ (opcodeOf (.decCode 1#16)).toNat / 16 = 3 ∧ base.glob.err = false ∧
    after (exec (.encSymbol 1#8) base) (fun t => !t.glob.err) = true ∧
    after (exec (.decCode 1#16) base) (fun t => !t.glob.err) = true := by decide

theorem witness_GlobalCommandsLeaveTheRest :
    ∀ i ∈ [Instr.nop, .softReset, .setCtrl 1#2],
      (opcodeOf i).toNat / 16 = 0 ∧ after (exec i (encoding 2#16)) (fun _ => true) = true := by decide

theorem witness_DifferencerCommandsLeaveTheRest :
    ∀ i ∈ [Instr.difSetCols 0#24, .difSetCols 3#24, .difSetChans 3#24, .difSetRows 3#24, .difSetMode 1#1, .difStart,
        .difSample 7#8],
      (opcodeOf i).toNat / 16 = 1 ∧ after (exec i (configured .reference)) (fun _ => true) = true ∧
      after (exec i (scan 0 1 0 .reference true)) (fun _ => true) = true := by decide

theorem witness_EncoderCommandsLeaveTheRest :
    ∀ i ∈ [Instr.encInit, .encSymbol 1#8, .encFlush],
      (opcodeOf i).toNat / 16 = 2 ∧ after (exec i (encoding 2#16)) (fun _ => true) = true := by decide

theorem witness_DecoderCommandsLeaveTheRest :
    ∀ i ∈ [Instr.decInit, .decCode 256#16, .decCode 258#16, .decByte 1#8, .decEnd],
      (opcodeOf i).toNat / 16 = 3 ∧ after (exec i decoding) (fun _ => true) = true := by decide

/-! ### Witnesses: the guards -/

/-- Column 1 of row 1 as an earlier row left LEFT, with channel 0 the only one that the row has written. -/
def staleRow : State := { scan 1 1 1 .invertible false with
  dif := { (scan 1 1 1 .invertible false).dif with leftRow := [(0#24, ())] } }

/-- A Decoder whose entry 256 has no contents, and whose entry 257 has a prefix that is no code yet. -/
def brokenDecoder : State := { base with
  dec := { next := 258#16, prev := 300#16, pv := true, half := false, byte0 := 0#8,
           table := [(257#16, ⟨300#16, 0#8⟩)] } }

/-- R34, U1: channel 1 holds 200 from an earlier row, and reading it faults; channel 0, written in this row, is read. -/
theorem test_left_of_an_earlier_row : exec (.difSample 7#8) staleRow = .fault .leftUnwritten := rfl

theorem test_left_of_this_row :
    after (exec (.difSample 7#8) { staleRow with dif := { staleRow.dif with c := 0#24 } })
      (fun t => t.difOut == [253#8]) = true := by decide

theorem witness_GuardsFaultOnUnspecifiedReads_left :
    staleRow.dif.state = .run ∧ staleRow.dif.x ≠ 0#24 ∧ staleRow.dif.c.toNat < staleRow.params.maxChans ∧
    readStore staleRow.dif.leftRow staleRow.dif.c = none ∧
    after (exec .difStart (configured .reference)) (fun t => !t.glob.err) = true ∧
    after (exec (.difSample 7#8) (scan 0 1 1 .reference false))
      (fun t => !t.glob.err && t.dif.x == 0#24 && t.dif.c == 0#24) = true ∧
    after (exec (.difSample 7#8) (scan 0 0 0 .reference false))
      (fun t => !t.glob.err && t.dif.c != 0#24) = true ∧
    after (exec (.difSample 7#8) (scan 0 0 1 .reference false))
      (fun t => !t.glob.err && t.dif.x != 0#24) = true ∧
    after (exec (.difSample 7#8) (scan 0 1 0 .reference false))
      (fun t => !t.glob.err && t.dif.x != 0#24) = true := by decide

theorem witness_GuardsFaultOnUnspecifiedReads_decoder :
    brokenDecoder.dec.half = false ∧ brokenDecoder.dec.pv = true ∧ 256 ≤ (256#16).toNat ∧
    (256#16).toNat < brokenDecoder.dec.next.toNat ∧ readStore brokenDecoder.dec.table 256#16 = none ∧
    (257#16).toNat < brokenDecoder.dec.next.toNat ∧
    readStore brokenDecoder.dec.table 257#16 = some ⟨300#16, 0#8⟩ ∧
    brokenDecoder.dec.next.toNat ≤ (300#16).toNat ∧ brokenDecoder.dec.next.toNat < 65535 ∧
    brokenDecoder.dec.prev = 300#16 := by decide

/-! ### Witnesses: the assembler -/

theorem witness_AssemblerRefusesWhatDoesNotFit :
    256 ≤ 256 ∧ 65536 ≤ 65536 ∧ 16777216 ≤ 16777216 ∧ 255 < 256 ∧ 65535 < 65536 ∧ 16777215 < 16777216 := by decide

theorem witness_PseudoInstructionsExpand :
    Inv (halfway .lowFirst 1#8) ∧ Safe (halfway .lowFirst 1#8) ∧ Inv decoding ∧ Safe decoding ∧
    decoding.dec.half = false ∧ (halfway .lowFirst 1#8).dec.half = true ∧
    assembleLine (.decCodeBytes (256#16).toNat (byteOrderBit .highFirst).toNat) = some [.decByte 1#8, .decByte 0#8] ∧
    after (runCommands [.decCode 256#16] decoding) (fun t => !t.glob.err) = true := by decide

end Sys2Proof.Tests
end

section
/-! PROOFS. The state of the block (10_state.md): STATUS, the strings of codes, the Encoder's dictionary, and reset. -/

namespace Sys2Proof.Proofs

open Sys2Proof.Machine

/-! ### STATUS (R32) -/

/-- A field of a register counts `2 ^ lo` times its value. -/
theorem fieldAt_toNat {lo w : Nat} (v : BitVec w) (h : lo + w ≤ 32) : (fieldAt lo v).toNat = 2 ^ lo * v.toNat := by
  have hw : v.toNat < 2 ^ 32 := v.isLt.trans_le (Nat.pow_le_pow_right (by decide) (by omega))
  have hlo : 2 ^ lo * v.toNat < 2 ^ 32 := calc
    2 ^ lo * v.toNat < 2 ^ lo * 2 ^ w := Nat.mul_lt_mul_of_pos_left v.isLt (Nat.two_pow_pos lo)
    _ = 2 ^ (lo + w) := (Nat.pow_add ..).symm
    _ ≤ 2 ^ 32 := Nat.pow_le_pow_right (by decide) h
  rw [fieldAt, BitVec.toNat_shiftLeft, BitVec.toNat_setWidth, Nat.mod_eq_of_lt hw, Nat.shiftLeft_eq,
    Nat.mul_comm, Nat.mod_eq_of_lt hlo]

/-- A field above every bit of `x` adds its value at its place. -/
theorem or_fieldAt_toNat {lo w : Nat} {x : Word} (hx : x.toNat < 2 ^ lo) (v : BitVec w) (h : lo + w ≤ 32) :
    (x ||| fieldAt lo v).toNat = x.toNat + 2 ^ lo * v.toNat := by
  rw [BitVec.toNat_or, fieldAt_toNat v h, Nat.or_comm, ← Nat.two_pow_add_eq_or_of_lt hx, Nat.add_comm]

/-- With a field above every bit of `x`, the bits end where that field ends. -/
theorem or_fieldAt_lt {lo w : Nat} {x : Word} (hx : x.toNat < 2 ^ lo) (v : BitVec w) (h : lo + w ≤ 32) :
    (x ||| fieldAt lo v).toNat < 2 ^ (lo + w) := by
  rw [or_fieldAt_toNat hx v h]
  calc x.toNat + 2 ^ lo * v.toNat < 2 ^ lo * (v.toNat + 1) := by rw [Nat.mul_succ]; omega
    _ ≤ 2 ^ lo * 2 ^ w := Nat.mul_le_mul_left _ v.isLt
    _ = 2 ^ (lo + w) := (Nat.pow_add ..).symm

/-- A FULL bit is 1 exactly when its NEXT is 65535. -/
theorem dictFull_toNat (next : Code) : (dictFull next).toNat = if next = 65535#16 then 1 else 0 := by
  by_cases h : next = 65535#16
  · simp [dictFull, h]
  · have : next.toNat ≠ 65535 := fun hn => h (BitVec.eq_of_toNat_eq hn)
    simp [dictFull, h, this]

/-- Settles O19: the fields are taken from the lowest up, each above all the bits of those before it. -/
theorem statusFieldsInTheirBits : Obligations.StatusFieldsInTheirBits := by
  intro s
  have err : (fieldAt 0 (BitVec.ofBool s.glob.err)).toNat = s.glob.err.toNat := by
    rw [fieldAt_toNat _ (by decide), BitVec.toNat_ofBool]; simp
  have h1 : (fieldAt 0 (BitVec.ofBool s.glob.err)).toNat < 2 ^ 1 := err ▸ Bool.toNat_lt _
  have h5 := or_fieldAt_lt h1 (causeCode s.glob.cause) (by decide)
  have h7 := or_fieldAt_lt h5 (difStateBits s.dif.state) (by decide)
  have h8 := or_fieldAt_lt h7 (BitVec.ofBool s.enc.mv) (by decide)
  have h9 := or_fieldAt_lt h8 (BitVec.ofBool s.enc.ended) (by decide)
  have h10 := or_fieldAt_lt h9 (BitVec.ofBool (dictFull s.enc.next)) (by decide)
  have h11 := or_fieldAt_lt h10 (BitVec.ofBool s.dec.pv) (by decide)
  have h12 := or_fieldAt_lt h11 (BitVec.ofBool s.dec.half) (by decide)
  rw [statusWord, or_fieldAt_toNat h12 _ (by decide), or_fieldAt_toNat h11 _ (by decide),
    or_fieldAt_toNat h10 _ (by decide), or_fieldAt_toNat h9 _ (by decide), or_fieldAt_toNat h8 _ (by decide),
    or_fieldAt_toNat h7 _ (by decide), or_fieldAt_toNat h5 _ (by decide), or_fieldAt_toNat h1 _ (by decide), err]
  simp only [BitVec.toNat_ofBool, dictFull_toNat, Nat.reduceAdd, Nat.reducePow]

/-! ### The strings of codes (R24, R25, R28) -/

section Strings

variable {next : Code} {t : Store 16 Entry}

/-- A code from 256 below NEXT has an entry with a smaller PREFIX, and its string is PREFIX's with the symbol. -/
theorem dictString_snoc (h : TableInv next t) {k : Code} (h256 : 256 ≤ k.toNat) (hlt : k.toNat < next.toNat) :
    ∃ e p, readStore t k = some e ∧ e.pre.toNat < k.toNat ∧ dictString next t e.pre = some p ∧
      dictString next t k = some (p.snoc e.sym) := by
  obtain ⟨e, he, hpre⟩ := h.entry h256 hlt
  obtain ⟨p, hp⟩ := exists_dictString h (hpre.trans hlt)
  exact ⟨e, p, he, hpre, hp, by rw [dictString_entry h he, hp, Option.map_some]⟩

/-- Every non-empty beginning of a key is a key (R25), down the chain of PREFIX fields: a beginning of `p ++ [s]` is that string
itself or a beginning of `p`. -/
theorem dictString_prefix (h : TableInv next t) {k : Code} {a b : SymString} (hlt : k.toNat < next.toNat)
    (ha : dictString next t k = some a) (hb : b.symbols <+: a.symbols) :
    ∃ j : Code, j.toNat < next.toNat ∧ dictString next t j = some b := by
  induction hn : k.toNat using Nat.strongRecOn generalizing k a with
  | _ n ih =>
    by_cases hs : k.toNat < 256
    · have hab : b = a := by
        rw [dictString_seed hs, Option.some.injEq] at ha
        subst ha
        refine symbols_injective (hb.eq_of_length_le ?_)
        simp [SymString.symbols]
      exact ⟨k, hlt, hab ▸ ha⟩
    · obtain ⟨e, p, -, hpre, hp, hka⟩ := dictString_snoc h (Nat.le_of_not_lt hs) hlt
      rw [hka, Option.some.injEq] at ha
      subst ha
      rw [snoc_symbols, List.prefix_concat_iff, ← snoc_symbols] at hb
      rcases hb with hb | hb
      · exact ⟨k, hlt, symbols_injective hb ▸ hka⟩
      · exact ih e.pre.toNat (hn ▸ hpre) (hpre.trans hlt) hp hb rfl

end Strings

/-- Settles O50, from the seed's string and the string of an entry. -/
theorem stringsFollowThePrefixChain : Obligations.StringsFollowThePrefixChain := by
  intro next table h
  refine ⟨fun k hk => ⟨_, dictString_seed hk, rfl⟩, fun k h256 hlt => ?_⟩
  obtain ⟨e, p, he, hpre, hp, hk⟩ := dictString_snoc h h256 hlt
  exact ⟨e, p, _, he, hpre, hp, hk, snoc_symbols .., snoc_first ..⟩

/-- Settles O49: the five items of R25, the last by `dictString_prefix`. -/
theorem encoderStringsAreKeys : Obligations.EncoderStringsAreKeys := by
  rintro e ⟨ht, hnd, hmatch, -⟩
  have hcap : e.next.toNat ≤ 65535 := Nat.le_of_lt_succ e.next.isLt
  refine ⟨⟨ht.1, hcap⟩, fun k h256 hlt => ?lengths, fun j k a hj hk hja hka => ?distinct, hmatch,
    fun k a b => dictString_prefix ht⟩
  case lengths =>
    obtain ⟨p, hp, hpre⟩ := ht.entry h256 hlt
    obtain ⟨a, ha, hlen, -⟩ := dictString_defined ht _ k rfl hlt
    obtain ⟨hmin, hmax⟩ := hlen h256
    exact ⟨p, a, hp, hpre, ha, hmin, by omega, by omega⟩
  case distinct => exact dictString_injective ht hnd _ j k a rfl hja hka hj hk

/-! ### Reset (R33) -/

/-- Where the four units are at reset, every field holds the table's value. -/
theorem holdsResetValues_of_units {s : State} (hg : s.glob = .reset) (hdif : s.dif = .reset) (henc : s.enc = .reset)
    (hdec : s.dec = .reset) : HoldsResetValues s := by
  simp [HoldsResetValues, hg, hdif, henc, hdec]

/-- Settles O15: each of the three states has its four units at reset. -/
theorem resetValuesOfEveryField : Obligations.ResetValuesOfEveryField :=
  ⟨⟨holdsResetValues_of_units rfl rfl rfl rfl, rfl, rfl, rfl⟩,
    fun s => ⟨hardReset s, rfl, holdsResetValues_of_units (hardReset_glob s) (hardReset_dif s) (hardReset_enc s)
      (hardReset_dec s), hardReset_difOut s, hardReset_encOut s, hardReset_decOut s⟩,
    fun s => ⟨softReset s, rfl, holdsResetValues_of_units (softReset_glob s) (softReset_dif s) (softReset_enc s)
      (softReset_dec s), softReset_difOut s, softReset_encOut s, softReset_decOut s⟩⟩

end Sys2Proof.Proofs
end

section
/-! PROOFS. Encoding (30_encoding.md): unassigned opcodes, reserved bits and the pseudo-instructions. -/

namespace Sys2Proof.Proofs

open Sys2Proof.Machine

/-! ### The round trip of a command (R47 to R50) -/

/-- A part of a packed word's payload is that part of the payload. -/
theorem extract_packWord (op : Byte) (p : BitVec 24) {lo n : Nat} (h : lo + n ≤ 24) :
    (packWord op p).extractLsb' lo n = p.extractLsb' lo n := by
  rw [extract_of_payload _ _ _ h, imm24Field_packWord]

theorem decodeZ_packWord (op : Byte) (i : Instr) : decodeZ (packWord op 0#24) i = .ok i := by
  rw [decodeZ, extract_packWord _ _ (by decide), if_pos (by decide)]

theorem decodeB1_packWord (op : Byte) (b : BitVec 1) (i : BitVec 1 → Instr) :
    decodeB1 (packWord op (b.setWidth 24)) i = .ok (i b) := by
  rw [decodeB1, b1Field, extract_packWord _ _ (by decide), extract_packWord _ _ (by decide),
    if_pos (extract_high b 23), extract_low b (by decide)]

theorem decodeB2_packWord (op : Byte) (f : BitVec 2) (i : BitVec 2 → Instr) :
    decodeB2 (packWord op (f.setWidth 24)) i = .ok (i f) := by
  rw [decodeB2, b2Field, extract_packWord _ _ (by decide), extract_packWord _ _ (by decide),
    if_pos (extract_high f 22), extract_low f (by decide)]

theorem decodeI8_packWord (op : Byte) (v : Byte) (i : Byte → Instr) :
    decodeI8 (packWord op (v.setWidth 24)) i = .ok (i v) := by
  rw [decodeI8, imm8Field, extract_packWord _ _ (by decide), extract_packWord _ _ (by decide),
    if_pos (extract_high v 16), extract_low v (by decide)]

theorem decodeI16_packWord (op : Byte) (k : Code) (i : Code → Instr) :
    decodeI16 (packWord op (k.setWidth 24)) i = .ok (i k) := by
  rw [decodeI16, imm16Field, extract_packWord _ _ (by decide), extract_packWord _ _ (by decide),
    if_pos (extract_high k 8), extract_low k (by decide)]

theorem decodeI24_packWord (op : Byte) (n : Dim) (i : Dim → Instr) : decodeI24 (packWord op n) i = .ok (i n) := by
  rw [decodeI24, imm24Field_packWord]

/-- The word of a command decodes to that command: its opcode selects the command's format, which gives back the
operand. -/
theorem decode_encode (i : Instr) : decode (encode i) = .ok i := by
  cases i <;>
    simp only [encode, decode, opcodeField_packWord, BitVec.toNat_ofNat, Nat.reducePow, Nat.reduceMod,
      decodeZ_packWord, decodeB1_packWord, decodeB2_packWord, decodeI8_packWord, decodeI16_packWord,
      decodeI24_packWord]

theorem executeWord_encode {s : State} (h : s.glob.err = false) (i : Instr) : executeWord (encode i) s = exec i s :=
  executeWord_ok h (decode_encode i)

/-! ### Unassigned opcodes (R51) -/

theorem opcodeRow_eq_none_iff (op : Byte) : opcodeRow op = none ↔
    ((0x03 ≤ op.toNat ∧ op.toNat ≤ 0x0F) ∨ (0x16 ≤ op.toNat ∧ op.toNat ≤ 0x1F) ∨
     (0x23 ≤ op.toNat ∧ op.toNat ≤ 0x2F) ∨ (0x34 ≤ op.toNat ∧ op.toNat ≤ 0xFF)) := by
  have := op.isLt
  unfold opcodeRow
  split <;> simp only [reduceCtorEq, false_iff, true_iff]
  case h_17 => simp only [imp_false] at *; omega
  all_goals omega

/-- 240 of the 256 opcodes have no row. -/
theorem unassigned_count :
    ((List.range 256).filter fun op => (opcodeRow (BitVec.ofNat 8 op)).isNone).length = 240 := by decide +kernel

/-- A word is illegal exactly where the table has no row for its opcode; a word with a row is a command or a
reserved-bits error. -/
theorem decode_illegal_iff (w : Word) : decode w = .bad .illegalOpcode ↔ opcodeRow (opcodeField w) = none := by
  constructor
  · intro hd
    cases hr : opcodeRow (opcodeField w) with
    | none => rfl
    | some row =>
      obtain ⟨hmet, hfailed⟩ := decode_of_row (m := row.1) (k := row.2) hr
      by_cases hm : w &&& row.2 = row.1
      · obtain ⟨i, hi, -⟩ := hmet hm
        rw [hi] at hd; cases hd
      · rw [hfailed hm] at hd; cases hd
  · intro hr
    rw [opcodeRow_eq_none_iff] at hr
    unfold decode
    split
    case h_17 => rfl
    all_goals omega

/-- A block in use, with no error: the last row of a one-column image being scanned, the Encoder holding a match and
the Decoder one byte of a pair. -/
def midway (chain : Bool) : State :=
  { State.reset with
    glob := { Global.reset with chain := chain }
    dif := { Dif.reset with cols := 1#24, chans := 1#24, rows := 2#24, state := .run, y := 1#24 }
    enc := { Enc.reset with mv := true }
    dec := { Dec.reset with half := true } }

/-- An outcome whose next state has another value of some field is no unchanged state. -/
theorem next_ne {α : Type} {s t : State} (field : State → α) (h : field t ≠ field s) :
    (Host.Outcome.next t : Host.Outcome State Fault Refusal) ≠ .next s :=
  fun heq => h (congrArg field (Host.Outcome.next.inj heq))

/-- Raising an error changes a block that is not halted. -/
theorem next_raiseError_ne {s : State} (h : s.glob.err = false) (c : Cause) (w : Word) :
    (Host.Outcome.next (raiseError c w s) : Host.Outcome State Fault Refusal) ≠ .next s :=
  next_ne (·.glob.err) (by simp [h])

/-- On the second byte of a pair DEC_BYTE raises or clears HALF (R77). -/
theorem exec_decByte_ne {s : State} (herr : s.glob.err = false) (hh : s.dec.half = true) (b : Byte) :
    exec (.decByte b) s ≠ .next s := by
  rw [exec, execDecByte, if_pos hh]
  intro h
  rcases finishCommand_next.mp h with hok | ⟨c, -, hr⟩
  · obtain ⟨d, out, -, hs⟩ := completePair_cases hok
    have := congrArg (·.dec.half) hs
    simp [hh] at this
  · exact next_raiseError_ne herr c _ (congrArg _ hr.symm)

/-- Every command but NOP changes a block in use; SET_CTRL changes it where its chain bit is the other one. -/
theorem eq_nop_of_exec_unchanged {i : Instr} (h : ∀ s : State, exec i s = .next s) : i = .nop := by
  have hmid := h (midway true)
  cases i with
  | nop => rfl
  | softReset => exact absurd hmid (next_ne (·.glob.chain) (by decide))
  | setCtrl f => exact absurd (h (midway !chainOf f)) (next_ne (·.glob.chain) (by simp [midway]))
  | difSetCols n => exact absurd hmid (next_raiseError_ne rfl .sequence (encode (.difSetCols n)))
  | difSetChans n => exact absurd hmid (next_raiseError_ne rfl .sequence (encode (.difSetChans n)))
  | difSetRows n => exact absurd hmid (next_raiseError_ne rfl .sequence (encode (.difSetRows n)))
  | difSetMode b => exact absurd hmid (next_raiseError_ne rfl .sequence (encode (.difSetMode b)))
  | difStart => exact absurd hmid (next_ne (·.dif.y) (by decide))
  | difSample v => exact absurd hmid (next_ne (·.dif.state) (by simp [midway, advanceScan]))
  | encInit => exact absurd hmid (next_ne (·.enc.mv) (by decide))
  | encSymbol x => exact absurd hmid (next_ne (·.enc.next) (by simp [midway]))
  | encFlush => exact absurd hmid (next_ne (·.enc.mv) (by decide))
  | decInit => exact absurd hmid (next_ne (·.dec.half) (by decide))
  | decCode k => exact absurd hmid (next_raiseError_ne rfl .sequence (encode (.decCode k)))
  | decByte b => exact absurd hmid (exec_decByte_ne rfl rfl b)
  | decEnd => exact absurd hmid (next_raiseError_ne rfl .corruptOdd (encode .decEnd))

/-- Settles O4: the illegal words are those whose opcode has no row, and every command but NOP changes some state. -/
theorem unassignedOpcodesRaise : Obligations.UnassignedOpcodesRaise :=
  ⟨fun w => (decode_illegal_iff w).trans (opcodeRow_eq_none_iff _), unassigned_count,
    fun _ _ hd herr => executeWord_bad herr hd, fun _ => eq_nop_of_exec_unchanged⟩

/-! ### Reserved bits (R52) -/

/-- Settles O5, by the row of the word's opcode. -/
theorem reservedBitsRaise : Obligations.ReservedBitsRaise := by
  intro w m k hr
  obtain ⟨hmet, hfailed⟩ := decode_of_row hr
  exact ⟨hmet, fun hm => ⟨hfailed hm, fun _ herr => executeWord_bad herr (hfailed hm)⟩⟩

/-! ### Codes and byte pairs (20_memory.md R37) -/

theorem highByte_toNat (k : Code) : (highByte k).toNat = k.toNat / 256 := by
  rw [highByte, BitVec.extractLsb'_toNat, Nat.shiftRight_eq_div_pow]
  omega

theorem pairCode_highFirst_toNat (b0 b : Byte) : (pairCode .highFirst b0 b).toNat = 256 * b0.toNat + b.toNat := by
  have h0 := b0.isLt
  have h1 := b.isLt
  have hor : 256 * b0.toNat + b.toNat = 256 * b0.toNat ||| b.toNat := Nat.two_pow_add_eq_or_of_lt (i := 8) h1 _
  rw [hor, pairCode, BitVec.toNat_or, BitVec.toNat_shiftLeft, BitVec.toNat_setWidth, BitVec.toNat_setWidth,
    Nat.shiftLeft_eq]
  congr 1 <;> omega

/-- The bytes of a code pair back to it under the order they were cut by. -/
theorem pairCode_codeBytes (o : ByteOrder) (k : Code) : pairCode o (codeBytes o k).1 (codeBytes o k).2 = k := by
  have hpair : pairCode .highFirst (highByte k) (lowByte k) = k := by
    apply BitVec.eq_of_toNat_eq
    rw [pairCode_highFirst_toNat, highByte_toNat, lowByte_toNat]
    omega
  cases o
  · exact hpair
  · exact hpair

/-- Under the other order they pair to the code with its bytes exchanged. -/
theorem pairCode_codeBytes_other {o o' : ByteOrder} (h : o ≠ o') (k : Code) :
    (pairCode o' (codeBytes o k).1 (codeBytes o k).2).toNat = 256 * (k.toNat % 256) + k.toNat / 256 := by
  rw [← highByte_toNat, ← lowByte_toNat, ← pairCode_highFirst_toNat]
  cases o with
  | highFirst => cases o' with
    | highFirst => exact absurd rfl h
    | lowFirst => rfl
  | lowFirst => cases o' with
    | highFirst => rfl
    | lowFirst => exact absurd rfl h

/-! ### Commands of the Decoder in a run (R76, R77) -/

section DecoderRuns

variable {s t : State}

/-- A run of one command is that command. -/
theorem runCommands_singleton (herr : s.glob.err = false) (i : Instr) :
    runCommands [i] s = mapNext (setInputs []) (exec i s) := by
  rw [runCommands_cons, executeWord_encode herr]
  cases exec i s <;> rfl

theorem exec_decByte_first (hh : s.dec.half = false) (b : Byte) :
    exec (.decByte b) s = .next { s with dec := { s.dec with byte0 := b, half := true } } := by
  simp [exec, execDecByte, hh]

/-- With no byte pending, a code that DEC_CODE takes is taken from its byte pair with the same effect: DecStep does not
look at the pending byte, which the pair sets and clears again. -/
theorem runCommands_pair_of_decCode (hdec : s.dec.Inv) (herr : s.glob.err = false) (hh : s.dec.half = false)
    {b0 b1 : Byte} (h : exec (.decCode (pairCode s.glob.byteOrder b0 b1)) s = .next t) (ht : t.glob.err = false) :
    runCommands [.decByte b0, .decByte b1] s = .next (setInputs [] t) := by
  have hfirst := exec_decByte_first hh b0
  rw [← executeWord_encode herr] at hfirst
  rw [runCommands_cons_next _ hfirst, runCommands_singleton (by exact herr)]
  cases exec_effect h with
  | raised => simp at ht
  | @decCode _ _ d out _ hstep =>
    obtain ⟨hhalf, hbyte, -⟩ := decStep_frame hstep
    have hb0 : s.dec.byte0 = 0#8 := hdec.2.2.2 hh
    have hsame : { d with half := false, byte0 := 0#8 } = d := by
      cases d; simp_all
    simp [exec, execDecByte, completePair, consumeCode, decStep_pending, hstep, Except.map, hsame]

/-- DEC_BYTE raises at most CORRUPT_CODE. -/
theorem exec_decByte_cause {b : Byte} (h : exec (.decByte b) s = .next t) :
    t.glob = s.glob ∨ t.glob.cause = .corruptCode := by
  cases hh : s.dec.half with
  | false =>
    rw [exec_decByte_first hh] at h
    cases h
    exact .inl rfl
  | true =>
    rw [exec, execDecByte, if_pos hh] at h
    rcases finishCommand_next.mp h with hok | ⟨c, hc, rfl⟩
    · obtain ⟨d, out, -, rfl⟩ := completePair_cases hok
      exact .inl rfl
    · exact .inr (decStep_raise (completePair_error hc))

/-- So no number of bytes ends in SEQUENCE. -/
theorem runCommands_decBytes_cause (bs : List Byte) (hs : s.glob.cause ≠ .sequence)
    (h : runCommands (bs.map .decByte) s = .next t) : t.glob.cause ≠ .sequence := by
  induction bs generalizing s with
  | nil => cases h; exact hs
  | cons b bs ih =>
    rw [List.map_cons, runCommands_cons] at h
    cases hw : executeWord (encode (.decByte b)) s with
    | fault f => rw [hw] at h; cases h
    | refused r => rw [hw] at h; cases h
    | next u =>
      rw [hw] at h
      refine ih ?_ h
      cases herr : s.glob.err with
      | true =>
        rw [executeWord_halted _ herr] at hw
        cases hw
        split
        · simp
        · exact hs
      | false =>
        rw [executeWord_encode herr] at hw
        rcases exec_decByte_cause hw with hu | hu
        · rwa [hu]
        · simp [hu]

/-- With a byte pending DEC_CODE raises SEQUENCE, which bytes do not. -/
theorem runCommands_decBytes_ne_decCode (bs : List Byte) (k : Code) (hs : s.glob.cause ≠ .sequence)
    (herr : s.glob.err = false) (hh : s.dec.half = true) :
    runCommands (bs.map .decByte) s ≠ runCommands [.decCode k] s := by
  have hcode : exec (.decCode k) s = .next (raiseError .sequence (encode (.decCode k)) s) := by
    simp [exec, execDecCode, hh]
  rw [runCommands_singleton herr, hcode]
  exact fun h => runCommands_decBytes_cause bs hs h rfl

end DecoderRuns

/-! ### The pseudo-instructions (R54) -/

theorem fits_of_lt {w n : Nat} (h : n < 2 ^ w) : fits w n = true := decide_eq_true h

theorem assembleLine_of_wf {l : AsmLine} (h : l.wf = true) : assembleLine l = some (AsmLine.expand l) := if_pos h

theorem assembleLine_difImage {rows cols chans mode : Nat} (hr : rows < 2 ^ 24) (hc : cols < 2 ^ 24)
    (hch : chans < 2 ^ 24) (hm : mode < 2 ^ 1) :
    assembleLine (.difImage rows cols chans mode) =
      some [.difSetRows (BitVec.ofNat 24 rows), .difSetCols (BitVec.ofNat 24 cols),
        .difSetChans (BitVec.ofNat 24 chans), .difSetMode (BitVec.ofNat 1 mode), .difStart] :=
  assembleLine_of_wf (by rw [AsmLine.wf, fits_of_lt hr, fits_of_lt hc, fits_of_lt hch, fits_of_lt hm]; rfl)

/-- A list of bytes that is not empty is a well-formed operand list. -/
theorem bytes_wf {vs : List Nat} (hne : vs ≠ []) (h : ∀ v ∈ vs, v < 256) :
    (!vs.isEmpty && vs.all (fits 8)) = true := by
  have hall : vs.all (fits 8) = true := List.all_eq_true.mpr fun v hv => fits_of_lt (h v hv)
  simpa [hall] using hne

theorem assembleLine_decCodeBytes (k : Code) (o : ByteOrder) :
    assembleLine (.decCodeBytes k.toNat (byteOrderBit o).toNat) =
      some [.decByte (codeBytes o k).1, .decByte (codeBytes o k).2] := by
  have hwf : (AsmLine.decCodeBytes k.toNat (byteOrderBit o).toNat).wf = true := by
    rw [AsmLine.wf, fits_of_lt k.isLt, fits_of_lt (byteOrderBit o).isLt]
    rfl
  rw [assembleLine_of_wf hwf]
  cases o <;> simp [AsmLine.expand, byteOrderBit]

/-- Settles O59: DEC_CODE_BYTES is the byte pair of its code, which the Decoder reads by the order of BYTE_ORDER. -/
theorem pseudoInstructionsExpand : Obligations.PseudoInstructionsExpand := by
  refine ⟨fun _ _ _ _ hr hc hch hm => assembleLine_difImage hr hc hch hm,
    fun vs hne h => ⟨assembleLine_of_wf (l := .difSamples vs) (bytes_wf hne h),
      assembleLine_of_wf (l := .encSymbols vs) (bytes_wf hne h)⟩,
    fun k => ⟨_, _, _, _, rfl, rfl, assembleLine_decCodeBytes k .highFirst, assembleLine_decCodeBytes k .lowFirst⟩,
    fun s k o is hi hsafe his => ?_⟩
  rw [assembleLine_decCodeBytes, Option.some.injEq] at his
  subst his
  obtain ⟨⟨hcause, -⟩, -, -, -, hdec⟩ := hi
  refine ⟨fun hh => ⟨pairCode s.glob.byteOrder (codeBytes o k).1 (codeBytes o k).2,
    fun ho => ho ▸ pairCode_codeBytes o k, fun ho => pairCode_codeBytes_other ho k, fun t hrun ht => ?_⟩,
    fun hh => runCommands_decBytes_ne_decCode [_, _] k (by simp [(hcause hsafe).1]) hsafe hh⟩
  rw [runCommands_singleton hsafe] at hrun
  cases hexec : exec (.decCode (pairCode s.glob.byteOrder (codeBytes o k).1 (codeBytes o k).2)) s with
  | next u =>
    rw [hexec] at hrun
    cases hrun
    exact runCommands_pair_of_decCode hdec hsafe hh hexec ht
  | fault f => rw [hexec] at hrun; cases hrun
  | refused r => rw [hexec] at hrun; cases hrun

end Sys2Proof.Proofs
end

section
/-! PROOFS. Dispatch and the global commands (40_control.md): Execute, NOP, SOFT_RESET and SET_CTRL. -/

namespace Sys2Proof.Proofs

open Sys2Proof.Machine

/-! ### The word of a command that was decoded (R47 to R52) -/

section Words

variable {w : Word} {i : Instr} {op : Nat}

/-- A word is the packing of its opcode and its payload, whatever they are found to be. -/
theorem packWord_of_fields {p : BitVec 24} (hop : (opcodeField w).toNat = op) (hp : imm24Field w = p) :
    packWord (BitVec.ofNat 8 op) p = w := by
  rw [← hop, ← hp, BitVec.ofNat_toNat, BitVec.setWidth_eq, packWord_fields]

/-- Format Z: a word that decodes has the payload 0. -/
theorem encode_of_decodeZ {c : Instr} (hop : (opcodeField w).toNat = op)
    (hc : encode c = packWord (BitVec.ofNat 8 op) 0#24) (h : decodeZ w c = .ok i) : encode i = w := by
  rw [decodeZ] at h
  split at h
  · next hzero =>
    cases h
    exact hc.trans (packWord_of_fields hop hzero)
  · cases h

/-- Format I24: the payload is the operand. -/
theorem encode_of_decodeI24 {c : Dim → Instr} (hop : (opcodeField w).toNat = op)
    (hc : ∀ n, encode (c n) = packWord (BitVec.ofNat 8 op) n) (h : decodeI24 w c = .ok i) : encode i = w := by
  cases h
  exact (hc _).trans (packWord_of_fields hop rfl)

/-- Formats B1, B2, I8 and I16: with the `m` reserved bits 0 the payload is the `n`-bit operand, zero-extended. -/
theorem encode_of_decodeOperand {n m : Nat} {c : BitVec n → Instr} (hnm : n + m = 24)
    (hop : (opcodeField w).toNat = op) (hc : ∀ v, encode (c v) = packWord (BitVec.ofNat 8 op) (v.setWidth 24))
    (h : (if w.extractLsb' n m = 0#m then Decoded.ok (c (w.extractLsb' 0 n)) else .bad .reservedBits) = .ok i) :
    encode i = w := by
  split at h
  · next hres =>
    cases h
    rw [hc, extract_of_payload w 0 n (by omega)]
    rw [extract_of_payload w n m (by omega)] at hres
    exact packWord_of_fields hop (payload_of_low _ n m hnm hres).symm
  · cases h

/-- A word that decodes is the word of its command: its payload is the operand of its opcode's format. -/
theorem encode_of_decode (h : decode w = .ok i) : encode i = w := by
  unfold decode at h
  split at h
  case h_1 hop | h_2 hop | h_8 hop | h_10 hop | h_12 hop | h_13 hop | h_16 hop => exact encode_of_decodeZ hop rfl h
  case h_4 hop | h_5 hop | h_6 hop => exact encode_of_decodeI24 hop (fun _ => rfl) h
  case h_7 hop => exact encode_of_decodeOperand (n := 1) (m := 23) rfl hop (fun _ => rfl) h
  case h_3 hop => exact encode_of_decodeOperand (n := 2) (m := 22) rfl hop (fun _ => rfl) h
  case h_9 hop | h_11 hop | h_15 hop => exact encode_of_decodeOperand (n := 8) (m := 16) rfl hop (fun _ => rfl) h
  case h_14 hop => exact encode_of_decodeOperand (n := 16) (m := 8) rfl hop (fun _ => rfl) h
  case h_17 => cases h

end Words

/-! ### Execute (R55) -/

section Dispatch

variable {w m k : Word} {op : Byte} {s : State}

/-- A halted block discards every word but SOFT_RESET's. -/
theorem executeWord_discarded (herr : s.glob.err = true) (hw : w ≠ softResetWord) : executeWord w s = .next s := by
  rw [executeWord_halted w herr, if_neg hw]

/-- A word whose opcode has no row raises ILLEGAL_OPCODE (R51). -/
theorem executeWord_unassigned (herr : s.glob.err = false) (hr : opcodeRow (opcodeField w) = none) :
    executeWord w s = .next (raiseError .illegalOpcode w s) :=
  executeWord_bad herr ((decode_illegal_iff w).mpr hr)

/-- A word that fails the mask of its opcode's row raises RESERVED_BITS (R52). -/
theorem executeWord_reserved (herr : s.glob.err = false) (hop : opcodeField w = op)
    (hr : opcodeRow op = some (m, k)) (hm : w &&& k ≠ m) : executeWord w s = .next (raiseError .reservedBits w s) :=
  executeWord_bad herr ((decode_of_row (hop ▸ hr)).2 hm)

/-- A word with the opcode of a format Z command raises RESERVED_BITS unless it is that command's word. -/
theorem executeWord_reservedZ (herr : s.glob.err = false) (hop : opcodeField w = op)
    (hr : opcodeRow op = some (m, BitVec.allOnes 32)) (hw : w ≠ m) :
    executeWord w s = .next (raiseError .reservedBits w s) :=
  executeWord_reserved herr hop hr (by rwa [BitVec.and_allOnes])

end Dispatch

/-- Settles O6: the halt, the opcode and the mask in that order, then the command the word decodes to. -/
theorem executeFollowsTheDispatch : Obligations.ExecuteFollowsTheDispatch := by
  intro w s
  refine ⟨executeWord_halted w, executeWord_unassigned, fun m k herr hr hm => executeWord_reserved herr rfl hr hm,
    fun m k herr hr hm => ?performed⟩
  case performed =>
    obtain ⟨i, hd, hop⟩ := (decode_of_row hr).1 hm
    exact ⟨i, hop, encode_of_decode hd, executeWord_ok herr hd⟩

/-! ### NOP (R56) -/

/-- The word of NOP changes nothing: it is NOP, or it is discarded in the halt. -/
theorem executeWord_nop (s : State) : executeWord 0x00000000#32 s = .next s := by
  cases herr : s.glob.err with
  | true => exact executeWord_discarded herr (by decide)
  | false => exact executeWord_encode herr .nop

/-- Settles O21: a nonzero payload makes the word another than NOP's. -/
theorem nopChangesNothing : Obligations.NopChangesNothing := by
  refine fun s => ⟨rfl, executeWord_nop s, fun w hop himm herr => ?_⟩
  have hw : w ≠ 0x00000000#32 := by
    rintro rfl
    exact himm rfl
  exact executeWord_reservedZ herr hop rfl hw

/-! ### SOFT_RESET (R57) -/

/-- The word of SOFT_RESET is performed in every state, the halt included. -/
theorem executeWord_softReset (s : State) : executeWord 0x01000000#32 s = .next (softReset s) := by
  cases herr : s.glob.err with
  | true => exact executeWord_halted softResetWord herr
  | false => exact executeWord_encode herr .softReset

/-- Settles O16: the four units are at reset, and only the word of SOFT_RESET meets its row's mask. -/
theorem softResetClearsEveryField : Obligations.SoftResetClearsEveryField := by
  refine ⟨fun s => ⟨softReset s, rfl, executeWord_softReset s,
    holdsResetValues_of_units (softReset_glob s) (softReset_dif s) (softReset_enc s) (softReset_dec s), ?status,
    softReset_difOut s, softReset_encOut s, softReset_decOut s, softReset_params s, softReset_inputs s,
    softReset_rdOut s, softReset_draws s⟩,
    fun s w hop hw => ⟨fun herr => executeWord_reservedZ herr hop rfl hw,
      fun herr => executeWord_discarded herr hw⟩⟩
  case status => simp [statusWord, dictFull, fieldAt, causeCode, difStateBits]

/-! ### SET_CTRL (R58) -/

/-- A word with a zero-extended operand is the command's word with operand 0 and the operand in its low bits. -/
theorem packWord_setWidth (op : Byte) {n : Nat} (v : BitVec n) (h : n ≤ 24) :
    packWord op (v.setWidth 24) = packWord op 0#24 ||| v.setWidth 32 := by
  rw [packWord, packWord, BitVec.setWidth_setWidth (by omega)]
  simp

/-- CTRL shows the operand that SET_CTRL wrote. -/
theorem ctrlFields_eq (f : BitVec 2) :
    fieldAt 0 (BitVec.ofBool (chainOf f)) ||| fieldAt 1 (byteOrderBit (byteOrderOf f)) = f.setWidth 32 := by
  revert f
  decide

theorem byteOrderOf_eq_lowFirst_iff (f : BitVec 2) : byteOrderOf f = .lowFirst ↔ f.getLsbD 1 = true := by
  unfold byteOrderOf
  split <;> simp_all

/-- A word of SET_CTRL meets the mask of its row only if its payload is below 4. -/
theorem setCtrl_mask_fails {w : Word} (hop : opcodeField w = 0x02#8) (h : 4 ≤ (imm24Field w).toNat) :
    w &&& 0xFFFFFFFC#32 ≠ 0x02000000#32 := by
  intro hm
  rw [← packWord_fields w, hop] at hm
  have hres := congrArg BitVec.toNat ((mask_iff 0x02#8 (imm24Field w) 2 22 rfl).mp hm)
  rw [BitVec.extractLsb'_toNat, Nat.shiftRight_eq_div_pow] at hres
  have := (imm24Field w).isLt
  simp only [BitVec.toNat_ofNat, Nat.zero_mod] at hres
  omega

/-- Settles O22: the two control fields take the operand's bits, and a payload from 4 has a reserved bit. -/
theorem setCtrlWritesTheControlFields : Obligations.SetCtrlWritesTheControlFields :=
  fun _ => ⟨fun f => ⟨packWord_setWidth 0x02#8 f (by decide), _, rfl, rfl, rfl, byteOrderOf_eq_lowFirst_iff f,
      ctrlFields_eq f⟩,
    fun _ hop h herr => executeWord_reserved herr hop rfl (setCtrl_mask_fails hop h)⟩

end Sys2Proof.Proofs
end

section
/-! PROOFS. The Differencer (41_differencer.md): configuration, the sample command, chaining, and whole images. -/

namespace Sys2Proof.Proofs

open Sys2Proof.Machine

/-! ### Configuration (R61, R62) -/

section Configuration

variable {i : Instr} {n : Dim} {limit : Nat} {d : Dif} {s : State}

theorem setDimension_run (h : s.dif.state = .run) : setDimension i n limit d s = raiseError .sequence (encode i) s :=
  if_pos h

theorem setDimension_zero (h : s.dif.state ≠ .run) (hn : n = 0#24) :
    setDimension i n limit d s = raiseError .config (encode i) s := by
  rw [setDimension, if_neg h, if_pos hn]

theorem setDimension_above (h : s.dif.state ≠ .run) (hn : limit < n.toNat) :
    setDimension i n limit d s = raiseError .config (encode i) s := by
  rw [setDimension, if_neg h, if_pos hn, ite_self]

theorem setDimension_legal (h : s.dif.state ≠ .run) (hn : n ≠ 0#24) (hle : n.toNat ≤ limit) :
    setDimension i n limit d s = { s with dif := d } := by
  rw [setDimension, if_neg h, if_neg hn, if_neg (Nat.not_lt.mpr hle)]

end Configuration

/-- Settles O23: the four outcomes of `setDimension`, at the limit of each field. -/
theorem dimensionCommandsWriteTheirField : Obligations.DimensionCommandsWriteTheirField := by
  intro n s
  have hword (op : Byte) : packWord op n = packWord op 0#24 ||| n.setWidth 32 := by
    simpa using packWord_setWidth op n (by decide)
  have hmax : n.toNat ≤ 16777215 := Nat.le_of_lt_succ n.isLt
  refine ⟨⟨hword _, hword _, hword _⟩, fun h => ?run, fun h hn => ?zero,
    fun h hn => congrArg _ (setDimension_above h hn), fun h hn => ⟨?cols, ?rows, fun hle => ?chans⟩⟩
  case run =>
    exact ⟨congrArg _ (setDimension_run h), congrArg _ (setDimension_run h), congrArg _ (setDimension_run h)⟩
  case zero =>
    exact ⟨congrArg _ (setDimension_zero h hn), congrArg _ (setDimension_zero h hn),
      congrArg _ (setDimension_zero h hn)⟩
  case cols => exact congrArg _ (setDimension_legal h hn hmax)
  case rows => exact congrArg _ (setDimension_legal h hn hmax)
  case chans => exact congrArg _ (setDimension_legal h hn hle)

/-- A payload that does not fit the `n` operand bits fails the mask of its row (R52). -/
theorem operand_mask_fails {w : Word} {op : Byte} (hop : opcodeField w = op) (n m : Nat) (hnm : n + m = 24)
    (h : 2 ^ n ≤ (imm24Field w).toNat) : w &&& (BitVec.allOnes 32 <<< n) ≠ packWord op 0#24 := by
  intro hm
  rw [← packWord_fields w, hop] at hm
  have hres := congrArg BitVec.toNat ((mask_iff op (imm24Field w) n m hnm).mp hm)
  have hlt : (imm24Field w).toNat / 2 ^ n < 2 ^ m :=
    Nat.div_lt_of_lt_mul (by rw [← Nat.pow_add, hnm]; exact (imm24Field w).isLt)
  rw [BitVec.extractLsb'_toNat, Nat.shiftRight_eq_div_pow, Nat.mod_eq_of_lt hlt, BitVec.toNat_ofNat,
    Nat.zero_mod] at hres
  exact Nat.not_lt.mpr h ((Nat.div_eq_zero_iff_lt (Nat.two_pow_pos n)).mp hres)

theorem modeBit_modeOf (b : BitVec 1) : modeBit (modeOf b) = b := by
  revert b
  decide

theorem exec_difSetMode_run {s : State} (h : s.dif.state = .run) (b : BitVec 1) :
    exec (.difSetMode b) s = .next (raiseError .sequence (encode (.difSetMode b)) s) := by
  rw [exec, execDifSetMode, if_pos h, finishCommand_raise]

theorem exec_difSetMode_ok {s : State} (h : s.dif.state ≠ .run) (b : BitVec 1) :
    exec (.difSetMode b) s = .next { s with dif := { s.dif with mode := modeOf b } } := by
  rw [exec, execDifSetMode, if_neg h, finishCommand_ok]

/-- Settles O24: the mode takes the operand's bit, and a payload from 2 has a reserved bit. -/
theorem modeCommandWritesTheMode : Obligations.ModeCommandWritesTheMode :=
  fun _ => ⟨fun b => ⟨packWord_setWidth 0x13#8 b (by decide), fun h => exec_difSetMode_run h b,
      fun h => ⟨_, exec_difSetMode_ok h b, rfl, modeBit_modeOf b⟩⟩,
    fun _ hop h herr => executeWord_reserved herr hop rfl (operand_mask_fails hop 1 23 rfl h)⟩

/-! ### DIF_START (R63) -/

/-- The Differencer at the first position of an image. -/
def started (d : Dif) : Dif := { d with x := 0#24, y := 0#24, c := 0#24, state := .run, leftRow := [] }

/-- The dimensions are configured. -/
abbrev Configured (d : Dif) : Prop := d.cols ≠ 0#24 ∧ d.chans ≠ 0#24 ∧ d.rows ≠ 0#24

theorem exec_difStart {s : State} (h : Configured s.dif) :
    exec .difStart s = .next { s with dif := started s.dif } := by
  obtain ⟨hcols, hchans, hrows⟩ := h
  rw [exec, execDifStart, if_neg (by simp [hcols, hchans, hrows]), finishCommand_ok, started]

/-- Settles O25: the two ways DIF_START ends. -/
theorem startBeginsTheScan : Obligations.StartBeginsTheScan :=
  fun s => ⟨rfl, fun h => by rw [exec, execDifStart, if_pos h, finishCommand_raise],
    fun hcols hchans hrows => ⟨_, exec_difStart ⟨hcols, hchans, hrows⟩, rfl⟩⟩

theorem started_inv {s : State} (hi : Inv s) (h : Configured s.dif) : Inv { s with dif := started s.dif } :=
  effect_inv hi (exec_effect (exec_difStart h))

/-! ### The symbol of a sample (R64, R67) -/

theorem dif_inv {s : State} (hi : Inv s) : s.dif.Inv s.params.maxChans := hi.2.2.1

/-- While an image is scanned the channel is one of the image's (10_state.md R20). -/
theorem channel_lt {m : Nat} {d : Dif} (hi : d.Inv m) (hrun : d.state = .run) : d.c.toNat < d.chans.toNat :=
  (hi.2.1 hrun).2.2

theorem absDifference_toNat (v l : Byte) :
    (absDifference v l).toNat = ((v.toNat : Int) - (l.toNat : Int)).natAbs := by
  rw [absDifference, BitVec.toNat_ofNat]
  omega

theorem modDifference_toNat (v l : Byte) :
    ((modDifference v l).toNat : Int) = ((v.toNat : Int) - (l.toNat : Int)) % 256 := by
  rw [modDifference, BitVec.toNat_ofNat]
  omega

/-- Whether a sample yields a symbol: outside column 0 always, in column 0 in INVERTIBLE only. -/
abbrev Yields (d : Dif) : Prop := d.x ≠ 0#24 ∨ d.mode = .invertible

/-- The value a sample's symbol has: the sample in column 0, elsewhere its difference from its left neighbour. A sample
that yields no symbol has one too, which goes nowhere. -/
theorem exists_sampleSymbol {m : Nat} {d : Dif} (hi : d.Inv m) (hrun : d.state = .run) (v : Byte) :
    ∃ a, sampleSymbol v m d = .ok (if Yields d then some a else none) ∧ (d.x = 0#24 → a = v) ∧
      (d.x ≠ 0#24 → ∃ l, readStore d.left d.c = some l ∧ a = difference d.mode v l) := by
  by_cases hx : d.x = 0#24
  · refine ⟨v, ?_, fun _ => rfl, fun h => absurd hx h⟩
    rw [sampleSymbol, if_pos hx]
    split <;> next hm => simp [hx, hm]
  · obtain ⟨l, hl⟩ := readLeft_of_inv hi hrun hx
    obtain ⟨-, -, hread⟩ := readLeft_ok.mp hl
    exact ⟨_, by simp [sampleSymbol, hx, hl], fun h => absurd h hx, fun _ => ⟨l, hread, rfl⟩⟩

/-! ### The record of a sample (R64) -/

/-- The Differencer with the sample in LEFT, before the scan moves. -/
def recorded (v : Byte) (d : Dif) : Dif :=
  { d with left := writeStore d.left d.c v, leftRow := if d.x = 0#24 then writeStore d.leftRow d.c () else d.leftRow }

section Recorded

variable (v : Byte) (d : Dif)

@[simp] theorem recorded_cols : (recorded v d).cols = d.cols := rfl
@[simp] theorem recorded_chans : (recorded v d).chans = d.chans := rfl
@[simp] theorem recorded_rows : (recorded v d).rows = d.rows := rfl
@[simp] theorem recorded_mode : (recorded v d).mode = d.mode := rfl
@[simp] theorem recorded_state : (recorded v d).state = d.state := rfl
@[simp] theorem recorded_x : (recorded v d).x = d.x := rfl
@[simp] theorem recorded_y : (recorded v d).y = d.y := rfl
@[simp] theorem recorded_c : (recorded v d).c = d.c := rfl
@[simp] theorem recorded_left : (recorded v d).left = writeStore d.left d.c v := rfl

variable {d}

/-- The entry of LEFT that a scan uses exists, so the sample is recorded. -/
theorem recordSample_of_inv {m : Nat} (hi : d.Inv m) (hrun : d.state = .run) :
    recordSample v m d = .ok (recorded v d) :=
  recordSample_ok.mpr ⟨(channel_lt hi hrun).trans_le hi.1, rfl⟩

end Recorded

/-! ### The scan position after a sample (R64) -/

section Positions

variable {d : Dif}

theorem advanceScan_nextChannel (hc : d.c.toNat + 1 < d.chans.toNat) : advanceScan d = { d with c := d.c + 1#24 } :=
  if_pos hc

theorem advanceScan_nextColumn (hc : ¬ d.c.toNat + 1 < d.chans.toNat) (hx : d.x.toNat + 1 < d.cols.toNat) :
    advanceScan d = { d with c := 0#24, x := d.x + 1#24 } := by
  rw [advanceScan, if_neg hc, if_pos hx]

theorem advanceScan_nextRow (hc : ¬ d.c.toNat + 1 < d.chans.toNat) (hx : ¬ d.x.toNat + 1 < d.cols.toNat)
    (hy : d.y.toNat + 1 < d.rows.toNat) :
    advanceScan d = { d with c := 0#24, x := 0#24, y := d.y + 1#24, leftRow := [] } := by
  rw [advanceScan, if_neg hc, if_neg hx, if_pos hy]

theorem advanceScan_last (hc : ¬ d.c.toNat + 1 < d.chans.toNat) (hx : ¬ d.x.toNat + 1 < d.cols.toNat)
    (hy : ¬ d.y.toNat + 1 < d.rows.toNat) :
    advanceScan d = { d with c := 0#24, x := 0#24, y := 0#24, state := .done, leftRow := [] } := by
  rw [advanceScan, if_neg hc, if_neg hx, if_neg hy]

end Positions

/-! ### DIF_SAMPLE (R64) -/

section Sample

variable {s t : State} {v a : Byte} {sym : Option Byte}

theorem exec_difSample_not_run (h : s.dif.state ≠ .run) (v : Byte) :
    exec (.difSample v) s = .next (raiseError .sequence (encode (.difSample v)) s) := by
  rw [exec, execDifSample, takeSample, if_pos h, finishCommand_raise]

/-- A symbol that would go to a flushed Encoder raises SEQUENCE. -/
theorem exec_difSample_ended (hrun : s.dif.state = .run)
    (hsym : sampleSymbol v s.params.maxChans s.dif = .ok (some a)) (hchain : s.glob.chain = true)
    (hended : s.enc.ended = true) :
    exec (.difSample v) s = .next (raiseError .sequence (encode (.difSample v)) s) := by
  simp [exec, execDifSample, takeSample, hrun, hsym, hchain, hended]

/-- Every other sample of a running scan is recorded, moves the scan, and delivers its symbol. -/
theorem exec_difSample_delivers (hi : Inv s) (hrun : s.dif.state = .run)
    (hsym : sampleSymbol v s.params.maxChans s.dif = .ok sym)
    (hend : ¬ (sym.isSome = true ∧ s.glob.chain = true ∧ s.enc.ended = true)) :
    ∃ t, exec (.difSample v) s = .next t ∧
      deliverSymbol sym { s with dif := advanceScan (recorded v s.dif) } = .ok t := by
  obtain ⟨-, -, -, henc, -⟩ := id hi
  obtain ⟨t, ht⟩ := deliverSymbol_ok (s := { s with dif := advanceScan (recorded v s.dif) }) sym henc.1.1
  have htake : takeSample v s = .ok t := by
    rw [takeSample, if_neg (not_not.mpr hrun), hsym]
    simp only
    rw [if_neg (by simpa [and_assoc] using hend), recordSample_of_inv v (dif_inv hi) hrun]
    exact ht
  exact ⟨t, by rw [exec, execDifSample, htake, finishCommand_ok], ht⟩

/-- Delivering a symbol changes only the Encoder, ENC_OUT and DIF_OUT. -/
theorem deliverSymbol_frame (h : deliverSymbol sym s = .ok t) :
    t.dif = s.dif ∧ t.glob = s.glob ∧ t.dec = s.dec ∧ t.decOut = s.decOut ∧ t.params = s.params ∧
      t.inputs = s.inputs ∧ t.rdOut = s.rdOut ∧ t.draws = s.draws := by
  rcases deliverSymbol_cases h with ⟨-, rfl⟩ | ⟨d, -, -, rfl⟩ | ⟨d, e, out, -, -, -, rfl⟩ <;> simp

theorem deliverSymbol_none (h : deliverSymbol none s = .ok t) : t = s := (Except.ok.inj h).symm

theorem deliverSymbol_unchained (h : deliverSymbol (some a) s = .ok t) (hchain : s.glob.chain = false) :
    t = emitDif a s := by
  simpa [deliverSymbol, hchain] using h.symm

theorem deliverSymbol_chained (h : deliverSymbol (some a) s = .ok t) (hchain : s.glob.chain = true) :
    ∃ e out, encStep a s.enc = .ok (e, out) ∧ t = { s with enc := e, encOut := s.encOut ++ out } := by
  rw [deliverSymbol, if_pos hchain] at h
  exact consumeSymbol_cases h

end Sample

/-- Settles O26: the two SEQUENCE checks, and else the sample recorded, the scan moved and the symbol delivered. -/
theorem sampleStepsTheScan : Obligations.SampleStepsTheScan := by
  intro s v hi
  refine ⟨packWord_setWidth 0x15#8 v (by decide), fun h => exec_difSample_not_run h v,
    fun hrun hy hchain hended => ?ended, fun hrun hend => ?taken⟩
  all_goals obtain ⟨a, hsym, hcol0, hcol⟩ := exists_sampleSymbol (dif_inv hi) hrun v
  case ended =>
    rw [if_pos hy] at hsym
    exact exec_difSample_ended hrun hsym hchain hended
  case taken =>
    obtain ⟨t, hexec, hdel⟩ := exec_difSample_delivers hi hrun hsym (by simpa using hend)
    obtain ⟨hdif, hframe⟩ := deliverSymbol_frame hdel
    simp only at hdif
    refine ⟨t, a, hexec, hcol0, fun hx => ?value, ?same, fun c hc => ?other, ?config, fun hc => ?channel,
      fun hc hx => ?column, fun hc hx hy => ?row, fun hc hx hy => ?last, fun hx hm => ?nothing,
      fun hy hchain => ?unchained, fun hy hchain => ?chained, hframe⟩
    case value =>
      obtain ⟨l, hl, rfl⟩ := hcol hx
      exact ⟨l, hl, fun hm => by rw [hm]; exact absDifference_toNat v l,
        fun hm => by rw [hm]; exact modDifference_toNat v l⟩
    case same => simp [hdif]
    case other => rw [hdif, advanceScan_left]; exact readStore_writeStore_other _ _ _ _ hc
    case config => simp [hdif]
    case channel => rw [hdif, advanceScan_nextChannel (d := recorded v s.dif) hc]; exact ⟨hrun, rfl, rfl, rfl⟩
    case column => rw [hdif, advanceScan_nextColumn (d := recorded v s.dif) hc hx]; exact ⟨hrun, rfl, rfl, rfl⟩
    case row => rw [hdif, advanceScan_nextRow (d := recorded v s.dif) hc hx hy]; exact ⟨hrun, rfl, rfl, rfl⟩
    case last => rw [hdif, advanceScan_last (d := recorded v s.dif) hc hx hy]; exact ⟨rfl, rfl, rfl, rfl⟩
    case nothing =>
      rw [if_neg (by simp [hx, hm])] at hdel
      obtain rfl := deliverSymbol_none hdel
      exact ⟨rfl, rfl, rfl⟩
    case unchained =>
      rw [if_pos hy] at hdel
      obtain rfl := deliverSymbol_unchained hdel hchain
      exact ⟨rfl, rfl, rfl⟩
    case chained =>
      rw [if_pos hy] at hdel
      obtain ⟨e, out, hstep, rfl⟩ := deliverSymbol_chained hdel hchain
      exact ⟨rfl, out, hstep, rfl⟩

/-! ### Chaining (R65) -/

theorem exec_encSymbol_step {s : State} {x : Byte} {e : Enc} {out : List Code} (hended : s.enc.ended = false)
    (h : encStep x s.enc = .ok (e, out)) :
    exec (.encSymbol x) s = .next { s with enc := e, encOut := s.encOut ++ out } := by
  simp [exec, execEncSymbol, consumeSymbol, hended, h]

/-- Settles O27: both commands are the one EncStep of the symbol. -/
theorem chainedSymbolActsAsEncSymbol : Obligations.ChainedSymbolActsAsEncSymbol := by
  intro s t v a hi hrun hchain hended hsym hexec
  obtain ⟨u, hu, hdel⟩ := exec_difSample_delivers hi hrun hsym (by simp [hended])
  obtain rfl := Host.Outcome.next.inj (hexec.symm.trans hu)
  obtain ⟨e, out, hstep, rfl⟩ := deliverSymbol_chained hdel hchain
  exact ⟨_, exec_encSymbol_step hended hstep, rfl, rfl, rfl, rfl⟩


/-! ### Scans: the samples the Differencer takes and the symbols they yield (R64) -/

/-- From `d`, in a state of the invariant, the Differencer takes the samples `vs` one after another, which yield the
symbols `syms`, and ends at `e` (`runCommands_scans`). Where the symbols go is left out: that is `Delivered`. -/
inductive Scans (m : Nat) : Dif → List Byte → List Byte → Dif → Prop where
  | nil (d : Dif) : Scans m d [] [] d
  | cons {d e : Dif} {v : Byte} {sym : Option Byte} {vs syms : List Byte} (hrun : d.state = .run)
      (hsym : sampleSymbol v m d = .ok sym) (hrest : Scans m (advanceScan (recorded v d)) vs syms e) :
      Scans m d (v :: vs) (sym.toList ++ syms) e

section Scans

variable {m : Nat} {d e f : Dif} {vs ws syms syms2 : List Byte}

theorem Scans.append (h : Scans m d vs syms e) (h2 : Scans m e ws syms2 f) :
    Scans m d (vs ++ ws) (syms ++ syms2) f := by
  induction h with
  | nil => exact h2
  | cons hrun hsym _ ih =>
    rw [List.cons_append, List.append_assoc]
    exact .cons hrun hsym (ih h2)

/-- The samples of a scan can be taken in two parts. -/
theorem Scans.split (h : Scans m d (vs ++ ws) syms f) :
    ∃ e as bs, Scans m d vs as e ∧ Scans m e ws bs f ∧ syms = as ++ bs := by
  induction vs generalizing d syms with
  | nil => exact ⟨d, [], syms, .nil d, h, rfl⟩
  | cons v vs ih =>
    cases h with
    | cons hrun hsym hrest =>
      obtain ⟨e, as, bs, hvs, hws, rfl⟩ := ih hrest
      exact ⟨e, _, bs, .cons hrun hsym hvs, hws, (List.append_assoc ..).symm⟩

/-- A scan of nothing stays, and any other begins in RUN. -/
theorem Scans.nil_or_run (h : Scans m d vs syms e) :
    (vs = [] ∧ syms = [] ∧ e = d) ∨ (vs ≠ [] ∧ d.state = .run) := by
  cases h with
  | nil => exact .inl ⟨rfl, rfl, rfl⟩
  | cons hrun => exact .inr ⟨List.cons_ne_nil _ _, hrun⟩

/-- A loop whose rounds each take their own samples, from one position to the next. -/
theorem Scans.loop {At : Nat → Dif → Prop} {samples symbols : Nat → List Byte} (n : Nat)
    (round : ∀ i < n, ∀ d, At i d → ∃ e, Scans m d (samples i) (symbols i) e ∧ At (i + 1) e) (h : At 0 d) :
    ∃ e, Scans m d ((List.range n).flatMap samples) ((List.range n).flatMap symbols) e ∧ At n e := by
  induction n with
  | zero => exact ⟨d, .nil d, h⟩
  | succ n ih =>
    obtain ⟨e, hscan, hat⟩ := ih fun i hi => round i (Nat.lt_succ_of_lt hi)
    obtain ⟨f, hlast, hnext⟩ := round n (Nat.lt_succ_self n) e hat
    refine ⟨f, ?_, hnext⟩
    simp only [List.range_succ, List.flatMap_append, List.flatMap_singleton]
    exact hscan.append hlast

end Scans

/-! ### The symbols of a grid (R59, R60) -/

/-- The symbol of the sample at row `y`, column `x` and channel `c`, if it yields one. -/
def gridSymbol (mode : Mode) (g : Grid) (y x c : Nat) : Option Byte :=
  if x = 0 then
    match mode with
    | .reference => none
    | .invertible => some (g y 0 c)
  else some (difference mode (g y x c) (g y (x - 1) c))

def pixelSymbols (mode : Mode) (chans : Nat) (g : Grid) (y x : Nat) : List Byte :=
  (List.range chans).flatMap fun c => (gridSymbol mode g y x c).toList

def rowSymbols (mode : Mode) (cols chans : Nat) (g : Grid) (y : Nat) : List Byte :=
  (List.range cols).flatMap (pixelSymbols mode chans g y)

/-- The symbols of an image in either mode. -/
def imageSymbols (mode : Mode) (rows cols chans : Nat) (g : Grid) : List Byte :=
  (List.range rows).flatMap (rowSymbols mode cols chans g)

section GridSymbols

variable {mode : Mode} {rows cols chans : Nat} {g : Grid} {y x : Nat}

theorem gridSymbol_zero {c : Nat} : gridSymbol mode g y 0 c = if mode = .invertible then some (g y 0 c) else none := by
  cases mode <;> rfl

theorem gridSymbol_of_ne_zero {c : Nat} (hx : x ≠ 0) :
    gridSymbol mode g y x c = some (difference mode (g y x c) (g y (x - 1) c)) := if_neg hx

theorem pixelSymbols_reference_zero : pixelSymbols .reference chans g y 0 = [] :=
  List.flatMap_eq_nil_iff.mpr fun _ _ => rfl

theorem pixelSymbols_invertible_zero :
    pixelSymbols .invertible chans g y 0 = (List.range chans).map fun c => g y 0 c :=
  List.map_eq_flatMap.symm

theorem pixelSymbols_of_ne_zero (hx : x ≠ 0) :
    pixelSymbols mode chans g y x = (List.range chans).map fun c => difference mode (g y x c) (g y (x - 1) c) := by
  simp only [pixelSymbols, gridSymbol_of_ne_zero hx, Option.toList_some, List.map_eq_flatMap]

/-- A row is its column 0 and then the differences. -/
theorem rowSymbols_eq (h : 0 < cols) : rowSymbols mode cols chans g y =
    pixelSymbols mode chans g y 0 ++ (List.range' 1 (cols - 1)).flatMap fun x =>
      (List.range chans).map fun c => difference mode (g y x c) (g y (x - 1) c) := by
  obtain ⟨n, rfl⟩ := Nat.exists_eq_succ_of_ne_zero (Nat.ne_of_gt h)
  rw [rowSymbols, List.range_eq_range', List.range'_succ, List.flatMap_cons]
  refine congrArg _ (List.flatMap_congr fun x hx => pixelSymbols_of_ne_zero ?_)
  have := (List.mem_range'_1.mp hx).1
  omega

/-- In REFERENCE mode the symbols are the source's transform (R59). -/
theorem imageSymbols_reference (h : 0 < cols) :
    imageSymbols .reference rows cols chans g = referenceSymbols rows cols chans g := by
  refine List.flatMap_congr fun y _ => ?_
  rw [rowSymbols_eq h, pixelSymbols_reference_zero, List.nil_append]
  rfl

theorem rowSymbols_length (h : 0 < cols) : (rowSymbols mode cols chans g y).length =
    (pixelSymbols mode chans g y 0).length + (cols - 1) * chans := by
  rw [rowSymbols_eq h]
  simp [List.length_flatMap]

/-- The number of symbols of an image (R66). -/
theorem imageSymbols_length_reference (h : 0 < cols) :
    (imageSymbols .reference rows cols chans g).length = rows * (cols - 1) * chans := by
  simp [imageSymbols, List.length_flatMap, rowSymbols_length h, pixelSymbols_reference_zero, Nat.mul_assoc]

theorem imageSymbols_length_invertible (h : 0 < cols) :
    (imageSymbols .invertible rows cols chans g).length = rows * cols * chans := by
  have hcols : chans + (cols - 1) * chans = cols * chans := by
    rw [Nat.add_comm, ← Nat.succ_mul, Nat.succ_eq_add_one, Nat.sub_add_cancel h]
  simp [imageSymbols, List.length_flatMap, rowSymbols_length h, pixelSymbols_invertible_zero, hcols, Nat.mul_assoc]

end GridSymbols

/-! ### The scan of an image (R59, R64) -/

theorem toNat_add_one {n k : Dim} (h : n.toNat + 1 < k.toNat) : (n + 1#24).toNat = n.toNat + 1 := by
  bv_omega

/-- In the scan of the grid `g` with the configuration of `img`, the Differencer is about to take the sample at
(`y`, `x`, `c`): LEFT holds column `x` of the row up to channel `c`, and the column before it from there on. -/
structure AtSample (m : Nat) (img : Dif) (g : Grid) (y x c : Nat) (d : Dif) : Prop where
  inv : d.Inv m
  run : d.state = .run
  rows_eq : d.rows = img.rows
  cols_eq : d.cols = img.cols
  chans_eq : d.chans = img.chans
  mode_eq : d.mode = img.mode
  y_eq : d.y.toNat = y
  x_eq : d.x.toNat = x
  c_eq : d.c.toNat = c
  seen : ∀ j < c, readStore d.left (BitVec.ofNat 24 j) = some (g y x j)
  before : x ≠ 0 → ∀ j, c ≤ j → j < img.chans.toNat →
    readStore d.left (BitVec.ofNat 24 j) = some (g y (x - 1) j)

/-- At the beginning of row `y`, or, below the last row, at the end of the image. -/
def AtRow (m : Nat) (img : Dif) (g : Grid) (y : Nat) (d : Dif) : Prop :=
  if y < img.rows.toNat then AtSample m img g y 0 0 d else d.state = .done

/-- At the beginning of column `x` of row `y`, or, after the last column, at the next row. -/
def AtColumn (m : Nat) (img : Dif) (g : Grid) (y x : Nat) (d : Dif) : Prop :=
  if x < img.cols.toNat then AtSample m img g y x 0 d else AtRow m img g (y + 1) d

/-- At channel `c` of column `x` of row `y`, or, after the last channel, at the next column. -/
def AtChannel (m : Nat) (img : Dif) (g : Grid) (y x c : Nat) (d : Dif) : Prop :=
  if c < img.chans.toNat then AtSample m img g y x c d else AtColumn m img g y (x + 1) d

section Image

variable {m : Nat} {img d : Dif} {g : Grid} {y x c : Nat}

/-- What LEFT holds once a sample is recorded. -/
theorem readStore_recorded (v : Byte) (d : Dif) {j : Nat} (hj : j < d.chans.toNat) :
    readStore (recorded v d).left (BitVec.ofNat 24 j) =
      if j = d.c.toNat then some v else readStore d.left (BitVec.ofNat 24 j) := by
  have := d.chans.isLt
  split
  · next h => simp [h]
  · next h =>
    refine readStore_writeStore_other _ _ _ _ fun hc => h ?_
    rw [← hc, BitVec.toNat_ofNat, Nat.mod_eq_of_lt (by omega)]

/-- The grid's sample yields the grid's symbol. -/
theorem AtSample.symbol (h : AtSample m img g y x c d) :
    sampleSymbol (g y x c) m d = .ok (gridSymbol img.mode g y x c) := by
  obtain ⟨a, hsym, hcol0, hcol⟩ := exists_sampleSymbol h.inv h.run (g y x c)
  rw [hsym]
  refine congrArg _ ?_
  by_cases hx : d.x = 0#24
  · have hx0 : x = 0 := by rw [← h.x_eq, hx]; rfl
    subst hx0
    rw [hcol0 hx, ← h.mode_eq]
    exact (if_congr (by simp [hx]) rfl rfl).trans gridSymbol_zero.symm
  · have hx0 : x ≠ 0 := fun h0 => hx (BitVec.eq_of_toNat_eq (h.x_eq.trans h0))
    obtain ⟨l, hl, rfl⟩ := hcol hx
    have hbefore := h.before hx0 c (Nat.le_refl c) (by rw [← h.c_eq, ← h.chans_eq]; exact channel_lt h.inv h.run)
    rw [← h.c_eq, BitVec.ofNat_toNat, BitVec.setWidth_eq, hl, Option.some.injEq, h.c_eq] at hbefore
    rw [if_pos (.inl hx), gridSymbol_of_ne_zero hx0, hbefore, h.mode_eq]

/-- Once the grid's sample is recorded, LEFT holds column `x` up to the channel after it. -/
theorem AtSample.seen_recorded (h : AtSample m img g y x c d) {j : Nat} (hj : j < c + 1) :
    readStore (recorded (g y x c) d).left (BitVec.ofNat 24 j) = some (g y x j) := by
  have hc := channel_lt h.inv h.run
  have hceq := h.c_eq
  rw [readStore_recorded _ _ (by omega)]
  split
  · next hjc => rw [hjc, hceq]
  · exact h.seen j (by omega)

/-- Past that channel it still holds the column before. -/
theorem AtSample.before_recorded (h : AtSample m img g y x c d) (hx : x ≠ 0) {j : Nat} (hj : c + 1 ≤ j)
    (hjc : j < img.chans.toNat) :
    readStore (recorded (g y x c) d).left (BitVec.ofNat 24 j) = some (g y (x - 1) j) := by
  have hceq := h.c_eq
  rw [readStore_recorded _ _ (by rwa [h.chans_eq]), if_neg (by omega)]
  exact h.before hx j (by omega) hjc

/-- After the grid's sample the scan is at the next channel, column or row, or at the end. -/
theorem AtSample.advance (h : AtSample m img g y x c d) :
    AtChannel m img g y x (c + 1) (advanceScan (recorded (g y x c) d)) := by
  have hinv := advanceScan_inv h.inv h.run (recordSample_of_inv (g y x c) h.inv h.run)
  have hseen := fun j (hj : j < c + 1) => h.seen_recorded hj
  have hbefore := fun hx j (hj : c + 1 ≤ j) => h.before_recorded hx hj
  obtain ⟨-, hrun, hrows, hcols, hchans, hmode, rfl, rfl, rfl, -, -⟩ := h
  rw [AtChannel, AtColumn, AtRow]
  by_cases hc : d.c.toNat + 1 < d.chans.toNat
  · rw [if_pos (hchans ▸ hc)]
    rw [advanceScan_nextChannel (d := recorded _ d) hc] at hinv ⊢
    exact ⟨hinv, hrun, hrows, hcols, hchans, hmode, rfl, rfl, toNat_add_one hc, hseen, hbefore⟩
  rw [if_neg (hchans ▸ hc)]
  by_cases hx : d.x.toNat + 1 < d.cols.toNat
  · rw [if_pos (hcols ▸ hx)]
    rw [advanceScan_nextColumn (d := recorded _ d) hc hx] at hinv ⊢
    exact ⟨hinv, hrun, hrows, hcols, hchans, hmode, rfl, toNat_add_one hx, rfl,
      fun _ hj => absurd hj (Nat.not_lt_zero _), fun _ j _ hj => hseen j (by rw [← hchans] at hj; omega)⟩
  rw [if_neg (hcols ▸ hx)]
  by_cases hy : d.y.toNat + 1 < d.rows.toNat
  · rw [if_pos (hrows ▸ hy)]
    rw [advanceScan_nextRow (d := recorded _ d) hc hx hy] at hinv ⊢
    exact ⟨hinv, hrun, hrows, hcols, hchans, hmode, toNat_add_one hy, rfl, rfl,
      fun _ hj => absurd hj (Nat.not_lt_zero _), fun hx0 => absurd rfl hx0⟩
  rw [if_neg (hrows ▸ hy), advanceScan_last (d := recorded _ d) hc hx hy]

theorem AtSample.scans (h : AtSample m img g y x c d) :
    ∃ e, Scans m d [g y x c] (gridSymbol img.mode g y x c).toList e ∧ AtChannel m img g y x (c + 1) e :=
  ⟨_, by simpa using Scans.cons h.run h.symbol (.nil _), h.advance⟩

theorem AtColumn.scans (h : AtColumn m img g y x d) (hx : x < img.cols.toNat) (hchans : 0 < img.chans.toNat) :
    ∃ e, Scans m d ((List.range img.chans.toNat).map (g y x)) (pixelSymbols img.mode img.chans.toNat g y x) e ∧
      AtColumn m img g y (x + 1) e := by
  rw [AtColumn, if_pos hx] at h
  obtain ⟨e, hscan, he⟩ := Scans.loop (At := AtChannel m img g y x) img.chans.toNat
    (fun c hc d hd => by rw [AtChannel, if_pos hc] at hd; exact hd.scans) (by rwa [AtChannel, if_pos hchans])
  rw [AtChannel, if_neg (Nat.lt_irrefl _)] at he
  rw [List.map_eq_flatMap]
  exact ⟨e, hscan, he⟩

theorem AtRow.scans (h : AtRow m img g y d) (hy : y < img.rows.toNat) (hcols : 0 < img.cols.toNat)
    (hchans : 0 < img.chans.toNat) :
    ∃ e, Scans m d ((List.range img.cols.toNat).flatMap fun x => (List.range img.chans.toNat).map (g y x))
        (rowSymbols img.mode img.cols.toNat img.chans.toNat g y) e ∧ AtRow m img g (y + 1) e := by
  rw [AtRow, if_pos hy] at h
  obtain ⟨e, hscan, he⟩ := Scans.loop (At := AtColumn m img g y) img.cols.toNat
    (fun x hx d hd => hd.scans hx hchans) (by rwa [AtColumn, if_pos hcols])
  rw [AtColumn, if_neg (Nat.lt_irrefl _)] at he
  exact ⟨e, hscan, he⟩

end Image

theorem toNat_pos_of_ne_zero {n : Dim} (h : n ≠ 0#24) : 0 < n.toNat :=
  Nat.pos_of_ne_zero fun h0 => h (BitVec.eq_of_toNat_eq h0)

/-- From DIF_START the samples of a grid yield the symbols of its image and end in DONE. -/
theorem scans_image {m : Nat} {img : Dif} (hinv : (started img).Inv m) (hconf : Configured img) (g : Grid) :
    ∃ e, Scans m (started img) (gridSamples img.rows.toNat img.cols.toNat img.chans.toNat g)
      (imageSymbols img.mode img.rows.toNat img.cols.toNat img.chans.toNat g) e ∧ e.state = .done := by
  obtain ⟨hcols, hchans, hrows⟩ := hconf
  have hstart : AtRow m img g 0 (started img) := by
    rw [AtRow, if_pos (toNat_pos_of_ne_zero hrows)]
    exact ⟨hinv, rfl, rfl, rfl, rfl, rfl, rfl, rfl, rfl, fun _ hj => absurd hj (Nat.not_lt_zero _),
      fun hx => absurd rfl hx⟩
  obtain ⟨e, hscan, he⟩ := Scans.loop (At := AtRow m img g) img.rows.toNat
    (fun y hy d hd => hd.scans hy (toNat_pos_of_ne_zero hcols) (toNat_pos_of_ne_zero hchans)) hstart
  rw [AtRow, if_neg (Nat.lt_irrefl _)] at he
  exact ⟨e, hscan, he⟩

/-! ### Where the symbols of a scan go (R64, R65) -/

/-- EncStep on the symbols one after another, with the codes it emits. -/
inductive Encodes : Enc → List Byte → Enc → List Code → Prop where
  | nil (e : Enc) : Encodes e [] e []
  | cons {e f k : Enc} {x : Byte} {xs : List Byte} {out outs : List Code} (hstep : encStep x e = .ok (f, out))
      (hrest : Encodes f xs k outs) : Encodes e (x :: xs) k (out ++ outs)

theorem Encodes.append {e f k : Enc} {xs ys : List Byte} {out outs : List Code} (h : Encodes e xs f out)
    (h2 : Encodes f ys k outs) : Encodes e (xs ++ ys) k (out ++ outs) := by
  induction h with
  | nil => exact h2
  | cons hstep _ ih =>
    rw [List.cons_append, List.append_assoc]
    exact .cons hstep (ih h2)

theorem runCommands_cons_exec {s t : State} {i : Instr} {is : List Instr} (hsafe : Safe s) (h : exec i s = .next t) :
    runCommands (i :: is) s = runCommands is t :=
  runCommands_cons_next s ((executeWord_encode hsafe i).trans h)

/-- The steps of the Encoder are what a run of ENC_SYMBOL does. -/
theorem runCommands_encodes {e f : Enc} {xs : List Byte} {out : List Code} (h : Encodes e xs f out) {s : State}
    (he : s.enc = e) (hsafe : Safe s) (hended : s.enc.ended = false) :
    runCommands (xs.map .encSymbol) s = .next { s with enc := f, encOut := s.encOut ++ out, inputs := [] } := by
  induction h generalizing s with
  | nil e =>
    subst he
    rw [List.map_nil, runCommands_nil, List.append_nil]
  | @cons _ f _ _ _ out _ hstep _ ih =>
    subst he
    rw [List.map_cons, runCommands_cons_exec hsafe (exec_encSymbol_step hended hstep),
      ih (s := { s with enc := f, encOut := s.encOut ++ out }) rfl hsafe ((encStep_frame hstep).1.trans hended),
      List.append_assoc]

/-- What the symbols of a scan that began at `s` have done to DIF_OUT, the Encoder and ENC_OUT at `t`. -/
structure Delivered (syms : List Byte) (s t : State) : Prop where
  glob : t.glob = s.glob
  ended : t.enc.ended = s.enc.ended
  unchained : s.glob.chain = false → t.difOut = s.difOut ++ syms
  chained : s.glob.chain = true →
    t.difOut = s.difOut ∧ ∃ out, Encodes s.enc syms t.enc out ∧ t.encOut = s.encOut ++ out

theorem deliverSymbol_delivered {s t : State} {sym : Option Byte} (h : deliverSymbol sym s = .ok t) :
    Delivered sym.toList s t := by
  rcases deliverSymbol_cases h with ⟨rfl, rfl⟩ | ⟨a, rfl, hchain, rfl⟩ | ⟨a, e, out, rfl, hchain, hstep, rfl⟩
  · exact ⟨rfl, rfl, fun _ => (List.append_nil _).symm, fun _ => ⟨rfl, [], .nil _, (List.append_nil _).symm⟩⟩
  · exact ⟨rfl, rfl, fun _ => rfl, fun hc => by simp [hchain] at hc⟩
  · refine ⟨rfl, (encStep_frame hstep).1, fun hc => by simp [hchain] at hc, fun _ => ⟨rfl, out, ?_, rfl⟩⟩
    simpa using Encodes.cons hstep (.nil e)

/-- The Differencer has no part in it. -/
theorem Delivered.of_dif {syms : List Byte} {s t : State} {d : Dif} (h : Delivered syms { s with dif := d } t) :
    Delivered syms s t :=
  ⟨h.glob, h.ended, h.unchained, h.chained⟩

theorem Delivered.trans {as bs : List Byte} {s t u : State} (h : Delivered as s t) (h2 : Delivered bs t u) :
    Delivered (as ++ bs) s u := by
  refine ⟨h2.glob.trans h.glob, h2.ended.trans h.ended, fun hc => ?_, fun hc => ?_⟩
  · rw [h2.unchained (by rwa [h.glob]), h.unchained hc, List.append_assoc]
  · obtain ⟨hout, out, hsteps, henc⟩ := h.chained hc
    obtain ⟨hout2, out2, hsteps2, henc2⟩ := h2.chained (by rwa [h.glob])
    exact ⟨hout2.trans hout, _, hsteps.append hsteps2, by rw [henc2, henc, List.append_assoc]⟩

/-- A scan is what a run of DIF_SAMPLE does to the Differencer, and its symbols are delivered. -/
theorem runCommands_scans {m : Nat} {d e : Dif} {vs syms : List Byte} (h : Scans m d vs syms e) {s : State}
    (hd : s.dif = d) (hm : s.params.maxChans = m) (hi : Inv s) (hsafe : Safe s)
    (hended : s.glob.chain = true → s.enc.ended = false) :
    ∃ t, runCommands (vs.map .difSample) s = .next t ∧ t.dif = e ∧ Delivered syms s t := by
  induction h generalizing s with
  | nil d =>
    exact ⟨_, runCommands_nil s, hd, rfl, rfl, fun _ => (List.append_nil _).symm,
      fun _ => ⟨rfl, [], .nil _, (List.append_nil _).symm⟩⟩
  | cons hrun hsym _ ih =>
    subst hd hm
    obtain ⟨t, hexec, hdel⟩ := exec_difSample_delivers hi hrun hsym fun ⟨_, hc, he⟩ => by simp [hended hc] at he
    obtain ⟨hdif, -, -, -, hparams, -⟩ := deliverSymbol_frame hdel
    have hfirst := (deliverSymbol_delivered hdel).of_dif
    obtain ⟨u, hrest, he, hdels⟩ := ih hdif (congrArg _ hparams) (effect_inv hi (exec_effect hexec))
      (by rw [Safe, hfirst.glob]; exact hsafe) (by rw [hfirst.glob, hfirst.ended]; exact hended)
    exact ⟨u, by rw [List.map_cons, runCommands_cons_exec hsafe hexec, hrest], he, hfirst.trans hdels⟩

/-- A scan from DIF_START, as a run. -/
theorem runCommands_image {s : State} {e : Dif} {vs syms : List Byte} (hi : Inv s) (hsafe : Safe s)
    (hended : s.glob.chain = true → s.enc.ended = false) (hconf : Configured s.dif)
    (h : Scans s.params.maxChans (started s.dif) vs syms e) :
    ∃ t, runCommands (.difStart :: vs.map .difSample) s = .next t ∧ t.dif = e ∧ Safe t ∧ Delivered syms s t := by
  obtain ⟨t, hrun, he, hdel⟩ := runCommands_scans h (s := { s with dif := started s.dif }) rfl rfl
    (started_inv hi hconf) hsafe hended
  refine ⟨t, by rw [runCommands_cons_exec hsafe (exec_difStart hconf), hrun], he, ?_, hdel.of_dif⟩
  rw [Safe, hdel.glob]
  exact hsafe

/-! ### Whole images (R59, R66) -/

/-- Settles O29: the symbols of the grid's scan are the source's transform, and unchained they go to DIF_OUT. -/
theorem referenceImageGivesTheTransform : Obligations.ReferenceImageGivesTheTransform := by
  intro s g hi hsafe hchain hmode hcols hchans hrows
  have hconf : Configured s.dif := ⟨hcols, hchans, hrows⟩
  obtain ⟨e, hscan, hdone⟩ := scans_image (dif_inv (started_inv hi hconf)) hconf g
  obtain ⟨t, hrun, rfl, hsafe', hdel⟩ := runCommands_image hi hsafe (fun hc => by simp [hchain] at hc) hconf hscan
  refine ⟨t, hrun, ?_, hdone, hsafe'⟩
  rw [hdel.unchained hchain, hmode, imageSymbols_reference (toNat_pos_of_ne_zero hcols)]

/-- A list read in rounds of `b` elements. -/
theorem map_range_mul {α : Type} (f : Nat → α) (a b : Nat) : (List.range (a * b)).map f =
    (List.range a).flatMap fun i => (List.range b).map fun j => f (i * b + j) := by
  induction a with
  | zero => simp
  | succ a ih =>
    rw [Nat.succ_mul, List.range_add, List.map_append, ih, List.range_succ, List.flatMap_append,
      List.flatMap_singleton, List.map_map]
    rfl

/-- Every list of `rows * cols * chans` samples is a grid's. -/
theorem exists_gridSamples {rows cols chans : Nat} {vs : List Byte} (h : vs.length = rows * cols * chans) :
    ∃ g, gridSamples rows cols chans g = vs := by
  refine ⟨fun y x c => vs.getD ((y * cols + x) * chans + c) 0#8, ?_⟩
  have hvs : (List.range (rows * (cols * chans))).map (fun n => vs.getD n 0#8) = vs := by
    refine List.ext_getElem (by simp [h, Nat.mul_assoc]) fun n _ hn => ?_
    simp [hn]
  conv_rhs => rw [← hvs, map_range_mul]
  refine List.flatMap_congr fun y _ => ?_
  rw [map_range_mul fun j => vs.getD (y * (cols * chans) + j) 0#8]
  refine List.flatMap_congr fun x _ => List.map_congr_left fun c _ => ?_
  show vs.getD ((y * cols + x) * chans + c) 0#8 = _
  rw [Nat.add_mul, Nat.mul_assoc, Nat.add_assoc]

/-- Any samples that an image still takes begin a scan of a whole image: the samples of some grid. -/
theorem scans_beginning {m : Nat} {img : Dif} (hinv : (started img).Inv m) (hconf : Configured img) {vs : List Byte}
    (h : vs.length ≤ img.rows.toNat * img.cols.toNat * img.chans.toNat) :
    ∃ e syms, Scans m (started img) vs syms e ∧
      (vs.length < img.rows.toNat * img.cols.toNat * img.chans.toNat → e.state = .run) ∧
      (vs.length = img.rows.toNat * img.cols.toNat * img.chans.toNat → e.state = .done ∧
        ∃ g, syms = imageSymbols img.mode img.rows.toNat img.cols.toNat img.chans.toNat g) := by
  obtain ⟨missing, hmissing⟩ := Nat.exists_eq_add_of_le h
  obtain ⟨g, hg⟩ := exists_gridSamples (vs := vs ++ List.replicate missing 0#8)
    (by rw [List.length_append, List.length_replicate, hmissing])
  obtain ⟨f, hscan, hdone⟩ := scans_image hinv hconf g
  rw [hg] at hscan
  obtain ⟨e, as, bs, hvs, hrest, hsyms⟩ := hscan.split
  refine ⟨e, as, hvs, fun hlt => ?_, fun heq => ?_⟩
  · rcases hrest.nil_or_run with ⟨hnil, -⟩ | ⟨-, hrun⟩
    · rw [List.replicate_eq_nil_iff] at hnil; omega
    · exact hrun
  · rcases hrest.nil_or_run with ⟨-, rfl, rfl⟩ | ⟨hne, -⟩
    · exact ⟨hdone, g, by rw [hsyms, List.append_nil]⟩
    · exact absurd (by rw [List.replicate_eq_nil_iff]; omega) hne

/-- Settles O32: a list of samples begins a grid's scan, which is in RUN until its last sample. -/
theorem imageTakesItsCountOfSamples : Obligations.ImageTakesItsCountOfSamples := by
  intro s vs hi hsafe hended hcols hchans hrows hlen
  have hconf : Configured s.dif := ⟨hcols, hchans, hrows⟩
  have hpos := toNat_pos_of_ne_zero hcols
  obtain ⟨e, syms, hscan, hfewer, hall⟩ := scans_beginning (dif_inv (started_inv hi hconf)) hconf hlen
  obtain ⟨t, hrun, rfl, hsafe', hdel⟩ := runCommands_image hi hsafe hended hconf hscan
  refine ⟨t, hrun, hsafe', hfewer, fun heq => ?_⟩
  obtain ⟨hdone, g, rfl⟩ := hall heq
  refine ⟨hdone, ⟨_, fun hm => ?reference, fun hm => ?invertible, hdel.unchained, fun hc => ?chained⟩,
    exec_difSample_not_run (by simp [hdone])⟩
  case reference => rw [hm]; exact imageSymbols_length_reference hpos
  case invertible => rw [hm]; exact imageSymbols_length_invertible hpos
  case chained =>
    obtain ⟨hout, out, hsteps, henc⟩ := hdel.chained hc
    exact ⟨hout, _, runCommands_encodes hsteps rfl hsafe (hended hc), rfl, henc⟩

end Sys2Proof.Proofs
end

section
/-! PROOFS. The Encoder (42_encoder.md): ENC_INIT, ENC_SYMBOL, Lookup, ENC_FLUSH, and the codes of a symbol sequence. -/

namespace Sys2Proof.Proofs

open Sys2Proof.Machine

/-! ### Insertion (R68) -/

section Insertion

variable {next k : Code} {t : Store 16 Entry} {e : Entry} {r : Code × Store 16 Entry}

/-- Only keys have strings. -/
theorem lt_of_dictString {a : SymString} (h256 : 256 ≤ next.toNat) (ha : dictString next t k = some a) :
    k.toNat < next.toNat := by
  by_contra hk
  obtain ⟨j, hj⟩ : ∃ j, k.toNat = j + 1 := ⟨k.toNat - 1, by omega⟩
  rw [dictString, hj, stringByLinks, if_neg (by omega), if_neg hk] at ha
  cases ha

/-- An insertion leaves every string. -/
theorem dictString_insert {a : SymString} (h : TableInv next t) (he : e.pre.toNat < next.toNat)
    (hr : insertEntry next t e = .ok r) (ha : dictString next t k = some a) : dictString r.1 r.2 k = some a := by
  rcases insertEntry_cases hr with ⟨hroom, -, rfl⟩ | ⟨-, rfl⟩
  · rw [dictString_write h hroom he _ k rfl (lt_of_dictString h.1 ha), ha]
  · exact ha

theorem readStore_insert_other (hr : insertEntry next t e = .ok r) (hk : k ≠ next) :
    readStore r.2 k = readStore t k := by
  rcases insertEntry_cases hr with ⟨-, -, rfl⟩ | ⟨-, rfl⟩
  · exact readStore_writeStore_other _ _ _ _ hk
  · rfl

theorem readStore_insert_next (hr : insertEntry next t e = .ok r) (hroom : next.toNat < 65535) :
    readStore r.2 next = some e := by
  rcases insertEntry_cases hr with ⟨-, -, rfl⟩ | ⟨hfull, -⟩
  · exact readStore_writeStore_same _ _ _
  · omega

/-- NEXT counts the insertions up to the cap. -/
theorem insertEntry_count {n : Nat} (hr : insertEntry next t e = .ok r) (hn : next.toNat = 256 + min n 65279) :
    r.1.toNat = 256 + min (n + 1) 65279 := by
  rcases insertEntry_cases hr with ⟨hroom, -, rfl⟩ | ⟨hfull, rfl⟩
  · have : (next + 1#16).toNat = next.toNat + 1 := by bv_omega
    simp only [this]
    omega
  · simp only
    omega

end Insertion

/-! ### Lookup (R69) -/

/-- The code of the string of `m` with `x` appended is the code whose entry is `(m, x)`: such a string is no seed's, and
its entry's PREFIX has the string of `m`, which only `m` has (R25). -/
theorem readStore_iff_dictString {e : Enc} (hi : e.Inv) {m k : Code} {x : Byte} {a : SymString}
    (hm : m.toNat < e.next.toNat) (ha : dictString e.next e.table m = some a) (hk : k.toNat < e.next.toNat) :
    readStore e.table k = some ⟨m, x⟩ ↔ dictString e.next e.table k = some (a.snoc x) := by
  obtain ⟨ht, hnd, -, -⟩ := hi
  refine ⟨fun hr => by rw [dictString_entry ht hr, ha, Option.map_some], fun hs => ?_⟩
  by_cases hseed : k.toNat < 256
  · simp [dictString_seed hseed, SymString.snoc] at hs
  · obtain ⟨⟨pre, sym⟩, p, hr, hpre, hp, hkp⟩ := dictString_snoc ht (Nat.le_of_not_lt hseed) hk
    have hsymbols := congrArg SymString.symbols (Option.some.inj (hkp.symm.trans hs))
    rw [snoc_symbols, snoc_symbols] at hsymbols
    obtain ⟨hpa, hsym⟩ := List.append_inj' hsymbols rfl
    obtain rfl := symbols_injective hpa
    obtain rfl : pre = m := dictString_injective ht hnd _ _ _ p rfl hp ha (hpre.trans hk) hm
    obtain rfl : sym = x := List.singleton_injective hsym
    exact hr

/-- Settles O35: Lookup is exact on entries, and an entry with the pair is the code of the longer string. -/
theorem lookupFindsTheKey : Obligations.LookupFindsTheKey := by
  intro e m x hi hm
  have hiff := fun k => lookupEntry_iff hi.1 hi.2.1 (m := m) (s := x) (k := k)
  obtain ⟨a, ha⟩ := exists_dictString hi.1 hm
  refine ⟨fun k => ⟨lookupEntry_some hi.1, fun h => (hiff k).mpr h.2.2⟩, fun j k hj hk => ?unique, a, ha, fun k hk => ?key⟩
  case unique => exact Option.some.inj (((hiff j).mpr hj).symm.trans ((hiff k).mpr hk))
  case key =>
    rw [hiff, readStore_iff_dictString hi hm ha hk]
    exact ⟨fun h => ⟨_, h, snoc_symbols a x⟩,
      fun ⟨b, hb, hs⟩ => by rw [hb, symbols_injective (hs.trans (snoc_symbols a x).symm)]⟩

/-! ### ENC_INIT (R70) -/

theorem exec_encInit (s : State) : exec .encInit s = .next { s with enc := encInitial } := rfl

/-- Settles O33: every field is read off the Encoder that ENC_INIT leaves. -/
theorem encInitEmptiesTheDictionary : Obligations.EncInitEmptiesTheDictionary :=
  fun s => ⟨rfl, _, exec_encInit s, rfl, rfl, rfl, rfl, rfl, readStore_nil, rfl, rfl⟩

/-! ### ENC_SYMBOL (R68, R71) -/

/-- An empty match takes the symbol. -/
theorem encStep_starts {e : Enc} (hmv : e.mv = false) (x : Byte) :
    encStep x e = .ok ({ e with matchCode := seedCode x, mv := true }, []) := by
  rw [encStep, if_pos hmv]

/-- A pair that is an entry extends the match. -/
theorem encStep_extends {e : Enc} (hmv : e.mv = true) {x : Byte} {k : Code}
    (hk : lookupEntry e.next e.table e.matchCode x = some k) :
    encStep x e = .ok ({ e with matchCode := k }, []) := by
  simp [encStep, hmv, hk]

/-- A pair that is no entry emits the match and is inserted. -/
theorem encStep_emits {e : Enc} (hmv : e.mv = true) {x : Byte}
    (hk : lookupEntry e.next e.table e.matchCode x = none) {r : Code × Store 16 Entry}
    (hr : insertEntry e.next e.table ⟨e.matchCode, x⟩ = .ok r) :
    encStep x e = .ok ({ e with next := r.1, table := r.2, matchCode := seedCode x }, [e.matchCode]) := by
  simp [encStep, hmv, hk, hr]

theorem exec_encSymbol_ended {s : State} (h : s.enc.ended = true) (x : Byte) :
    exec (.encSymbol x) s = .next (raiseError .sequence (encode (.encSymbol x)) s) := by
  simp [exec, execEncSymbol, h]

/-- Settles O34: a case of EncStep for each clause, with the cap as the two outcomes of the insertion. -/
theorem encSymbolStepsTheEncoder : Obligations.EncSymbolStepsTheEncoder := by
  intro s x hi
  obtain ⟨ht, hnd, -, -⟩ := hi
  have hnone (h : ∀ k, readStore s.enc.table k ≠ some ⟨s.enc.matchCode, x⟩) :
      lookupEntry s.enc.next s.enc.table s.enc.matchCode x = none :=
    Option.eq_none_iff_forall_ne_some.mpr fun k hk => h k ((lookupEntry_iff ht hnd).mp hk)
  have hinsert := insertEntry_ok ht.1 ⟨s.enc.matchCode, x⟩ (t := s.enc.table)
  refine ⟨packWord_setWidth 0x21#8 x (by decide), fun hended => exec_encSymbol_ended hended x,
    fun hended hmv => ?starts, fun hended hmv k hk => ?longer, fun hended hmv hk hroom => ?inserts,
    fun hended hmv hk hfull => ?full⟩
  case starts => rw [exec_encSymbol_step hended (encStep_starts hmv x), List.append_nil]; rfl
  case longer =>
    rw [exec_encSymbol_step hended (encStep_extends hmv ((lookupEntry_iff ht hnd).mpr hk)), List.append_nil]
  case inserts =>
    rw [if_pos hroom] at hinsert
    exact ⟨_, exec_encSymbol_step hended (encStep_emits hmv (hnone hk) hinsert), rfl,
      readStore_insert_next hinsert hroom, fun k hne => readStore_insert_other hinsert hne⟩
  case full =>
    rw [if_neg (by simp [hfull])] at hinsert
    exact exec_encSymbol_step hended (encStep_emits hmv (hnone hk) hinsert)

/-! ### ENC_FLUSH (R72) -/

/-- The Encoder as ENC_FLUSH leaves it. -/
def flushed (e : Enc) : Enc := { e with matchCode := 0#16, mv := false, ended := true }

@[simp] theorem flushed_next (e : Enc) : (flushed e).next = e.next := rfl

theorem exec_encFlush (s : State) : exec .encFlush s = .next { s with
    enc := flushed s.enc
    encOut := if s.enc.mv = true then s.encOut ++ [s.enc.matchCode] else s.encOut } := rfl

/-- Settles O36: the flushed Encoder has no match and has ENDED set, and ENC_INIT clears ENDED. -/
theorem encFlushEmitsTheMatch : Obligations.EncFlushEmitsTheMatch :=
  fun s => ⟨rfl, _, exec_encFlush s, rfl, rfl, exec_encSymbol_ended rfl,
    fun x => ⟨_, _, exec_encInit _, exec_encSymbol_step rfl (encStep_starts rfl x), rfl⟩⟩

/-! ### A segment: ENC_INIT, symbols, ENC_FLUSH -/

/-- A run of two command lists is the run of the second from where the first ends (20_memory.md R43). -/
theorem runCommands_append {is js : List Instr} {s t : State} (h : runCommands is s = .next t) :
    runCommands (is ++ js) s = runCommands js t := by
  induction is generalizing s with
  | nil =>
    obtain rfl := Host.Outcome.next.inj h
    rfl
  | cons i is ih =>
    rw [runCommands_cons] at h
    rw [List.cons_append, runCommands_cons]
    cases hw : executeWord (encode i) s with
    | next u => rw [hw] at h; exact ih h
    | fault f => rw [hw] at h; cases h
    | refused r => rw [hw] at h; cases h

/-- The Encoder takes every symbol sequence (R68). -/
theorem exists_encodes {e : Enc} (hi : e.Inv) (xs : List Byte) : ∃ f out, Encodes e xs f out := by
  induction xs generalizing e with
  | nil => exact ⟨e, [], .nil e⟩
  | cons x xs ih =>
    obtain ⟨⟨f, out⟩, hstep⟩ := encStep_ok x hi.1.1
    obtain ⟨k, outs, hrest⟩ := ih (encStep_inv hi hstep).1
    exact ⟨k, _, .cons hstep hrest⟩

/-- A segment is EncStep on its symbols from the initial Encoder, and the flush of the match that is left. -/
theorem runCommands_segment {s : State} (hsafe : Safe s) {xs : List Byte} {e : Enc} {out : List Code}
    (h : Encodes encInitial xs e out) :
    runCommands (.encInit :: (xs.map .encSymbol ++ [.encFlush])) s = .next { s with
      enc := flushed e
      encOut := if e.mv = true then s.encOut ++ out ++ [e.matchCode] else s.encOut ++ out
      inputs := [] } := by
  rw [runCommands_cons_exec hsafe (exec_encInit s),
    runCommands_append (runCommands_encodes h (s := { s with enc := encInitial }) rfl hsafe rfl),
    runCommands_cons_exec (by exact hsafe) (exec_encFlush _)]
  rfl

/-! ### The Encoder's laws (R73) -/

/-- Entry `256 + n` is the `n`-th code with the first symbol of the next code's string, while the table has room. -/
def Inserted (t : Store 16 Entry) (codes : List Code) (firsts : List Byte) : Prop :=
  ∀ (n : Nat) (k : Code) (x : Byte), n < 65279 → codes[n]? = some k → firsts[n + 1]? = some x →
    readStore t (BitVec.ofNat 16 (256 + n)) = some ⟨k, x⟩

section Inserted

variable {next : Code} {t : Store 16 Entry} {codes : List Code} {firsts : List Byte}

/-- A code whose next string is not there yet has no entry. -/
theorem Inserted.concat (h : Inserted t codes firsts) (hlen : firsts.length = codes.length + 1) (m : Code) :
    Inserted t (codes ++ [m]) firsts := by
  intro n k y hn hk hy
  obtain ⟨hlt, -⟩ := List.getElem?_eq_some_iff.mp hy
  rw [List.getElem?_append_left (by omega)] at hk
  exact h n k y hn hk hy

/-- A code that is emitted is inserted with the symbol that starts the next match. -/
theorem Inserted.emit (h : Inserted t codes firsts) (hlen : firsts.length = codes.length + 1)
    (hnext : next.toNat = 256 + min codes.length 65279) {m : Code} {x : Byte} {r : Code × Store 16 Entry}
    (hr : insertEntry next t ⟨m, x⟩ = .ok r) : Inserted r.2 (codes ++ [m]) (firsts ++ [x]) := by
  intro n k y hn hk hy
  have hcode : (BitVec.ofNat 16 (256 + n)).toNat = 256 + n := by
    rw [BitVec.toNat_ofNat]
    omega
  obtain ⟨hle, -⟩ := List.getElem?_eq_some_iff.mp hk
  rw [List.length_append, List.length_singleton] at hle
  rcases Nat.lt_succ_iff_lt_or_eq.mp hle with hlt | rfl
  · have hne : BitVec.ofNat 16 (256 + n) ≠ next := fun heq => by rw [heq] at hcode; omega
    rw [List.getElem?_append_left hlt] at hk
    rw [List.getElem?_append_left (by omega)] at hy
    rw [readStore_insert_other hr hne, h n k y hn hk hy]
  · have heq : BitVec.ofNat 16 (256 + codes.length) = next := BitVec.eq_of_toNat_eq (by omega)
    rw [List.getElem?_concat_length, Option.some.injEq] at hk
    rw [← hlen, List.getElem?_concat_length, Option.some.injEq] at hy
    rw [heq, ← hk, ← hy]
    exact readStore_insert_next hr (by omega)

end Inserted

/-- The laws of R73 in the middle of a segment: after the symbols `xs` the Encoder has emitted `out`, whose strings are
`strs`, and `a` is the string of its match. A flush then emits the match (`Parsed.flush`). -/
structure Parsed (e : Enc) (xs : List Byte) (out : List Code) (strs : List SymString) (a : SymString) : Prop where
  inv : e.Inv
  mv : e.mv = true
  strings : List.Forall₂ (fun k b => dictString e.next e.table k = some b) out strs
  last : dictString e.next e.table e.matchCode = some a
  joined : (strs.flatMap fun b => b.symbols) ++ a.symbols = xs
  count : e.next.toNat = 256 + min out.length 65279
  entries : Inserted e.table out ((strs ++ [a]).map fun b => b.first)

theorem dictString_seedCode {next : Code} {t : Store 16 Entry} (x : Byte) :
    dictString next t (seedCode x) = some ⟨x, []⟩ := by
  have hlow : lowByte (seedCode x) = x := BitVec.eq_of_toNat_eq (by
    rw [lowByte_toNat, seedCode_toNat, Nat.mod_eq_of_lt x.isLt])
  rw [dictString_seed (by rw [seedCode_toNat]; exact x.isLt), hlow]

section Parsed

variable {e f : Enc} {x : Byte} {xs ys : List Byte} {out outs : List Code} {strs : List SymString} {a : SymString}

theorem Parsed.firsts_length (h : Parsed e xs out strs a) :
    ((strs ++ [a]).map fun b => b.first).length = out.length + 1 := by
  rw [List.length_map, List.length_append, List.length_singleton, h.strings.length_eq]

/-- The first symbol after ENC_INIT is the match. -/
theorem parsed_first (x : Byte) : Parsed { encInitial with matchCode := seedCode x, mv := true } [x] [] [] ⟨x, []⟩ where
  inv := (encStep_inv (by decide : encInitial.Inv) (encStep_starts rfl x)).1
  mv := rfl
  strings := .nil
  last := dictString_seedCode x
  joined := rfl
  count := rfl
  entries := fun n k y _ hk => by simp at hk

/-- A symbol that extends the match is appended to the match's string. -/
theorem Parsed.extend (h : Parsed e xs out strs a) {k : Code}
    (hk : lookupEntry e.next e.table e.matchCode x = some k) :
    Parsed { e with matchCode := k } (xs ++ [x]) out strs (a.snoc x) where
  inv := (encStep_inv h.inv (encStep_extends h.mv hk)).1
  mv := h.mv
  strings := h.strings
  last := by
    rw [dictString_entry h.inv.1 (lookupEntry_some h.inv.1 hk).2.2, h.last, Option.map_some]
  joined := by rw [snoc_symbols, ← List.append_assoc, h.joined]
  count := h.count
  entries := by simpa using h.entries

/-- A symbol that does not extend the match adds the match to the codes and is the next match. -/
theorem Parsed.emit (h : Parsed e xs out strs a) (hk : lookupEntry e.next e.table e.matchCode x = none)
    {r : Code × Store 16 Entry} (hr : insertEntry e.next e.table ⟨e.matchCode, x⟩ = .ok r) :
    Parsed { e with next := r.1, table := r.2, matchCode := seedCode x } (xs ++ [x]) (out ++ [e.matchCode])
      (strs ++ [a]) ⟨x, []⟩ where
  inv := (encStep_inv h.inv (encStep_emits h.mv hk hr)).1
  mv := h.mv
  strings := by
    have hkeep {k : Code} {b : SymString} := dictString_insert (k := k) (a := b) h.inv.1 (h.inv.2.2.1 h.mv) hr
    exact List.rel_append (h.strings.imp fun _ _ => hkeep) (.cons (hkeep h.last) .nil)
  last := dictString_seedCode x
  joined := by rw [List.flatMap_append, List.flatMap_singleton, h.joined]; rfl
  count := by rw [List.length_append]; exact insertEntry_count hr h.count
  entries := by
    rw [List.map_append]
    exact h.entries.emit h.firsts_length h.count hr

theorem Parsed.step (h : Parsed e xs out strs a) (hstep : encStep x e = .ok (f, outs)) :
    ∃ strs' b, Parsed f (xs ++ [x]) (out ++ outs) strs' b := by
  rcases encStep_cases hstep with ⟨hmv, -, -⟩ | ⟨-, k, hk, rfl, rfl⟩ | ⟨-, hk, r, hr, rfl, rfl⟩
  · simp [h.mv] at hmv
  · rw [List.append_nil]
    exact ⟨strs, a.snoc x, h.extend hk⟩
  · exact ⟨strs ++ [a], ⟨x, []⟩, h.emit hk hr⟩

theorem Parsed.encodes (h : Parsed e xs out strs a) (hsteps : Encodes e ys f outs) :
    ∃ strs' b, Parsed f (xs ++ ys) (out ++ outs) strs' b := by
  induction hsteps generalizing xs out strs a with
  | nil => rw [List.append_nil, List.append_nil]; exact ⟨strs, a, h⟩
  | cons hstep _ ih =>
    obtain ⟨_, _, h'⟩ := h.step hstep
    obtain ⟨strs', b, hlast⟩ := ih h'
    rw [List.append_assoc, List.append_assoc] at hlast
    exact ⟨strs', b, hlast⟩

/-- Every non-empty symbol sequence after ENC_INIT is parsed. -/
theorem parsed_of_encodes (hne : xs ≠ []) (h : Encodes encInitial xs e out) : ∃ strs a, Parsed e xs out strs a := by
  cases h with
  | nil => exact absurd rfl hne
  | @cons _ _ _ x _ _ _ hstep hrest =>
    rw [encStep_starts rfl] at hstep
    cases hstep
    exact (parsed_first x).encodes hrest

/-- With the match, which a flush emits, the codes' strings are all of the parse's. -/
theorem Parsed.flush (h : Parsed e xs out strs a) :
    (out ++ [e.matchCode]).map (fun k => dictString e.next e.table k) = (strs ++ [a]).map some := by
  have hall := List.rel_append h.strings (.cons h.last .nil)
  rwa [← List.forall₂_eq_eq_eq, List.forall₂_map_left_iff, List.forall₂_map_right_iff]

end Parsed

/-- Settles O38: the segment's symbols are parsed, by induction on EncStep, and the flush emits the last code of the
parse. -/
theorem encodedStringsJoinToTheInput : Obligations.EncodedStringsJoinToTheInput := by
  refine ⟨fun s xs hsafe hne => ?symbols, fun s hsafe => ⟨_, runCommands_segment hsafe (.nil encInitial), ?none⟩⟩
  case none => exact List.append_nil _
  case symbols =>
    obtain ⟨e, out, hsteps⟩ := exists_encodes (by decide : encInitial.Inv) xs
    obtain ⟨strs, a, hp⟩ := parsed_of_encodes hne hsteps
    refine ⟨_, out ++ [e.matchCode], strs ++ [a], runCommands_segment hsafe hsteps, hsafe, ?stream, hp.flush, ?joined,
      ?positive, ?count, fun n k b hn hk hb => ?entries⟩
    case stream => rw [if_pos hp.mv, List.append_assoc]
    case joined => rw [List.flatMap_append, List.flatMap_singleton, hp.joined]
    case positive => simp
    case count => simpa using hp.count
    case entries =>
      exact hp.entries.concat hp.firsts_length e.matchCode n k b.first hn hk (by rw [List.getElem?_map, hb]; rfl)

end Sys2Proof.Proofs
end

section
/-! PROOFS. The Decoder (43_decoder.md): DEC_INIT, DEC_CODE, DEC_BYTE, DEC_END, and the round trip with the Encoder. -/

namespace Sys2Proof.Proofs

open Sys2Proof.Machine

/-! ### DecStep (R74) -/

section Step

variable {d f : Dec} {k : Code} {cur : SymString} {r : Code × Store 16 Entry} {out : List Byte}

/-- The first code is emitted and becomes the previous one. -/
theorem decStep_starts (hpv : d.pv = false) (hk : k.toNat < 256) :
    decStep k d = .ok ({ d with prev := k, pv := true }, [lowByte k]) := by
  rw [decStep, if_pos hpv, if_neg (by omega)]

/-- A later code that resolves is emitted and completes an entry. -/
theorem decStep_resolves (hpv : d.pv = true) (hcur : currentString d k = .ok cur)
    (hr : insertEntry d.next d.table ⟨d.prev, cur.first⟩ = .ok r) :
    decStep k d = .ok ({ d with next := r.1, table := r.2, prev := k }, cur.symbols) := by
  simp [decStep, hpv, hcur, hr]

/-- A key resolves to its string (step 2). -/
theorem currentString_key (hk : k.toNat < d.next.toNat) (ha : dictString d.next d.table k = some cur) :
    currentString d k = .ok cur := by
  rw [currentString, if_pos hk, decString_eq_ok.mpr ha]

/-- The next code that would be assigned resolves to the previous string with its own first symbol (step 3). -/
theorem currentString_next (hroom : d.next.toNat < 65535) {p : SymString}
    (hp : dictString d.next d.table d.prev = some p) : currentString d d.next = .ok (p.snoc p.first) := by
  rw [currentString, if_neg (Nat.lt_irrefl _), if_pos ⟨rfl, hroom⟩, decString_eq_ok.mpr hp]

/-- A first code that is no seed is corrupt. -/
theorem decStep_corrupt_first (hpv : d.pv = false) (hk : 256 ≤ k.toNat) :
    decStep k d = .error (.raise .corruptCode) := by
  rw [decStep, if_pos hpv, if_pos hk]

/-- A later code that is neither a key nor the next code that would be assigned is corrupt. -/
theorem decStep_corrupt (hpv : d.pv = true) (hk : ¬ k.toNat < d.next.toNat)
    (hnext : ¬ (k = d.next ∧ d.next.toNat < 65535)) : decStep k d = .error (.raise .corruptCode) := by
  simp [decStep, currentString, hpv, hk, hnext]

/-- Every other later code resolves. -/
theorem exists_currentString (hi : d.Inv) (hpv : d.pv = true)
    (hk : k.toNat < d.next.toNat ∨ (k = d.next ∧ d.next.toNat < 65535)) : ∃ cur, currentString d k = .ok cur := by
  obtain ⟨ht, hprev, -, -⟩ := hi
  rcases hk with hk | ⟨rfl, hroom⟩
  · obtain ⟨a, ha⟩ := exists_dictString ht hk
    exact ⟨a, currentString_key hk ha⟩
  · obtain ⟨p, hp⟩ := exists_dictString ht (hprev hpv)
    exact ⟨_, currentString_next hroom hp⟩

end Step

/-! ### DEC_INIT (R75) -/

theorem exec_decInit (s : State) : exec .decInit s = .next { s with dec := decInitial } := rfl

/-- Settles O39: every field is read off the Decoder that DEC_INIT leaves. -/
theorem decInitEmptiesTheDictionary : Obligations.DecInitEmptiesTheDictionary :=
  fun s => ⟨rfl, _, exec_decInit s, rfl, rfl, rfl, rfl, rfl, rfl, readStore_nil, rfl, rfl⟩

/-! ### DEC_CODE (R76) -/

section Code

variable {s : State} {d : Dec} {k : Code} {out : List Byte}

theorem exec_decCode_pending (hh : s.dec.half = true) (k : Code) :
    exec (.decCode k) s = .next (raiseError .sequence (encode (.decCode k)) s) := by
  simp [exec, execDecCode, hh]

theorem exec_decCode_step (hh : s.dec.half = false) (h : decStep k s.dec = .ok (d, out)) :
    exec (.decCode k) s = .next { s with dec := d, decOut := s.decOut ++ out } := by
  simp [exec, execDecCode, consumeCode, hh, h]

theorem exec_decCode_raise {c : Cause} (hh : s.dec.half = false) (h : decStep k s.dec = .error (.raise c)) :
    exec (.decCode k) s = .next (raiseError c (encode (.decCode k)) s) := by
  simp [exec, execDecCode, consumeCode, hh, h]

end Code

theorem lowByte_eq_setWidth (k : Code) : lowByte k = k.setWidth 8 :=
  BitVec.eq_of_toNat_eq (by rw [lowByte_toNat, BitVec.toNat_setWidth])

/-- Settles O40: a case of DecStep for each clause; a code that resolves is a key or NEXT, and the cap is the two
outcomes of the insertion. -/
theorem decCodeStepsTheDecoder : Obligations.DecCodeStepsTheDecoder := by
  intro s k hi
  refine ⟨packWord_setWidth 0x31#8 k (by decide), fun hh => exec_decCode_pending hh k,
    fun hh hpv hk => exec_decCode_raise hh (decStep_corrupt_first hpv hk), fun hh hpv hk => ?first,
    fun hh hpv hk hnext => exec_decCode_raise hh (decStep_corrupt hpv hk hnext), fun hh hpv hk => ?later⟩
  case first => rw [exec_decCode_step hh (decStep_starts hpv hk), lowByte_eq_setWidth]
  case later =>
    obtain ⟨cur, hcur⟩ := exists_currentString hi hpv hk
    have hr := insertEntry_ok hi.1.1 ⟨s.dec.prev, cur.first⟩ (t := s.dec.table)
    refine ⟨_, cur, exec_decCode_step hh (decStep_resolves hpv hcur hr), fun hlt => ?key, fun heq => ?next, rfl,
      fun hroom => ⟨?room, readStore_insert_next hr hroom, fun j hj => readStore_insert_other hr hj⟩,
      fun hfull => ?full⟩
    case key =>
      rcases currentString_cases hcur with ⟨-, ha⟩ | ⟨rfl, -⟩
      · exact ha
      · exact absurd hlt (Nat.lt_irrefl _)
    case next =>
      rcases currentString_cases hcur with ⟨hlt, -⟩ | ⟨-, -, p, hp, rfl⟩
      · exact absurd hlt (heq ▸ Nat.lt_irrefl _)
      · exact ⟨p, hp, snoc_symbols p p.first⟩
    case room => rw [if_pos hroom]
    case full => simp [hfull]

/-! ### DEC_BYTE (R77) -/

section SecondByte

variable {s t : State} {b : Byte} {d : Dec} {out : List Byte}

theorem exec_decByte_second (hh : s.dec.half = true)
    (h : decStep (pairCode s.glob.byteOrder s.dec.byte0 b) s.dec = .ok (d, out)) :
    exec (.decByte b) s =
      .next { s with dec := { d with half := false, byte0 := 0#8 }, decOut := s.decOut ++ out } := by
  simp [exec, execDecByte, completePair, consumeCode, hh, h]

theorem exec_decByte_raise (hh : s.dec.half = true) {c : Cause}
    (h : decStep (pairCode s.glob.byteOrder s.dec.byte0 b) s.dec = .error (.raise c)) :
    exec (.decByte b) s = .next (raiseError c (encode (.decByte b)) s) := by
  simp [exec, execDecByte, completePair, consumeCode, hh, h]

/-- Where DEC_CODE takes a code with no byte pending, the second byte of its pair has the same effect: DecStep does not
look at the pending byte. -/
theorem exec_decByte_of_decCode (hh : s.dec.half = true)
    (h : exec (.decCode (pairCode s.glob.byteOrder s.dec.byte0 b)) { s with dec := { s.dec with half := false } } =
      .next t) (ht : t.glob.err = false) :
    exec (.decByte b) s = .next { t with dec := { t.dec with byte0 := 0#8 } } := by
  cases exec_effect h with
  | raised => simp at ht
  | decCode _ hstep =>
    have hpending := hstep.symm.trans (decStep_pending _ s.dec false s.dec.byte0)
    cases hs : decStep (pairCode s.glob.byteOrder s.dec.byte0 b) s.dec with
    | error e =>
      rw [hs] at hpending
      cases hpending
    | ok r =>
      rw [hs] at hpending
      cases hpending
      rw [exec_decByte_second hh hs]

end SecondByte

/-- Settles O41: the pair's code, and DecStep of it. -/
theorem decByteCompletesTheCode : Obligations.DecByteCompletesTheCode := by
  intro s b hi
  refine ⟨packWord_setWidth 0x32#8 b (by decide), fun hh => exec_decByte_first hh b,
    fun hh => ⟨pairCode s.glob.byteOrder s.dec.byte0 b, fun ho => ?high, fun ho => ?low,
      fun d out => exec_decByte_second hh, fun e he => ?raises, fun t _ => exec_decByte_of_decCode hh⟩⟩
  case high => rw [ho, pairCode_highFirst_toNat]
  case low => rw [ho]; exact pairCode_highFirst_toNat b s.dec.byte0
  case raises =>
    obtain ⟨rfl, -⟩ := decStep_error hi he
    exact exec_decByte_raise hh he

/-! ### DEC_END (R78) -/

/-- Settles O42: the two values of HALF. -/
theorem decEndChecksTheByteCount : Obligations.DecEndChecksTheByteCount :=
  fun s => ⟨rfl, fun hh => by simp [exec, execDecEnd, hh], fun hh => by simp [exec, execDecEnd, hh]⟩

/-! ### A stream of codes -/

/-- DecStep on the codes one after another, with the symbols it emits. -/
inductive Decodes : Dec → List Code → Dec → List Byte → Prop where
  | nil (d : Dec) : Decodes d [] d []
  | cons {d f g : Dec} {k : Code} {ks : List Code} {out outs : List Byte} (hstep : decStep k d = .ok (f, out))
      (hrest : Decodes f ks g outs) : Decodes d (k :: ks) g (out ++ outs)

section Streams

variable {d f g : Dec} {ks ls : List Code} {k : Code} {out outs : List Byte}

theorem Decodes.concat (h : Decodes d ks f out) (hstep : decStep k f = .ok (g, outs)) :
    Decodes d (ks ++ [k]) g (out ++ outs) := by
  induction h with
  | nil =>
    rw [List.nil_append, List.nil_append, ← List.append_nil outs]
    exact .cons hstep (.nil g)
  | cons hfirst _ ih =>
    rw [List.cons_append, List.append_assoc]
    exact .cons hfirst (ih hstep)

/-- A stream can be cut anywhere. -/
theorem Decodes.split (h : Decodes d (ks ++ ls) g out) :
    ∃ f outs outs', Decodes d ks f outs ∧ Decodes f ls g outs' := by
  induction ks generalizing d out with
  | nil => exact ⟨d, _, _, .nil d, h⟩
  | cons k ks ih =>
    cases h with
    | cons hstep hrest =>
      obtain ⟨f, outs, outs', hks, hls⟩ := ih hrest
      exact ⟨f, _, outs', .cons hstep hks, hls⟩

theorem Decodes.inv (h : Decodes d ks f out) (hi : d.Inv) : f.Inv := by
  induction h with
  | nil => exact hi
  | cons hstep _ ih => exact ih (decStep_inv hi hstep).1

/-- DecStep never counts NEXT down. -/
theorem decStep_next_le (h : decStep k d = .ok (f, out)) : d.next.toNat ≤ f.next.toNat := by
  rcases decStep_cases h with ⟨-, -, rfl, -⟩ | ⟨-, cur, r, -, hr, rfl, -⟩
  · exact Nat.le_refl _
  · rcases insertEntry_cases hr with ⟨hroom, -, rfl⟩ | ⟨-, rfl⟩
    · show d.next.toNat ≤ (d.next + 1#16).toNat
      bv_omega
    · exact Nat.le_refl _

/-- The entries below NEXT stay. -/
theorem Decodes.keeps (h : Decodes d ks f out) (hk : k.toNat < d.next.toNat) :
    readStore f.table k = readStore d.table k := by
  induction h with
  | nil => rfl
  | cons hstep _ ih =>
    obtain ⟨-, -, hread⟩ := decStep_frame hstep
    rw [ih (hk.trans_le (decStep_next_le hstep)), hread k fun heq => Nat.ne_of_lt hk (congrArg _ heq)]

/-- After the first code NEXT counts the codes up to the cap. -/
theorem Decodes.count {n : Nat} (h : Decodes d ks f out) (hpv : d.pv = true) (hn : d.next.toNat = 256 + min n 65279) :
    f.next.toNat = 256 + min (n + ks.length) 65279 := by
  induction h generalizing n with
  | nil => exact hn
  | @cons d f _ _ _ _ _ hstep _ ih =>
    rcases decStep_cases hstep with ⟨hnone, -⟩ | ⟨-, cur, r, -, hr, rfl, -⟩
    · simp [hpv] at hnone
    · rw [ih hpv (insertEntry_count hr hn), List.length_cons, Nat.add_right_comm, Nat.add_assoc]

/-- The first code makes no entry. -/
theorem Decodes.count_initial (h : Decodes decInitial ks f out) (hne : ks ≠ []) :
    f.next.toNat = 256 + min (ks.length - 1) 65279 := by
  cases h with
  | nil => exact absurd rfl hne
  | cons hstep hrest =>
    rcases decStep_cases hstep with ⟨-, -, rfl, -⟩ | ⟨hpv, -⟩
    · simpa using hrest.count (n := 0) rfl rfl
    · cases hpv

/-- The steps of the Decoder are what a run of DEC_CODE does. -/
theorem runCommands_decodes (h : Decodes d ks f out) {s : State} (hd : s.dec = d) (hsafe : Safe s)
    (hh : s.dec.half = false) :
    runCommands (ks.map .decCode) s = .next { s with dec := f, decOut := s.decOut ++ out, inputs := [] } := by
  induction h generalizing s with
  | nil d =>
    subst hd
    rw [List.map_nil, runCommands_nil, List.append_nil]
  | @cons _ f _ _ _ out _ hstep _ ih =>
    subst hd
    rw [List.map_cons, runCommands_cons_exec hsafe (exec_decCode_step hh hstep),
      ih (s := { s with dec := f, decOut := s.decOut ++ out }) rfl hsafe ((decStep_frame hstep).1.trans hh),
      List.append_assoc]

/-- A whole stream, from DEC_INIT. -/
theorem runCommands_decInit (h : Decodes decInitial ks f out) {s : State} (hsafe : Safe s) :
    runCommands (.decInit :: ks.map .decCode) s =
      .next { s with dec := f, decOut := s.decOut ++ out, inputs := [] } := by
  rw [runCommands_cons_exec hsafe (exec_decInit s),
    runCommands_decodes h (s := { s with dec := decInitial }) rfl hsafe rfl]

end Streams

/-! ### The Decoder behind the Encoder (R79) -/

/-- The insertion that the next code completes when its string begins with `x`; the first code completes none. -/
def insertPending (d : Dec) (x : Byte) : Except Stop (Code × Store 16 Entry) :=
  if d.pv then insertEntry d.next d.table ⟨d.prev, x⟩ else .ok (d.next, d.table)

theorem insertPending_first {d : Dec} (hpv : d.pv = false) (x : Byte) :
    insertPending d x = .ok (d.next, d.table) := by
  simp [insertPending, hpv]

theorem insertPending_later {d : Dec} (hpv : d.pv = true) (x : Byte) :
    insertPending d x = insertEntry d.next d.table ⟨d.prev, x⟩ := if_pos hpv

section Mirror

variable {d : Dec} {k : Code} {a : SymString} {r : Code × Store 16 Entry}

/-- A key of the table with the pending entry resolves before that entry is made, to the same string: where it is that
entry's own code, the pair makes the string the previous one with its own first symbol. -/
theorem currentString_of_insert (hi : d.Inv) (hpv : d.pv = true)
    (hr : insertEntry d.next d.table ⟨d.prev, a.first⟩ = .ok r) (hk : k.toNat < r.1.toNat)
    (ha : dictString r.1 r.2 k = some a) : currentString d k = .ok a := by
  obtain ⟨ht, hprev, -, -⟩ := hi
  have hprev := hprev hpv
  by_cases hkey : k.toNat < d.next.toNat
  · obtain ⟨b, hb⟩ := exists_dictString ht hkey
    obtain rfl := Option.some.inj ((dictString_insert ht hprev hr hb).symm.trans ha)
    exact currentString_key hkey hb
  · obtain ⟨hroom, rfl⟩ : d.next.toNat < 65535 ∧ k = d.next := by
      rcases insertEntry_cases hr with ⟨hroom, -, rfl⟩ | ⟨-, rfl⟩
      · exact ⟨hroom, by simp only at hk; bv_omega⟩
      · exact absurd hk hkey
    obtain ⟨p, hp⟩ := exists_dictString ht hprev
    have hsnoc : p.snoc a.first = a := by
      rw [dictString_entry (ht.insert hprev hr) (readStore_insert_next hr hroom), dictString_insert ht hprev hr hp,
        Option.map_some] at ha
      exact Option.some.inj ha
    have hfirst : a.first = p.first := by rw [← hsnoc, snoc_first]
    rw [currentString_next hroom hp, ← hfirst, hsnoc]

/-- DecStep makes the pending entry and emits the code's string in the table with that entry. -/
theorem decStep_of_insertPending (hi : d.Inv) (hr : insertPending d a.first = .ok r) (hk : k.toNat < r.1.toNat)
    (ha : dictString r.1 r.2 k = some a) :
    decStep k d = .ok ({ d with next := r.1, table := r.2, prev := k, pv := true }, a.symbols) := by
  cases hpv : d.pv with
  | false =>
    obtain rfl := Except.ok.inj ((insertPending_first hpv _).symm.trans hr)
    obtain ⟨-, -, hnone, -⟩ := hi
    have hseed : k.toNat < 256 := by simpa [(hnone hpv).2] using hk
    obtain rfl := Option.some.inj ((dictString_seed hseed).symm.trans ha)
    exact decStep_starts hpv hseed
  | true =>
    rw [insertPending_later hpv] at hr
    rw [decStep_resolves hpv (currentString_of_insert hi hpv hr hk ha) hr, hpv]

end Mirror

/-- In the middle of a segment, with the Encoder at `e` and the codes `out` emitted, the Decoder that has taken them is
at `d`: it has given back all but the match's symbols, and its table with the pending entry is the Encoder's. -/
structure Mirrored (e : Enc) (xs : List Byte) (out : List Code) (strs : List SymString) (a : SymString) (d : Dec) : Prop
    extends Parsed e xs out strs a where
  decodes : Decodes decInitial out d (strs.flatMap fun b => b.symbols)
  pending : insertPending d a.first = .ok (e.next, e.table)

section Mirrored

variable {e f : Enc} {x : Byte} {xs ys : List Byte} {out outs : List Code} {strs : List SymString} {a : SymString}
  {d : Dec}

theorem mirrored_first (x : Byte) :
    Mirrored { encInitial with matchCode := seedCode x, mv := true } [x] [] [] ⟨x, []⟩ decInitial where
  toParsed := parsed_first x
  decodes := .nil _
  pending := rfl

/-- The Decoder as it takes the Encoder's match. -/
def caughtUp (e : Enc) (d : Dec) : Dec :=
  { d with next := e.next, table := e.table, prev := e.matchCode, pv := true }

/-- The match, given to the Decoder, makes its table the Encoder's. -/
theorem Mirrored.catchUp (h : Mirrored e xs out strs a d) :
    Decodes decInitial (out ++ [e.matchCode]) (caughtUp e d) ((strs ++ [a]).flatMap fun b => b.symbols) := by
  obtain ⟨ht, -, hmatch, -⟩ := h.inv
  rw [List.flatMap_append, List.flatMap_singleton]
  exact h.decodes.concat
    (decStep_of_insertPending (h.decodes.inv (by decide)) h.pending (hmatch h.mv) h.last)

theorem Mirrored.step (h : Mirrored e xs out strs a d) (hstep : encStep x e = .ok (f, outs)) :
    ∃ strs' b d', Mirrored f (xs ++ [x]) (out ++ outs) strs' b d' := by
  rcases encStep_cases hstep with ⟨hmv, -, -⟩ | ⟨-, k, hk, rfl, rfl⟩ | ⟨-, hk, r, hr, rfl, rfl⟩
  · simp [h.mv] at hmv
  · rw [List.append_nil]
    exact ⟨strs, a.snoc x, d, h.toParsed.extend hk, h.decodes, h.pending⟩
  · exact ⟨strs ++ [a], ⟨x, []⟩, caughtUp e d, h.toParsed.emit hk hr, h.catchUp, hr⟩

theorem Mirrored.encodes (h : Mirrored e xs out strs a d) (hsteps : Encodes e ys f outs) :
    ∃ strs' b d', Mirrored f (xs ++ ys) (out ++ outs) strs' b d' := by
  induction hsteps generalizing xs out strs a d with
  | nil => rw [List.append_nil, List.append_nil]; exact ⟨strs, a, d, h⟩
  | cons hstep _ ih =>
    obtain ⟨_, _, _, h'⟩ := h.step hstep
    obtain ⟨strs', b, d', hlast⟩ := ih h'
    rw [List.append_assoc, List.append_assoc] at hlast
    exact ⟨strs', b, d', hlast⟩

/-- Every non-empty symbol sequence after ENC_INIT is mirrored. -/
theorem mirrored_of_encodes (hne : xs ≠ []) (h : Encodes encInitial xs e out) :
    ∃ strs a d, Mirrored e xs out strs a d := by
  cases h with
  | nil => exact absurd rfl hne
  | @cons _ _ _ x _ _ _ hstep hrest =>
    rw [encStep_starts rfl] at hstep
    cases hstep
    exact (mirrored_first x).encodes hrest

/-- Without the flush the match's symbols are lost. -/
theorem Mirrored.lost (h : Mirrored e xs out strs a d) :
    (strs.flatMap fun b => b.symbols) <+: xs ∧ (strs.flatMap fun b => b.symbols).length < xs.length := by
  rw [← h.joined]
  exact ⟨List.prefix_append _ _, by simp [SymString.symbols]⟩

end Mirrored

/-- A segment's codes decode to its symbols and leave the Encoder's table. -/
theorem decodes_segment {e : Enc} {xs : List Byte} {out : List Code} (hne : xs ≠ [])
    (h : Encodes encInitial xs e out) :
    e.mv = true ∧ ∃ d, Decodes decInitial (out ++ [e.matchCode]) d xs ∧ d.next = e.next ∧ d.table = e.table := by
  obtain ⟨strs, a, d, hm⟩ := mirrored_of_encodes hne h
  have hdec := hm.catchUp
  rw [List.flatMap_append, List.flatMap_singleton, hm.joined] at hdec
  exact ⟨hm.mv, _, hdec, rfl, rfl⟩

/-- Settles O44: with the flush the Decoder catches up with the Encoder, and without it the match is lost; the entries
after the beginning of a stream are those the whole stream leaves. -/
theorem decoderMirrorsTheEncoder : Obligations.DecoderMirrorsTheEncoder := by
  refine ⟨fun s t u xs codes hs hu hne hrun hout => ?flushed, fun s t u xs codes hs hu hne hrun hout => ?unflushed⟩
  all_goals obtain ⟨e, out, hsteps⟩ := exists_encodes (by decide : encInitial.Inv) xs
  case flushed =>
    obtain ⟨hmv, d, hdec, hnext, htable⟩ := decodes_segment hne hsteps
    obtain rfl := Host.Outcome.next.inj ((runCommands_segment hs hsteps).symm.trans hrun)
    obtain rfl : out ++ [e.matchCode] = codes := by
      rw [if_pos hmv, List.append_assoc] at hout
      exact List.append_cancel_left hout
    refine ⟨⟨_, runCommands_decInit hdec hu, hu, rfl, hnext, htable⟩, fun j hpos hj => ?beginning⟩
    case beginning =>
      rw [← List.take_append_drop j (out ++ [e.matchCode])] at hdec
      obtain ⟨f, outs, _, htake, hdrop⟩ := hdec.split
      refine ⟨_, runCommands_decInit htake hu, hu, ?count, fun k hk => ?entries⟩
      case count =>
        have hlen := List.length_take_of_le hj
        have := htake.count_initial (List.ne_nil_of_length_pos (by omega))
        rwa [hlen] at this
      case entries => rw [flushed, ← htable]; exact (hdrop.keeps hk).symm
  case unflushed =>
    obtain ⟨strs, a, d, hm⟩ := mirrored_of_encodes hne hsteps
    rw [runCommands_cons_exec hs (exec_encInit s),
      runCommands_encodes hsteps (s := { s with enc := encInitial }) rfl hs rfl] at hrun
    obtain rfl := Host.Outcome.next.inj hrun
    obtain rfl : out = codes := List.append_cancel_left hout
    exact ⟨_, _, runCommands_decInit hm.decodes hu, hu, rfl, hm.lost⟩

end Sys2Proof.Proofs
end

section
/-! PROOFS. Errors (60_exceptions.md): the conditions of each cause, error entry, priority, and leaving the halt. -/

namespace Sys2Proof.Proofs

open Sys2Proof.Machine

/-! ### The conditions of the cause table (R80) -/

/-- The codes that DecStep cannot resolve: a first code that is no seed, or a later one that is neither a key nor the
next code that would be assigned. -/
abbrev Unresolvable (k : Code) (d : Dec) : Prop :=
  (d.pv = false ∧ 256 ≤ k.toNat) ∨
  (d.pv = true ∧ ¬ k.toNat < d.next.toNat ∧ ¬ (k = d.next ∧ d.next.toNat < 65535))

/-- When the rule of a command raises a cause: the conditions that the table names. -/
inductive Raises : Instr → State → Cause → Prop where
  | dimensionInRun {i : Instr} {s : State} (n : Dim) (hi : i = .difSetCols n ∨ i = .difSetChans n ∨ i = .difSetRows n)
      (hrun : s.dif.state = .run) : Raises i s .sequence
  | modeInRun {b : BitVec 1} {s : State} (hrun : s.dif.state = .run) : Raises (.difSetMode b) s .sequence
  | sampleOutsideRun {v : Byte} {s : State} (hrun : s.dif.state ≠ .run) : Raises (.difSample v) s .sequence
  | sampleAfterFlush {v : Byte} {s : State} (hsym : s.dif.x ≠ 0#24 ∨ s.dif.mode = .invertible)
      (hchain : s.glob.chain = true) (hended : s.enc.ended = true) : Raises (.difSample v) s .sequence
  | symbolAfterFlush {x : Byte} {s : State} (hended : s.enc.ended = true) : Raises (.encSymbol x) s .sequence
  | codeWithBytePending {k : Code} {s : State} (hh : s.dec.half = true) : Raises (.decCode k) s .sequence
  | zeroDimension {i : Instr} {s : State} (hi : i = .difSetCols 0#24 ∨ i = .difSetChans 0#24 ∨ i = .difSetRows 0#24) :
      Raises i s .config
  | tooManyChannels {n : Dim} {s : State} (hn : s.params.maxChans < n.toNat) : Raises (.difSetChans n) s .config
  | startUnconfigured {s : State} (hzero : s.dif.cols = 0#24 ∨ s.dif.chans = 0#24 ∨ s.dif.rows = 0#24) :
      Raises .difStart s .config
  | unresolvableCode {k : Code} {s : State} (hk : Unresolvable k s.dec) : Raises (.decCode k) s .corruptCode
  | unresolvablePair {b : Byte} {s : State} (hh : s.dec.half = true)
      (hk : Unresolvable (pairCode s.glob.byteOrder s.dec.byte0 b) s.dec) : Raises (.decByte b) s .corruptCode
  | oddBytes {s : State} (hh : s.dec.half = true) : Raises .decEnd s .corruptOdd

theorem Raises.ne_noError {i : Instr} {s : State} {c : Cause} (h : Raises i s c) : c ≠ .noError := by
  rintro rfl
  cases h

/-! ### What the units' steps raise (R64, R68, R74) -/

section Units

variable {d : Dec} {e : Entry} {k next : Code} {table : Store 16 Entry} {c : Cause} {s t : State} {v : Byte}
  {sym : Option Byte}

/-- A string that cannot be read faults. -/
theorem decString_ne_raise : decString d k ≠ .error (.raise c) := by
  unfold decString
  split <;> simp

/-- An insertion that has no entry faults. -/
theorem insertEntry_ne_raise : insertEntry next table e ≠ .error (.raise c) := by
  unfold insertEntry
  split
  · split <;> simp
  · simp

/-- A code that is a key or NEXT is resolved, or its string cannot be read. -/
theorem currentString_ne_raise (h : k.toNat < d.next.toNat ∨ (k = d.next ∧ d.next.toNat < 65535)) :
    currentString d k ≠ .error (.raise c) := by
  unfold currentString
  by_cases hk : k.toNat < d.next.toNat
  · rw [if_pos hk]
    exact decString_ne_raise
  · rw [if_neg hk, if_pos (h.resolve_left hk)]
    cases hp : decString d d.prev with
    | ok p => simp
    | error r => exact fun hr => decString_ne_raise (hp.trans hr)

/-- DecStep raises only on a code that it cannot resolve. -/
theorem unresolvable_of_decStep (h : decStep k d = .error (.raise c)) : Unresolvable k d := by
  cases hpv : d.pv with
  | false =>
    refine .inl ⟨hpv, Nat.le_of_not_lt fun hk => ?_⟩
    rw [decStep_starts hpv hk] at h
    cases h
  | true =>
    refine .inr ⟨hpv, not_or.mp fun hk => ?_⟩
    rw [decStep, if_neg (by simp [hpv])] at h
    cases hcur : currentString d k with
    | error r => simp only [hcur] at h; exact currentString_ne_raise hk (hcur.trans (by simpa using h))
    | ok cur =>
      cases hr : insertEntry d.next d.table ⟨d.prev, cur.first⟩ with
      | error r => simp only [hcur, hr] at h; exact insertEntry_ne_raise (hr.trans (by simpa using h))
      | ok r => simp [hcur, hr] at h

/-- The Encoder takes a symbol without raising. -/
theorem consumeSymbol_ne_raise : consumeSymbol v s ≠ .error (.raise c) := by
  cases he : encStep v s.enc with
  | ok r => simp [consumeSymbol, he]
  | error r => simpa [consumeSymbol, he] using fun hr => encStep_raise (he.trans (congrArg _ hr))

theorem deliverSymbol_ne_raise : deliverSymbol sym s ≠ .error (.raise c) := by
  unfold deliverSymbol
  split
  · simp
  · split
    · exact consumeSymbol_ne_raise
    · simp

/-- A sample that yields a symbol stands outside column 0, or in an INVERTIBLE image. -/
theorem sampleSymbol_isSome {m : Nat} {f : Dif} (h : sampleSymbol v m f = .ok sym) (hs : sym.isSome = true) :
    f.x ≠ 0#24 ∨ f.mode = .invertible := by
  refine or_iff_not_imp_left.mpr fun hx => ?_
  rw [sampleSymbol, if_pos (not_not.mp hx)] at h
  cases hm : f.mode with
  | reference => rw [hm] at h; cases h; cases hs
  | invertible => rfl

theorem sampleSymbol_ne_raise {m : Nat} {f : Dif} : sampleSymbol v m f ≠ .error (.raise c) := by
  unfold sampleSymbol
  split
  · split <;> simp
  · split
    · simp
    · next r hr =>
      obtain ⟨g, rfl⟩ := readLeft_error hr
      simp

/-- The two checks of DIF_SAMPLE. -/
theorem takeSample_outOfSequence (h : takeSample v s = .error (.raise c)) :
    s.dif.state ≠ .run ∨
      ((s.dif.x ≠ 0#24 ∨ s.dif.mode = .invertible) ∧ s.glob.chain = true ∧ s.enc.ended = true) := by
  refine or_iff_not_imp_left.mpr fun hrun => ?_
  rw [takeSample, if_neg hrun] at h
  cases hsym : sampleSymbol v s.params.maxChans s.dif with
  | error r => simp only [hsym] at h; exact absurd (hsym.trans (by simpa using h)) sampleSymbol_ne_raise
  | ok sym =>
    simp only [hsym] at h
    split at h
    · next hend =>
      obtain ⟨⟨hsome, hchain⟩, hended⟩ : (sym.isSome = true ∧ s.glob.chain = true) ∧ s.enc.ended = true := by
        simpa using hend
      exact ⟨sampleSymbol_isSome hsym hsome, hchain, hended⟩
    · split at h
      · next r hr =>
        obtain ⟨f, rfl⟩ := recordSample_error hr
        cases h
      · exact absurd h deliverSymbol_ne_raise

theorem takeSample_glob (h : takeSample v s = .ok t) : t.glob = s.glob := by
  obtain ⟨-, sym, d, -, -, -, hdel⟩ := takeSample_cases h
  exact (deliverSymbol_frame hdel).2.1

theorem consumeSymbol_glob (h : consumeSymbol v s = .ok t) : t.glob = s.glob := by
  obtain ⟨e, out, -, rfl⟩ := consumeSymbol_cases h
  rfl

theorem consumeCode_glob (h : consumeCode k s = .ok t) : t.glob = s.glob := by
  obtain ⟨d, out, -, rfl⟩ := consumeCode_cases h
  rfl

theorem completePair_glob (h : completePair v s = .ok t) : t.glob = s.glob := by
  obtain ⟨d, out, -, rfl⟩ := completePair_cases h
  rfl

end Units

/-! ### Error entry (R82) -/

section Entry

variable {i : Instr} {s t : State} {w : Word}

/-- A command whose rule ends well without touching the global fields halts the block only by raising. -/
theorem finishCommand_halts {r : Except Stop State} (hok : ∀ u, r = .ok u → u.glob = s.glob)
    (herr : s.glob.err = false) (ht : t.glob.err = true) (h : finishCommand i s r = .next t) :
    ∃ c, r = .error (.raise c) ∧ t = raiseError c (encode i) s := by
  refine (finishCommand_next.mp h).resolve_left fun hr => ?_
  rw [hok t hr, herr] at ht
  cases ht

/-- A command that sets a dimension halts the block in RUN, or on an illegal value. -/
theorem setDimension_halts {n : Dim} {limit : Nat} {d : Dif} (herr : s.glob.err = false)
    (ht : (setDimension i n limit d s).glob.err = true) :
    (s.dif.state = .run ∧ setDimension i n limit d s = raiseError .sequence (encode i) s) ∨
    ((n = 0#24 ∨ limit < n.toNat) ∧ setDimension i n limit d s = raiseError .config (encode i) s) := by
  rcases setDimension_cases i n limit d s with h | ⟨-, h⟩ | ⟨-, -, -, h⟩
  · exact .inl h
  · exact .inr h
  · rw [h] at ht
    simp [herr] at ht

/-- A command that halts the block has raised a cause under one of its conditions, and has done nothing else. -/
theorem exec_halts (herr : s.glob.err = false) (h : exec i s = .next t) (ht : t.glob.err = true) :
    ∃ c, Raises i s c ∧ t = raiseError c (encode i) s := by
  have hmax (n : Dim) : ¬ 16777215 < n.toNat := Nat.not_lt.mpr (Nat.le_of_lt_succ n.isLt)
  cases i with
  | nop | setCtrl f | encInit | encFlush | decInit => cases h; simp [herr] at ht
  | softReset => cases h; cases ht
  | difSetCols n =>
    cases h
    rcases setDimension_halts herr ht with ⟨hrun, h⟩ | ⟨hn, h⟩
    · exact ⟨_, .dimensionInRun n (.inl rfl) hrun, h⟩
    · obtain rfl := hn.resolve_right (hmax n)
      exact ⟨_, .zeroDimension (.inl rfl), h⟩
  | difSetChans n =>
    cases h
    rcases setDimension_halts herr ht with ⟨hrun, h⟩ | ⟨rfl | hn, h⟩
    · exact ⟨_, .dimensionInRun n (.inr (.inl rfl)) hrun, h⟩
    · exact ⟨_, .zeroDimension (.inr (.inl rfl)), h⟩
    · exact ⟨_, .tooManyChannels hn, h⟩
  | difSetRows n =>
    cases h
    rcases setDimension_halts herr ht with ⟨hrun, h⟩ | ⟨hn, h⟩
    · exact ⟨_, .dimensionInRun n (.inr (.inr rfl)) hrun, h⟩
    · obtain rfl := hn.resolve_right (hmax n)
      exact ⟨_, .zeroDimension (.inr (.inr rfl)), h⟩
  | difSetMode b =>
    by_cases hrun : s.dif.state = .run
    · rw [exec_difSetMode_run hrun] at h
      cases h
      exact ⟨_, .modeInRun hrun, rfl⟩
    · rw [exec_difSetMode_ok hrun] at h
      cases h
      simp [herr] at ht
  | difStart =>
    by_cases hzero : s.dif.cols = 0#24 ∨ s.dif.chans = 0#24 ∨ s.dif.rows = 0#24
    · rw [exec, execDifStart, if_pos hzero] at h
      cases h
      exact ⟨_, .startUnconfigured hzero, rfl⟩
    · rw [exec_difStart (by simpa using hzero)] at h
      cases h
      simp [herr] at ht
  | difSample v =>
    obtain ⟨c, hc, rfl⟩ := finishCommand_halts (fun _ => takeSample_glob) herr ht h
    obtain rfl := takeSample_raise hc
    rcases takeSample_outOfSequence hc with hrun | ⟨hsym, hchain, hended⟩
    · exact ⟨_, .sampleOutsideRun hrun, rfl⟩
    · exact ⟨_, .sampleAfterFlush hsym hchain hended, rfl⟩
  | encSymbol x =>
    cases hended : s.enc.ended with
    | true =>
      rw [exec_encSymbol_ended hended] at h
      cases h
      exact ⟨_, .symbolAfterFlush hended, rfl⟩
    | false =>
      rw [exec, execEncSymbol, if_neg (by simp [hended])] at h
      obtain ⟨c, hc, -⟩ := finishCommand_halts (fun _ => consumeSymbol_glob) herr ht h
      exact absurd hc consumeSymbol_ne_raise
  | decCode k =>
    cases hh : s.dec.half with
    | true =>
      rw [exec_decCode_pending hh] at h
      cases h
      exact ⟨_, .codeWithBytePending hh, rfl⟩
    | false =>
      rw [exec, execDecCode, if_neg (by simp [hh])] at h
      obtain ⟨c, hc, rfl⟩ := finishCommand_halts (fun _ => consumeCode_glob) herr ht h
      have hstep := consumeCode_error hc
      obtain rfl := decStep_raise hstep
      exact ⟨_, .unresolvableCode (unresolvable_of_decStep hstep), rfl⟩
  | decByte b =>
    cases hh : s.dec.half with
    | true =>
      rw [exec, execDecByte, if_pos hh] at h
      obtain ⟨c, hc, rfl⟩ := finishCommand_halts (fun _ => completePair_glob) herr ht h
      have hstep := completePair_error hc
      obtain rfl := decStep_raise hstep
      exact ⟨_, .unresolvablePair hh (unresolvable_of_decStep hstep), rfl⟩
    | false =>
      rw [exec_decByte_first hh] at h
      cases h
      simp [herr] at ht
  | decEnd =>
    cases hh : s.dec.half with
    | true =>
      rw [exec, execDecEnd, if_pos hh] at h
      cases h
      exact ⟨_, .oddBytes hh, rfl⟩
    | false =>
      rw [exec, execDecEnd, if_neg (by simp [hh])] at h
      cases h
      simp [herr] at ht

/-- A word that halts the block has raised an error of decoding or one of its command, and has done nothing else. -/
theorem executeWord_halts (herr : s.glob.err = false) (h : executeWord w s = .next t) (ht : t.glob.err = true) :
    ∃ c, t = raiseError c w s ∧
      ((∃ e, decode w = .bad e ∧ c = decodeCause e) ∨ ∃ i, decode w = .ok i ∧ Raises i s c) := by
  cases hd : decode w with
  | bad e =>
    rw [executeWord_bad herr hd] at h
    cases h
    exact ⟨_, rfl, .inl ⟨e, rfl, rfl⟩⟩
  | ok i =>
    rw [executeWord_ok herr hd] at h
    obtain ⟨c, hc, rfl⟩ := exec_halts herr h ht
    exact ⟨c, by rw [encode_of_decode hd], .inr ⟨i, rfl, hc⟩⟩

end Entry

theorem decodeCause_ne_noError (e : DecodeError) : decodeCause e ≠ .noError := by cases e <;> decide

/-- Settles O10: the word has raised a cause, and the halt discards what follows. -/
theorem errorsArePrecise : Obligations.ErrorsArePrecise := by
  intro w s t herr h ht
  obtain ⟨c, rfl, hc⟩ := executeWord_halts herr h ht
  refine ⟨⟨c, ?cause, rfl⟩, rfl, fun w' hw' => executeWord_discarded rfl hw'⟩
  rcases hc with ⟨e, -, rfl⟩ | ⟨i, -, hi⟩
  · exact decodeCause_ne_noError e
  · exact hi.ne_noError

/-- A word with reserved bits set has an assigned opcode and fails the mask of its row (R52). -/
theorem mask_fails_of_decode {w : Word} (h : decode w = .bad .reservedBits) :
    ∃ m k, opcodeRow (opcodeField w) = some (m, k) ∧ w &&& k ≠ m := by
  cases hr : opcodeRow (opcodeField w) with
  | none =>
    rw [(decode_illegal_iff w).mpr hr] at h
    cases h
  | some row =>
    refine ⟨row.1, row.2, rfl, fun hm => ?_⟩
    obtain ⟨i, hi, -⟩ := (decode_of_row hr).1 hm
    rw [hi] at h
    cases h

/-- Settles O11: the cause is one of decoding, or one that the word's command raises. -/
theorem eachCauseHasItsCondition : Obligations.EachCauseHasItsCondition := by
  refine ⟨⟨rfl, rfl, rfl, rfl, rfl, rfl, rfl⟩, fun w s t herr h ht => ?condition⟩
  obtain ⟨c, rfl, ⟨e, hd, rfl⟩ | ⟨i, hd, hc⟩⟩ := executeWord_halts herr h ht
  · cases e with
    | illegalOpcode => exact ⟨rfl, .inl ⟨rfl, (decode_illegal_iff w).mp hd⟩⟩
    | reservedBits => exact ⟨rfl, .inr (.inl ⟨rfl, mask_fails_of_decode hd⟩)⟩
  · refine ⟨rfl, .inr (.inr ?_)⟩
    cases hc with
    | dimensionInRun n hi hrun => exact .inl ⟨rfl, _, hd, .inl ⟨n, hi, hrun⟩⟩
    | modeInRun hrun => exact .inl ⟨rfl, _, hd, .inr (.inl ⟨_, rfl, hrun⟩)⟩
    | sampleOutsideRun hrun => exact .inl ⟨rfl, _, hd, .inr (.inr (.inl ⟨_, rfl, hrun⟩))⟩
    | sampleAfterFlush hsym hchain hended =>
      exact .inl ⟨rfl, _, hd, .inr (.inr (.inr (.inl ⟨_, rfl, hsym, hchain, hended⟩)))⟩
    | symbolAfterFlush hended => exact .inl ⟨rfl, _, hd, .inr (.inr (.inr (.inr (.inl ⟨_, rfl, hended⟩))))⟩
    | codeWithBytePending hh => exact .inl ⟨rfl, _, hd, .inr (.inr (.inr (.inr (.inr ⟨_, rfl, hh⟩))))⟩
    | zeroDimension hi => exact .inr (.inl ⟨rfl, _, hd, .inl hi⟩)
    | tooManyChannels hn => exact .inr (.inl ⟨rfl, _, hd, .inr (.inl ⟨_, rfl, hn⟩)⟩)
    | startUnconfigured hzero => exact .inr (.inl ⟨rfl, _, hd, .inr (.inr ⟨rfl, hzero⟩)⟩)
    | unresolvableCode hk => exact .inr (.inr (.inl ⟨rfl, _, .inl hd, hk⟩))
    | unresolvablePair hh hk => exact .inr (.inr (.inl ⟨rfl, _, .inr ⟨_, hd, hh, rfl⟩, hk⟩))
    | oddBytes hh => exact .inr (.inr (.inr ⟨rfl, hd, hh⟩))

/-! ### Priority (R83) -/

/-- Settles O12: the order of Execute's checks, and the first check of the commands that have two. -/
theorem firstErrorInOrderIsRaised : Obligations.FirstErrorInOrderIsRaised :=
  ⟨fun _ _ => executeWord_unassigned, fun _ _ _ _ herr => executeWord_reserved herr rfl,
    fun _ _ h => ⟨congrArg _ (setDimension_run h), congrArg _ (setDimension_run h), congrArg _ (setDimension_run h)⟩,
    fun k _ hh => exec_decCode_pending hh k, fun _ _ => executeWord_discarded⟩

/-! ### Leaving the halt (R84, R85) -/

/-- Everything a step of a halted block can do to the global fields: nothing, unless it takes the word of SOFT_RESET
or a hardware reset. -/
theorem step_halted {s t : State} (herr : s.glob.err = true) (h : step s = .next t) :
    t.glob = s.glob ∨
    (∃ rest, s.inputs = .command softResetWord :: rest ∧ t = softReset { s with inputs := rest }) ∨
    (∃ rest, s.inputs = .hardReset :: rest ∧ t = hardReset { s with inputs := rest }) := by
  cases hin : s.inputs with
  | nil =>
    rw [step_idle hin] at h
    cases h
    exact .inl rfl
  | cons a rest =>
    rw [step_action hin] at h
    cases a with
    | command w =>
      rw [performAction, executeWord_halted w (by exact herr)] at h
      cases h
      by_cases hw : w = softResetWord
      · exact .inr (.inl ⟨rest, by rw [hw], if_pos hw⟩)
      · exact .inl (by rw [if_neg hw])
    | read a b => cases h; exact .inl (readPort_glob _ a b)
    | take ch => cases h; exact .inl (takeFront_glob _ ch)
    | hardReset => cases h; exact .inr (.inr ⟨rest, rfl, rfl⟩)

/-- Settles O13: of the three outcomes of a step only the two resets clear ERR, and both are taken in the halt. -/
theorem onlyResetLeavesTheHalt : Obligations.OnlyResetLeavesTheHalt := by
  refine ⟨fun s t herr h ht => ?leaves, fun s rest herr => ⟨fun hin => ?soft, fun hin => ?hard⟩⟩
  case leaves =>
    rcases step_halted herr h with hsame | ⟨rest, hin, rfl⟩ | ⟨rest, hin, rfl⟩
    · rw [hsame, herr] at ht
      cases ht
    · exact .inl ⟨rest, hin, holdsResetValues_of_units rfl rfl rfl rfl, rfl, rfl, rfl⟩
    · exact .inr ⟨rest, hin, holdsResetValues_of_units rfl rfl rfl rfl⟩
  case soft => exact ⟨_, (step_action hin).trans (executeWord_softReset _), rfl⟩
  case hard => exact ⟨_, step_action hin, rfl⟩

/-- Settles O14: a step of the halt keeps the global fields, or is one of the two resets. -/
theorem errorsDoNotNest : Obligations.ErrorsDoNotNest := by
  intro s t herr h
  rcases step_halted herr h with hsame | ⟨rest, -, rfl⟩ | ⟨rest, -, rfl⟩
  · exact .inl hsame
  · exact .inr rfl
  · exact .inr rfl

end Sys2Proof.Proofs
end

section
/-! PROOFS. Encoding (30_encoding.md) and operands: the round trips of decode and encode, the spec's example words, byte
pairs, differences, and the numbers of the assembler. -/

namespace Sys2Proof.Proofs

open Sys2Proof.Machine

/-! ### Decode and encode (R47 to R52) -/

/-- Settles O2, by `decode_encode`: the opcode selects the format, which gives back the operand. -/
theorem decodeOfEncodeIsTheCommand : Obligations.DecodeOfEncodeIsTheCommand := decode_encode

/-- Settles O3, by `encode_of_decode`: the payload of a word that decodes is its operand. -/
theorem encodeOfDecodeIsTheWord : Obligations.EncodeOfDecodeIsTheWord := fun _ _ => encode_of_decode

/-- Settles O1: the ten words are decoded. -/
theorem specExampleWordsDecode : Obligations.SpecExampleWordsDecode :=
  ⟨rfl, rfl, rfl, rfl, rfl, rfl, rfl, rfl, rfl, rfl⟩

/-! ### Byte pairs and differences (20_memory.md R37, 41_differencer.md R67) -/

/-- Settles O43: each byte is a half of the code, and the pair is read back by `pairCode_codeBytes`. -/
theorem codeBytesPairBack : Obligations.CodeBytesPairBack :=
  fun k => ⟨⟨⟨highByte_toNat k, lowByte_toNat k⟩, lowByte_toNat k, highByte_toNat k⟩,
    fun o => pairCode_codeBytes o k⟩

/-- Settles O28: both differences are their integer values, and the modular one is undone modulo 256. -/
theorem differencesAreExact : Obligations.DifferencesAreExact := by
  intro v l
  have hmod := modDifference_toNat v l
  have hv := v.isLt
  have hl := l.isLt
  refine ⟨absDifference_toNat v l, fun hle => ?above, fun hlt => ?below, BitVec.eq_of_toNat_eq ?recovered⟩
  case above => omega
  case below => omega
  case recovered =>
    rw [recoverSample, BitVec.toNat_ofNat]
    omega

/-! ### The assembler's numbers (R53) -/

theorem not_fits_of_le {w n : Nat} (h : 2 ^ w ≤ n) : fits w n = false := decide_eq_false (Nat.not_lt.mpr h)

theorem assembleLine_of_not_wf {l : AsmLine} (h : l.wf = false) : assembleLine l = none := by
  simp [assembleLine, h]

/-- A packed word is its opcode and then its payload. -/
theorem packWord_toNat (op : Byte) (p : BitVec 24) : (packWord op p).toNat = 2 ^ 24 * op.toNat + p.toNat := by
  have hop := op.isLt
  have hp := p.isLt
  have hor : 2 ^ 24 * op.toNat + p.toNat = 2 ^ 24 * op.toNat ||| p.toNat := Nat.two_pow_add_eq_or_of_lt hp _
  rw [hor, packWord, BitVec.toNat_or, BitVec.toNat_shiftLeft, BitVec.toNat_setWidth, BitVec.toNat_setWidth,
    Nat.shiftLeft_eq]
  congr 1 <;> omega

/-- The word of a number that fits its field is the opcode with the number. -/
theorem packWord_number_toNat (op : Byte) {w n : Nat} (hw : w ≤ 24) (hn : n < 2 ^ w) :
    (packWord op ((BitVec.ofNat w n).setWidth 24)).toNat = 2 ^ 24 * op.toNat + n := by
  have hlt : n < 2 ^ 24 := hn.trans_le (Nat.pow_le_pow_right (by decide) hw)
  rw [packWord_toNat, BitVec.toNat_setWidth, BitVec.toNat_ofNat, Nat.mod_eq_of_lt hn, Nat.mod_eq_of_lt hlt]

/-- The words of a line, as numbers. -/
abbrev lineWords (l : AsmLine) : Option (List Nat) := (assembleLine l).map (List.map fun i => (encode i).toNat)

/-- A well-formed line of one command is that command's word. -/
theorem lineWords_of_wf {l : AsmLine} {i : Instr} {n : Nat} (hwf : l.wf = true) (hl : AsmLine.expand l = [i])
    (hi : (encode i).toNat = n) : lineWords l = some [n] := by
  rw [lineWords, assembleLine_of_wf hwf, hl, Option.map_some, List.map_singleton, hi]

/-- The word of a 24-bit number that fits its field. -/
theorem packWord_dim_toNat (op : Byte) {n : Nat} (hn : n < 2 ^ 24) :
    (packWord op (BitVec.ofNat 24 n)).toNat = 2 ^ 24 * op.toNat + n := by
  rw [packWord_toNat, BitVec.toNat_ofNat, Nat.mod_eq_of_lt hn]

/-- SET_CTRL encodes `chain | (order << 1)`. -/
theorem lineWords_setCtrl {chain order : Nat} (hc : chain < 2 ^ 1) (ho : order < 2 ^ 1) :
    lineWords (.setCtrl chain order) = some [0x02000000 + chain + 2 * order] := by
  have hwf : (AsmLine.setCtrl chain order).wf = true := by rw [AsmLine.wf, fits_of_lt hc, fits_of_lt ho]; rfl
  refine lineWords_of_wf hwf rfl ((packWord_number_toNat 0x02#8 (by decide) (by omega)).trans ?_)
  rw [← Nat.add_assoc]
  rfl

/-- SET_CTRL refuses a bit that is no bit. -/
theorem setCtrl_refused {chain order : Nat} (h : 2 ≤ chain ∨ 2 ≤ order) :
    assembleLine (.setCtrl chain order) = none := by
  refine assembleLine_of_not_wf ?_
  rw [AsmLine.wf, Bool.and_eq_false_iff]
  exact h.imp not_fits_of_le not_fits_of_le

/-- Settles O58: a line is assembled exactly where its number fits, to the opcode with the number; the texts are
assembled. -/
theorem assemblerRefusesWhatDoesNotFit : Obligations.AssemblerRefusesWhatDoesNotFit := by
  refine ⟨fun n => ⟨fun hn => ?byteRefused, fun hn => ?codeRefused, fun hn => ?dimRefused, fun hn => ?byte,
    fun hn => ?code, fun hn => ?dim⟩, fun chain order => ⟨lineWords_setCtrl, setCtrl_refused⟩,
    by decide, by decide, by decide, by decide, by decide, by decide⟩
  case byteRefused =>
    have hfits : fits 8 n = false := not_fits_of_le hn
    exact ⟨assembleLine_of_not_wf hfits, assembleLine_of_not_wf hfits, assembleLine_of_not_wf hfits⟩
  case dimRefused =>
    have hfits : fits 24 n = false := not_fits_of_le hn
    exact ⟨assembleLine_of_not_wf hfits, assembleLine_of_not_wf hfits, assembleLine_of_not_wf hfits⟩
  case codeRefused => exact assembleLine_of_not_wf (not_fits_of_le hn)
  case byte =>
    have hfits : fits 8 n = true := fits_of_lt hn
    have hword (op : Byte) := packWord_number_toNat op (w := 8) (by decide) hn
    exact ⟨lineWords_of_wf hfits rfl (hword _), lineWords_of_wf hfits rfl (hword _),
      lineWords_of_wf hfits rfl (hword _)⟩
  case code => exact lineWords_of_wf (fits_of_lt hn) rfl (packWord_number_toNat _ (by decide) hn)
  case dim =>
    have hfits : fits 24 n = true := fits_of_lt hn
    have hword (op : Byte) := packWord_dim_toNat op hn
    exact ⟨lineWords_of_wf hfits rfl (hword _), lineWords_of_wf hfits rfl (hword _),
      lineWords_of_wf hfits rfl (hword _)⟩

end Sys2Proof.Proofs
end

section
/-! PROOFS. Words and steps (40_control.md R55, 70_reset_and_hazards.md): what a word and a step can do, the read port,
hardware reset, the invariant of the whole block, and the streams. -/

namespace Sys2Proof.Proofs

open Sys2Proof.Machine

section Steps

variable {s t : State} {w : Word} {i : Instr}

/-! ### What a word and a step can do -/

/-- Whatever a word does, it is the effect of a command, or it raises an error of decoding; a halted block has the
effect of SOFT_RESET, or of NOP. -/
theorem executeWord_effect (h : executeWord w s = .next t) :
    (∃ i, Effect i s t) ∨ ∃ e, t = raiseError (decodeCause e) w s := by
  cases herr : s.glob.err with
  | true =>
    rw [executeWord_halted w herr] at h
    cases h
    by_cases hw : w = softResetWord
    · rw [if_pos hw]; exact .inl ⟨_, .softReset⟩
    · rw [if_neg hw]; exact .inl ⟨_, .nop⟩
  | false =>
    cases hd : decode w with
    | ok i => exact .inl ⟨i, exec_effect ((executeWord_ok herr hd).symm.trans h)⟩
    | bad e => exact .inr ⟨e, (Host.Outcome.next.inj ((executeWord_bad herr hd).symm.trans h)).symm⟩

/-- A step is idle, or it takes the first of the host's actions. -/
theorem step_cases (h : step s = .next t) :
    t = s ∨ ∃ a rest, performAction a { s with inputs := rest } = .next t := by
  cases hin : s.inputs with
  | nil => exact .inl (Host.Outcome.next.inj ((step_idle hin).symm.trans h)).symm
  | cons a rest => exact .inr ⟨a, rest, (step_action hin).symm.trans h⟩

/-! ### The invariant -/

theorem executeWord_inv (hi : Inv s) (h : executeWord w s = .next t) : Inv t := by
  rcases executeWord_effect h with ⟨i, heff⟩ | ⟨e, rfl⟩
  · exact effect_inv hi heff
  · exact raise_inv hi (decodeCause_ne_noError e)

/-- Each action of the host keeps the invariant; reads and removals touch no field that it names. -/
theorem performAction_inv {a : HostAction} (hi : Inv s) (h : performAction a s = .next t) : Inv t := by
  cases a with
  | command w => exact executeWord_inv hi h
  | read addr inFlight => cases h; cases inFlight <;> exact hi
  | take ch => cases h; cases ch <;> exact hi
  | hardReset => cases h; exact reset_parts _ hi.2.1

/-! ### Progress (10_state.md R34) -/

/-- DEC_CODE of any code ends well or raises. -/
theorem exists_exec_decCode (hi : Inv s) (k : Code) : ∃ t, exec (.decCode k) s = .next t := by
  cases hh : s.dec.half with
  | true => exact ⟨_, exec_decCode_pending hh k⟩
  | false =>
    obtain ⟨-, -, -, -, hdec⟩ := hi
    cases hstep : decStep k s.dec with
    | ok r => exact ⟨_, exec_decCode_step hh hstep⟩
    | error e =>
      obtain ⟨rfl, -⟩ := decStep_error hdec hstep
      exact ⟨_, exec_decCode_raise hh hstep⟩

theorem exists_exec_decByte (hi : Inv s) (b : Byte) : ∃ t, exec (.decByte b) s = .next t := by
  cases hh : s.dec.half with
  | false => exact ⟨_, exec_decByte_first hh b⟩
  | true =>
    obtain ⟨-, -, -, -, hdec⟩ := hi
    cases hstep : decStep (pairCode s.glob.byteOrder s.dec.byte0 b) s.dec with
    | ok r => exact ⟨_, exec_decByte_second hh hstep⟩
    | error e =>
      obtain ⟨rfl, -⟩ := decStep_error hdec hstep
      exact ⟨_, exec_decByte_raise hh hstep⟩

/-- A sample is delivered, or raises SEQUENCE. -/
theorem exists_exec_difSample (hi : Inv s) (v : Byte) : ∃ t, exec (.difSample v) s = .next t := by
  by_cases hrun : s.dif.state = .run
  · obtain ⟨sym, hsym⟩ := sampleSymbol_of_inv (dif_inv hi) hrun v
    by_cases hend : sym.isSome = true ∧ s.glob.chain = true ∧ s.enc.ended = true
    · obtain ⟨hsome, hchain, hended⟩ := hend
      obtain ⟨a, rfl⟩ := Option.isSome_iff_exists.mp hsome
      exact ⟨_, exec_difSample_ended hrun hsym hchain hended⟩
    · obtain ⟨t, hexec, -⟩ := exec_difSample_delivers hi hrun hsym hend
      exact ⟨t, hexec⟩
  · exact ⟨_, exec_difSample_not_run hrun v⟩

theorem exists_exec_encSymbol (hi : Inv s) (x : Byte) : ∃ t, exec (.encSymbol x) s = .next t := by
  cases hended : s.enc.ended with
  | true => exact ⟨_, exec_encSymbol_ended hended x⟩
  | false =>
    obtain ⟨-, -, -, henc, -⟩ := hi
    obtain ⟨r, hstep⟩ := encStep_ok x henc.1.1
    exact ⟨_, exec_encSymbol_step hended hstep⟩

theorem exec_decEnd_ok (hh : s.dec.half = false) : exec .decEnd s = .next s := by
  rw [exec, execDecEnd, if_neg (by simp [hh]), finishCommand_ok]

/-- Every command runs from a state of the invariant. -/
theorem exists_exec (hi : Inv s) (i : Instr) : ∃ t, exec i s = .next t := by
  cases i with
  | nop | softReset | setCtrl | difSetCols | difSetChans | difSetRows | encInit | encFlush | decInit => exact ⟨_, rfl⟩
  | difSetMode b =>
    by_cases hrun : s.dif.state = .run
    · exact ⟨_, exec_difSetMode_run hrun b⟩
    · exact ⟨_, exec_difSetMode_ok hrun b⟩
  | difStart =>
    by_cases hzero : s.dif.cols = 0#24 ∨ s.dif.chans = 0#24 ∨ s.dif.rows = 0#24
    · exact ⟨_, by rw [exec, execDifStart, if_pos hzero, finishCommand_raise]⟩
    · exact ⟨_, exec_difStart (by simpa using hzero)⟩
  | difSample v => exact exists_exec_difSample hi v
  | encSymbol x => exact exists_exec_encSymbol hi x
  | decCode k => exact exists_exec_decCode hi k
  | decByte b => exact exists_exec_decByte hi b
  | decEnd =>
    cases hh : s.dec.half with
    | true => exact ⟨_, by rw [exec, execDecEnd, if_pos hh, finishCommand_raise]⟩
    | false => exact ⟨_, exec_decEnd_ok hh⟩

/-- Every word is performed, discarded, or raises. -/
theorem exists_executeWord (hi : Inv s) (w : Word) : ∃ t, executeWord w s = .next t := by
  cases herr : s.glob.err with
  | true => exact ⟨_, executeWord_halted w herr⟩
  | false =>
    cases hd : decode w with
    | ok i => rw [executeWord_ok herr hd]; exact exists_exec hi i
    | bad e => exact ⟨_, executeWord_bad herr hd⟩

/-! ### The streams and the parameters (10_state.md R14, R29) -/

/-- The effect of a command only appends to the streams. -/
theorem effect_streams (h : Effect i s t) :
    s.difOut <+: t.difOut ∧ s.encOut <+: t.encOut ∧ s.decOut <+: t.decOut := by
  cases h with
  | difSample hs =>
    obtain ⟨-, sym, d, -, -, -, hdel⟩ := takeSample_cases hs
    rcases deliverSymbol_cases hdel with ⟨-, rfl⟩ | ⟨a, -, -, rfl⟩ | ⟨a, e, out, -, -, -, rfl⟩
    · exact ⟨List.prefix_rfl, List.prefix_rfl, List.prefix_rfl⟩
    · exact ⟨List.prefix_append _ _, List.prefix_rfl, List.prefix_rfl⟩
    · exact ⟨List.prefix_rfl, List.prefix_append _ _, List.prefix_rfl⟩
  | encSymbol => exact ⟨List.prefix_rfl, List.prefix_append _ _, List.prefix_rfl⟩
  | encFlush =>
    refine ⟨List.prefix_rfl, ?_, List.prefix_rfl⟩
    show s.encOut <+: if s.enc.mv = true then s.encOut ++ [s.enc.matchCode] else s.encOut
    split
    · exact List.prefix_append _ _
    · exact List.prefix_rfl
  | decCode | decByteSecond => exact ⟨List.prefix_rfl, List.prefix_rfl, List.prefix_append _ _⟩
  | _ => exact ⟨List.prefix_rfl, List.prefix_rfl, List.prefix_rfl⟩

theorem performAction_params {a : HostAction} (h : performAction a s = .next t) : t.params = s.params := by
  cases a with
  | command w =>
    cases herr : s.glob.err with
    | true =>
      rw [performAction, executeWord_halted w herr] at h
      cases h
      split <;> rfl
    | false =>
      rw [performAction] at h
      cases hd : decode w with
      | ok i => exact (exec_hostSide ((executeWord_ok herr hd).symm.trans h)).1
      | bad e => rw [executeWord_bad herr hd] at h; cases h; rfl
  | read addr inFlight => cases h; exact readPort_params s addr inFlight
  | take ch => cases h; exact takeFront_params s ch
  | hardReset => cases h; rfl

/-- The codes a command emits on ENC_OUT are the match of the Encoder before it, which is a key (R71, R72). -/
theorem effect_encOut (hi : Inv s) (h : Effect i s t) :
    ∃ out, t.encOut = s.encOut ++ out ∧ ∀ k ∈ out, k.toNat < s.enc.next.toNat := by
  obtain ⟨-, -, -, henc, -⟩ := hi
  cases h with
  | difSample hs =>
    obtain ⟨-, sym, d, -, -, -, hdel⟩ := takeSample_cases hs
    rcases deliverSymbol_cases hdel with ⟨-, rfl⟩ | ⟨a, -, -, rfl⟩ | ⟨a, e, out, -, -, hstep, rfl⟩
    · exact ⟨[], by simp⟩
    · exact ⟨[], by simp⟩
    · exact ⟨out, rfl, (encStep_inv henc hstep).2.2.2⟩
  | @encSymbol _ _ _ out _ hstep => exact ⟨out, rfl, (encStep_inv henc hstep).2.2.2⟩
  | encFlush =>
    cases hmv : s.enc.mv with
    | true => exact ⟨[s.enc.matchCode], by simp, by simpa using henc.2.2.1 hmv⟩
    | false => exact ⟨[], by simp⟩
  | _ => exact ⟨[], by simp⟩

end Steps

/-- Settles O46: the units are at reset, and MAX_CHANS is the successor of a number below its greatest value. -/
theorem resetMeetsTheInvariant : Obligations.ResetMeetsTheInvariant := by
  refine reset_parts _ ⟨Nat.le_add_left _ _, ?_⟩
  exact Config.maxChansLessOne.isLt

/-- Settles O47: an idle step stays, and each action of the host keeps the invariant. -/
theorem everyStepKeepsTheInvariant : Obligations.EveryStepKeepsTheInvariant := by
  intro s t hi h
  rcases step_cases h with rfl | ⟨a, rest, hact⟩
  · exact hi
  · exact performAction_inv (s := { s with inputs := rest }) hi hact

/-- Settles O48: every word has a next state, and the host's other actions always have one. -/
theorem noStepStops : Obligations.NoStepStops := by
  intro s hi
  cases hin : s.inputs with
  | nil => exact ⟨s, step_idle hin⟩
  | cons a rest =>
    rw [step_action hin]
    cases a with
    | command w => exact exists_executeWord (s := { s with inputs := rest }) hi w
    | read | take | hardReset => exact ⟨_, rfl⟩

/-- Settles O9, by `runCommands_append`: what is pending behind a command does not matter to it. -/
theorem runsOfCommandsCompose : Obligations.RunsOfCommandsCompose := fun _ _ _ _ h => runCommands_append h

/-- Settles O37: the codes are below NEXT, which is at most 65535. -/
theorem emittedCodesAreKeys : Obligations.EmittedCodesAreKeys := by
  intro i s t hi h
  obtain ⟨out, hout, hkeys⟩ := effect_encOut hi (exec_effect h)
  refine ⟨out, hout, fun k hk => ⟨hkeys k hk, ?cap⟩⟩
  case cap =>
    rintro rfl
    have hlt := hkeys _ hk
    have hcap := s.enc.next.isLt
    simp only [BitVec.toNat_ofNat] at hlt
    omega

/-- Settles O51: the effects of commands append, and an error appends nothing. -/
theorem streamsOnlyGrowByCommands : Obligations.StreamsOnlyGrowByCommands := by
  refine ⟨fun w s t h => ?grow, fun s => ⟨rfl, rfl, rfl⟩⟩
  case grow =>
    rcases executeWord_effect h with ⟨i, heff⟩ | ⟨e, rfl⟩
    · exact effect_streams heff
    · exact ⟨List.prefix_rfl, List.prefix_rfl, List.prefix_rfl⟩

/-- Settles O52: no action of the host changes the parameters. -/
theorem noStepChangesTheParameters : Obligations.NoStepChangesTheParameters := by
  intro s t h
  rcases step_cases h with rfl | ⟨a, rest, hact⟩
  · rfl
  · exact performAction_params (s := { s with inputs := rest }) hact

/-! ### Steps and resets (R55, R93, R94) -/

/-- Settles O7: the step takes the word, and Execute performs its command. -/
theorem stepPerformsThePendingCommand : Obligations.StepPerformsThePendingCommand :=
  fun _ _ _ _ hin herr hd => (step_action hin).trans (executeWord_ok herr hd)

/-- Settles O8: each action is taken from the front of the queue. -/
theorem stepTakesTheOtherHostActions : Obligations.StepTakesTheOtherHostActions :=
  fun _ _ => ⟨step_idle, step_action, step_action, step_action, step_action⟩

/-- Settles O17: a hardware reset is a soft reset that also empties the streams. -/
theorem hardwareResetAlsoEmptiesTheStreams : Obligations.HardwareResetAlsoEmptiesTheStreams :=
  fun s => ⟨hardReset s, softReset s, rfl, rfl, rfl, softReset_difOut s, softReset_encOut s, softReset_decOut s, rfl,
    rfl, rfl, hardReset_inputs s, hardReset_params s⟩

/-! ### The read port (10_state.md R31, 70_reset_and_hazards.md R98) -/

/-- CTRL is the chain bit and then the order bit. -/
theorem ctrlWord_toNat (s : State) :
    (ctrlWord s).toNat = s.glob.chain.toNat + 2 * (byteOrderBit s.glob.byteOrder).toNat := by
  have hchain : (fieldAt 0 (BitVec.ofBool s.glob.chain)).toNat = s.glob.chain.toNat := by
    rw [fieldAt_toNat _ (by decide), BitVec.toNat_ofBool, Nat.pow_zero, Nat.one_mul]
  rw [ctrlWord, or_fieldAt_toNat (hchain ▸ Bool.toNat_lt _) _ (by decide), hchain, Nat.pow_one]

/-- A field that fits a register is read as it stands. -/
theorem setWidth_toNat {n : Nat} (v : BitVec n) (h : n ≤ 32) : (v.setWidth 32).toNat = v.toNat :=
  BitVec.toNat_setWidth_of_le h

/-- Settles O20: the value is the model's free one. -/
theorem readInFlightChangesNoField : Obligations.ReadInFlightChangesNoField :=
  fun s _ => ⟨Config.busyRead s.draws, rfl⟩

/-- Settles O18: each register is its field, and no register is computed from LEFT, a table or a stream. -/
theorem readPortShowsTheRegisters : Obligations.ReadPortShowsTheRegisters := by
  refine ⟨fun s => ⟨rfl, rfl, ctrlWord_toNat s, setWidth_toNat _ (by decide), setWidth_toNat _ (by decide),
    setWidth_toNat _ (by decide), setWidth_toNat _ (by decide), setWidth_toNat _ (by decide),
    setWidth_toNat _ (by decide), setWidth_toNat _ (by decide), setWidth_toNat _ (by decide),
    setWidth_toNat _ (by decide), setWidth_toNat _ (by decide), setWidth_toNat _ (by decide), fun hmax => ?maxChans,
    setWidth_toNat _ (by decide)⟩, fun s a => rfl, readInFlightChangesNoField, fun s a left et dt o1 o3 o2 => rfl⟩
  case maxChans =>
    show (BitVec.ofNat 32 s.params.maxChans).toNat = _
    rw [BitVec.toNat_ofNat, Nat.mod_eq_of_lt (by omega)]

end Sys2Proof.Proofs
end

section
/-! PROOFS. Frames: what the commands of each unit leave unchanged, and the independence of the Encoder and the Decoder
(60_exceptions.md section 5). -/

namespace Sys2Proof.Proofs

open Sys2Proof.Machine

section Frames

variable {i : Instr} {s t : State} {v : Byte} {sym : Option Byte}

/-- An error entry leaves the control fields. -/
theorem control_of_glob {c : Cause} {w : Word} (h : t.glob = s.glob ∨ t = raiseError c w s) :
    t.glob.chain = s.glob.chain ∧ t.glob.byteOrder = s.glob.byteOrder := by
  rcases h with h | rfl
  · exact ⟨congrArg _ h, congrArg _ h⟩
  · exact ⟨rfl, rfl⟩

/-! ### The Differencer (R64) -/

/-- A sample that is taken is recorded and moves the scan, and its symbol is delivered. -/
theorem takeSample_delivers (h : takeSample v s = .ok t) :
    ∃ sym, deliverSymbol sym { s with dif := advanceScan (recorded v s.dif) } = .ok t := by
  obtain ⟨-, sym, d, -, -, hrec, hdel⟩ := takeSample_cases h
  obtain ⟨-, rfl⟩ := recordSample_ok.mp hrec
  exact ⟨sym, hdel⟩

/-- Delivering a symbol leaves ENDED and every entry of ENC_TABLE but NEXT's; unchained it leaves the Encoder, and
chained DIF_OUT. -/
theorem deliverSymbol_encoder (h : deliverSymbol sym s = .ok t) :
    t.enc.ended = s.enc.ended ∧ (∀ k, k ≠ s.enc.next → readStore t.enc.table k = readStore s.enc.table k) ∧
      (s.glob.chain = false → t.enc = s.enc ∧ t.encOut = s.encOut) ∧ (s.glob.chain = true → t.difOut = s.difOut) := by
  rcases deliverSymbol_cases h with ⟨-, rfl⟩ | ⟨a, -, hchain, rfl⟩ | ⟨a, e, out, -, hchain, hstep, rfl⟩
  · exact ⟨rfl, fun _ _ => rfl, fun _ => ⟨rfl, rfl⟩, fun _ => rfl⟩
  · exact ⟨rfl, fun _ _ => rfl, fun _ => ⟨rfl, rfl⟩, fun hc => by simp [hchain] at hc⟩
  · obtain ⟨hended, hread⟩ := encStep_frame hstep
    exact ⟨hended, hread, fun hc => by simp [hchain] at hc, fun _ => rfl⟩

/-- The Differencer's commands leave the Decoder and DEC_OUT, and the global fields unless they raise. -/
theorem differencer_frame (hop : (opcodeOf i).toNat / 16 = 1) (h : exec i s = .next t) :
    (t.dec = s.dec ∧ t.decOut = s.decOut) ∧ (t.glob = s.glob ∨ t = raiseError t.glob.cause (encode i) s) := by
  cases exec_effect h with
  | raised => exact ⟨⟨rfl, rfl⟩, .inr rfl⟩
  | difSetCols | difSetChans | difSetRows | difSetMode | difStart => exact ⟨⟨rfl, rfl⟩, .inl rfl⟩
  | difSample hs =>
    obtain ⟨sym, hdel⟩ := takeSample_delivers hs
    obtain ⟨-, hglob, hdec, hout, -⟩ := deliverSymbol_frame hdel
    exact ⟨⟨hdec, hout⟩, .inl hglob⟩
  | _ => simp [opcodeOf] at hop

/-- Their words leave DEC_OUT, in the halt too. -/
theorem executeWord_differencer_decOut (hop : (opcodeOf i).toNat / 16 = 1)
    (h : executeWord (encode i) s = .next t) : t.decOut = s.decOut := by
  cases herr : s.glob.err with
  | true =>
    rw [executeWord_halted _ herr] at h
    cases h
    split <;> rfl
  | false =>
    obtain ⟨⟨-, hout⟩, -⟩ := differencer_frame hop ((executeWord_encode herr i).symm.trans h)
    exact hout

/-- All of them but DIF_SAMPLE leave the Encoder, the streams and LEFT. -/
theorem differencer_outside (hop : (opcodeOf i).toNat / 16 = 1) (h : exec i s = .next t)
    (hi : ∀ v, i ≠ .difSample v) :
    t.enc = s.enc ∧ t.encOut = s.encOut ∧ t.difOut = s.difOut ∧ t.dif.left = s.dif.left := by
  cases exec_effect h with
  | raised | difSetCols | difSetChans | difSetRows | difSetMode | difStart => exact ⟨rfl, rfl, rfl, rfl⟩
  | difSample => exact absurd rfl (hi _)
  | _ => simp [opcodeOf] at hop

/-- Settles O55: the common frame, and then each command's own. -/
theorem differencerCommandsLeaveTheRest : Obligations.DifferencerCommandsLeaveTheRest := by
  intro i s t hop h
  obtain ⟨hdec, hglob⟩ := differencer_frame hop h
  refine ⟨hdec, control_of_glob hglob, hglob, exec_hostSide h, differencer_outside hop h, ?cols, ?chans, ?rows, ?mode,
    ?start, ?sample⟩
  case cols => rintro n rfl; cases exec_effect h <;> rfl
  case chans => rintro n rfl; cases exec_effect h <;> rfl
  case rows => rintro n rfl; cases exec_effect h <;> rfl
  case mode => rintro b rfl; cases exec_effect h <;> rfl
  case start => rintro rfl; cases exec_effect h <;> rfl
  case sample =>
    rintro v rfl
    cases exec_effect h with
    | raised =>
      exact ⟨rfl, rfl, rfl, rfl, fun _ _ => rfl, rfl, fun _ _ => rfl, fun _ => ⟨rfl, rfl⟩, fun _ => rfl⟩
    | difSample hs =>
      obtain ⟨sym, hdel⟩ := takeSample_delivers hs
      obtain ⟨hdif, -⟩ := deliverSymbol_frame hdel
      have hencoder := deliverSymbol_encoder hdel
      rw [hdif]
      exact ⟨advanceScan_cols _, advanceScan_chans _, advanceScan_rows _, advanceScan_mode _,
        fun c hc => by rw [advanceScan_left]; exact readStore_writeStore_other _ _ _ _ hc, hencoder⟩

/-! ### The Encoder (R70 to R72) -/

/-- The Encoder's commands leave the other units and their streams, and the global fields unless they raise. -/
theorem encoder_frame (hop : (opcodeOf i).toNat / 16 = 2) (h : exec i s = .next t) :
    (t.dif = s.dif ∧ t.difOut = s.difOut ∧ t.dec = s.dec ∧ t.decOut = s.decOut) ∧
      (t.glob = s.glob ∨ t = raiseError t.glob.cause (encode i) s) := by
  cases exec_effect h with
  | raised => exact ⟨⟨rfl, rfl, rfl, rfl⟩, .inr rfl⟩
  | encInit | encSymbol | encFlush => exact ⟨⟨rfl, rfl, rfl, rfl⟩, .inl rfl⟩
  | _ => simp [opcodeOf] at hop

/-- What ENC_FLUSH emits: the match, if there is one (R72). -/
def flushedCodes (e : Enc) : List Code := if e.mv = true then [e.matchCode] else []

theorem exec_encFlush_emits (s : State) :
    exec .encFlush s = .next { s with enc := flushed s.enc, encOut := s.encOut ++ flushedCodes s.enc } := by
  rw [exec_encFlush, flushedCodes]
  cases s.enc.mv with
  | true => rfl
  | false => simp

/-- Settles O56: the common frame, and then each command's own. -/
theorem encoderCommandsLeaveTheRest : Obligations.EncoderCommandsLeaveTheRest := by
  intro i s t hop h
  obtain ⟨hunits, hglob⟩ := encoder_frame hop h
  refine ⟨hunits, control_of_glob hglob, hglob, exec_hostSide h, ?init, ?symbol, ?flush⟩
  case init => rintro rfl; cases h; exact ⟨rfl, rfl⟩
  case symbol =>
    rintro x rfl
    cases exec_effect h with
    | raised => exact ⟨rfl, fun _ _ => rfl⟩
    | encSymbol _ hstep => exact encStep_frame hstep
  case flush => rintro rfl; cases h; exact ⟨rfl, rfl, rfl⟩

/-! ### The Decoder (R75 to R78) -/

/-- The Decoder's commands leave the other units and their streams, and the global fields unless they raise. -/
theorem decoder_frame (hop : (opcodeOf i).toNat / 16 = 3) (h : exec i s = .next t) :
    (t.dif = s.dif ∧ t.difOut = s.difOut ∧ t.enc = s.enc ∧ t.encOut = s.encOut) ∧
      (t.glob = s.glob ∨ t = raiseError t.glob.cause (encode i) s) := by
  cases exec_effect h with
  | raised => exact ⟨⟨rfl, rfl, rfl, rfl⟩, .inr rfl⟩
  | decInit | decCode | decByteFirst | decByteSecond | decEnd => exact ⟨⟨rfl, rfl, rfl, rfl⟩, .inl rfl⟩
  | _ => simp [opcodeOf] at hop

/-- DEC_CODE and DEC_BYTE write no entry of DEC_TABLE but NEXT's. -/
theorem decoder_table {x : Byte} {k : Code} (hi : i = .decCode k ∨ i = .decByte x) (h : exec i s = .next t) {j : Code}
    (hj : j ≠ s.dec.next) : readStore t.dec.table j = readStore s.dec.table j := by
  rcases hi with rfl | rfl
  · cases exec_effect h with
    | raised => rfl
    | decCode _ hstep => exact (decStep_frame hstep).2.2 j hj
  · cases exec_effect h with
    | raised | decByteFirst => rfl
    | decByteSecond _ hstep => exact (decStep_frame hstep).2.2 j hj

/-- Settles O57: the common frame, and then each command's own. -/
theorem decoderCommandsLeaveTheRest : Obligations.DecoderCommandsLeaveTheRest := by
  intro i s t hop h
  obtain ⟨hunits, hglob⟩ := decoder_frame hop h
  refine ⟨hunits, control_of_glob hglob, hglob, exec_hostSide h, ?stream, ?finish, ?pending,
    fun x k hi j hj => decoder_table hi h hj⟩
  case stream => rintro (rfl | rfl) <;> cases exec_effect h <;> rfl
  case finish => rintro rfl; cases exec_effect h <;> rfl
  case pending =>
    rintro k rfl
    cases exec_effect h with
    | raised => exact ⟨rfl, rfl⟩
    | decCode _ hstep =>
      obtain ⟨hhalf, hbyte, -⟩ := decStep_frame hstep
      exact ⟨hhalf, hbyte⟩

/-! ### The global commands (R56 to R58) -/

/-- Settles O54: the effects of the three commands, which raise nothing. -/
theorem globalCommandsLeaveTheRest : Obligations.GlobalCommandsLeaveTheRest := by
  intro i s t hop h
  cases i with
  | nop =>
    cases h
    exact ⟨⟨rfl, rfl, rfl⟩, ⟨rfl, rfl, rfl, rfl⟩, fun _ => ⟨rfl, rfl, rfl, rfl, rfl, rfl⟩, fun _ => rfl⟩
  | softReset =>
    cases h
    exact ⟨⟨rfl, rfl, rfl⟩, ⟨rfl, rfl, rfl, rfl⟩, fun hne => absurd rfl hne, fun hi => by cases hi⟩
  | setCtrl f =>
    cases h
    exact ⟨⟨rfl, rfl, rfl⟩, ⟨rfl, rfl, rfl, rfl⟩, fun _ => ⟨rfl, rfl, rfl, rfl, rfl, rfl⟩, fun hi => by cases hi⟩
  | _ => simp [opcodeOf] at hop

/-! ### Independence of the Encoder and the Decoder -/

/-- A command of the Encoder that does not raise acts alike wherever the Encoder is the same. -/
theorem exec_encoder_local (hop : (opcodeOf i).toNat / 16 = 2) (h : exec i s = .next t) (ht : t.glob.err = false) :
    ∃ e out, ∀ u : State, u.enc = s.enc → exec i u = .next { u with enc := e, encOut := u.encOut ++ out } := by
  cases exec_effect h with
  | raised => simp at ht
  | encInit => exact ⟨_, [], fun u _ => by rw [exec_encInit, List.append_nil]⟩
  | encSymbol hended hstep => exact ⟨_, _, fun u henc => exec_encSymbol_step (henc ▸ hended) (henc ▸ hstep)⟩
  | encFlush => exact ⟨_, _, fun u henc => by rw [exec_encFlush_emits, henc]⟩
  | _ => simp [opcodeOf] at hop

/-- A command of the Decoder that does not raise acts alike wherever the Decoder and BYTE_ORDER are the same. -/
theorem exec_decoder_local (hop : (opcodeOf i).toNat / 16 = 3) (h : exec i s = .next t) (ht : t.glob.err = false) :
    ∃ d out, ∀ u : State, u.glob = s.glob → u.dec = s.dec →
      exec i u = .next { u with dec := d, decOut := u.decOut ++ out } := by
  cases exec_effect h with
  | raised => simp at ht
  | decInit => exact ⟨_, [], fun u _ _ => by rw [exec_decInit, List.append_nil]⟩
  | decCode hh hstep => exact ⟨_, _, fun u _ hdec => exec_decCode_step (hdec ▸ hh) (hdec ▸ hstep)⟩
  | decByteFirst hh =>
    exact ⟨_, [], fun u _ hdec => by rw [exec_decByte_first (hdec ▸ hh), hdec, List.append_nil]⟩
  | decByteSecond hh hstep =>
    exact ⟨_, _, fun u hglob hdec => exec_decByte_second (hdec ▸ hh) (by rw [hglob, hdec]; exact hstep)⟩
  | decEnd hh => exact ⟨s.dec, [], fun u _ hdec => by rw [exec_decEnd_ok (hdec ▸ hh), ← hdec, List.append_nil]⟩
  | _ => simp [opcodeOf] at hop

/-- Settles O53: either order ends with the Encoder of the one command and the Decoder of the other. -/
theorem encoderAndDecoderCommute : Obligations.EncoderAndDecoderCommute := by
  intro i j s a b hi hj herr ha haerr hb hberr
  obtain ⟨e, codes, henc⟩ := exec_encoder_local hi ha haerr
  obtain ⟨d, symbols, hdec⟩ := exec_decoder_local hj hb hberr
  obtain rfl := Host.Outcome.next.inj ((henc s rfl).symm.trans ha)
  obtain rfl := Host.Outcome.next.inj ((hdec s rfl rfl).symm.trans hb)
  exact ⟨_, hdec _ rfl rfl, henc _ rfl, herr⟩

end Frames

end Sys2Proof.Proofs
end

section
/-! PROOFS. Whole images (41_differencer.md R60, R65) and the host's sequences (70_reset_and_hazards.md R96):
INVERTIBLE, chaining, and an image compressed and decompressed. -/

namespace Sys2Proof.Proofs

open Sys2Proof.Machine

/-! ### The symbols of an INVERTIBLE image (R60) -/

/-- The modular difference is the subtraction of bytes. -/
theorem modDifference_eq_sub (v l : Byte) : modDifference v l = v - l := by
  have h := modDifference_toNat v l
  have hv := v.isLt
  have hl := l.isLt
  apply BitVec.eq_of_toNat_eq
  rw [BitVec.toNat_sub]
  omega

theorem imageSymbols_invertible {rows cols chans : Nat} {g : Grid} (h : 0 < cols) :
    imageSymbols .invertible rows cols chans g = invertibleSymbols rows cols chans g := by
  refine List.flatMap_congr fun y _ => ?_
  rw [rowSymbols_eq h, pixelSymbols_invertible_zero]
  simp only [difference, modDifference_eq_sub]

/-- In either mode the symbols are the image's transform (R59, R60). -/
theorem transform_eq_imageSymbols {rows cols chans : Nat} {g : Grid} (h : 0 < cols) (m : Mode) :
    (match m with
      | .reference => referenceSymbols rows cols chans g
      | .invertible => invertibleSymbols rows cols chans g) = imageSymbols m rows cols chans g := by
  cases m with
  | reference => exact (imageSymbols_reference h).symm
  | invertible => exact (imageSymbols_invertible h).symm

/-- Settles O30: the symbols of the grid's scan are the deltas, and unchained they go to DIF_OUT. -/
theorem invertibleImageGivesTheDeltas : Obligations.InvertibleImageGivesTheDeltas := by
  intro s g hi hsafe hchain hmode hcols hchans hrows
  have hconf : Configured s.dif := ⟨hcols, hchans, hrows⟩
  obtain ⟨e, hscan, hdone⟩ := scans_image (dif_inv (started_inv hi hconf)) hconf g
  obtain ⟨t, hrun, rfl, hsafe', hdel⟩ := runCommands_image hi hsafe (fun hc => by simp [hchain] at hc) hconf hscan
  refine ⟨t, hrun, ?_, hdone, hsafe'⟩
  rw [hdel.unchained hchain, hmode, imageSymbols_invertible (toNat_pos_of_ne_zero hcols)]

/-! ### Chaining (R65) -/

/-- A run of the Differencer's commands leaves DEC_OUT. -/
theorem runCommands_differencer_decOut {is : List Instr} {s t : State}
    (hop : ∀ i ∈ is, (opcodeOf i).toNat / 16 = 1) (h : runCommands is s = .next t) : t.decOut = s.decOut := by
  induction is generalizing s with
  | nil => cases h; rfl
  | cons i is ih =>
    rw [runCommands_cons] at h
    obtain ⟨hi, his⟩ := List.forall_mem_cons.mp hop
    cases hw : executeWord (encode i) s with
    | next u => rw [hw] at h; exact (ih his h).trans (executeWord_differencer_decOut hi hw)
    | fault f => rw [hw] at h; cases h
    | refused r => rw [hw] at h; cases h

/-- A chained image, as a run: the Encoder takes the image's symbols, and the other streams get nothing. -/
theorem runCommands_chainedImage {s : State} (hi : Inv s) (hsafe : Safe s) (hchain : s.glob.chain = true)
    (hended : s.enc.ended = false) (hconf : Configured s.dif) (g : Grid) :
    ∃ t out, runCommands
        (.difStart :: (gridSamples s.dif.rows.toNat s.dif.cols.toNat s.dif.chans.toNat g).map .difSample) s = .next t ∧
      Safe t ∧ t.dif.state = .done ∧ t.difOut = s.difOut ∧ t.decOut = s.decOut ∧
      Encodes s.enc (imageSymbols s.dif.mode s.dif.rows.toNat s.dif.cols.toNat s.dif.chans.toNat g) t.enc out ∧
      t.encOut = s.encOut ++ out := by
  obtain ⟨e, hscan, hdone⟩ := scans_image (dif_inv (started_inv hi hconf)) hconf g
  obtain ⟨t, hrun, rfl, hsafe', hdel⟩ := runCommands_image hi hsafe (fun _ => hended) hconf hscan
  obtain ⟨hdif, out, hsteps, hout⟩ := hdel.chained hchain
  refine ⟨t, out, hrun, hsafe', hdone, hdif, runCommands_differencer_decOut ?_ hrun, hsteps, hout⟩
  simp [opcodeOf]

/-- Settles O31: both runs are the same steps of the Encoder. -/
theorem chainedImageFeedsTheEncoder : Obligations.ChainedImageFeedsTheEncoder := by
  intro s g symbols hi hsafe hchain hended hcols hchans hrows hsymbols
  obtain ⟨t, out, hrun, hsafe', hdone, hdif, -, hsteps, hout⟩ :=
    runCommands_chainedImage hi hsafe hchain hended ⟨hcols, hchans, hrows⟩ g
  obtain rfl := hsymbols.trans (transform_eq_imageSymbols (toNat_pos_of_ne_zero hcols) _)
  exact ⟨t, _, hrun, runCommands_encodes hsteps rfl hsafe hended, rfl, hout, hdif, hdone, hsafe'⟩

/-! ### The compress sequence (R96) -/

theorem modeOf_modeBit (m : Mode) : modeOf (modeBit m) = m := by cases m <;> rfl

/-- The block as the compress sequence has set it up before DIF_START. -/
def compressing (f : BitVec 2) (rows cols chans : Dim) (m : Mode) (s : State) : State :=
  { s with
    glob := { s.glob with chain := chainOf f, byteOrder := byteOrderOf f }
    dif := { s.dif with rows := rows, cols := cols, chans := chans, mode := m }
    enc := encInitial }

section Compress

variable {s : State} {f : BitVec 2} {rows cols chans : Dim} {m : Mode} {is : List Instr}

/-- Outside RUN, legal settings are all taken. -/
theorem runCommands_compressing (hsafe : Safe s) (hstate : s.dif.state ≠ .run) (hrows : rows ≠ 0#24)
    (hcols : cols ≠ 0#24) (hchans : chans ≠ 0#24) (hmax : chans.toNat ≤ s.params.maxChans) :
    runCommands (.encInit :: .setCtrl f :: .difSetRows rows :: .difSetCols cols :: .difSetChans chans ::
      .difSetMode (modeBit m) :: is) s = runCommands is (compressing f rows cols chans m s) := by
  have hle (n : Dim) : n.toNat ≤ 16777215 := Nat.le_of_lt_succ n.isLt
  rw [runCommands_cons_exec hsafe (exec_encInit s), runCommands_cons_exec (by exact hsafe) rfl,
    runCommands_cons_exec (by exact hsafe) (congrArg _ (setDimension_legal (by exact hstate) hrows (hle _))),
    runCommands_cons_exec (by exact hsafe) (congrArg _ (setDimension_legal (by exact hstate) hcols (hle _))),
    runCommands_cons_exec (by exact hsafe) (congrArg _ (setDimension_legal (by exact hstate) hchans (by exact hmax))),
    runCommands_cons_exec (by exact hsafe) (exec_difSetMode_ok (by exact hstate) _), modeOf_modeBit]
  rfl

/-- The settings keep the invariant. -/
theorem compressing_inv (hi : Inv s) (hstate : s.dif.state ≠ .run) (hmax : chans.toNat ≤ s.params.maxChans) :
    Inv (compressing f rows cols chans m s) := by
  obtain ⟨hglob, hparams, ⟨-, -, hidle, hwf, hdepth, -, -, hrow⟩, -, hdec⟩ := hi
  exact ⟨hglob, hparams, ⟨hmax, fun h => absurd h hstate, hidle, hwf, hdepth, fun h => absurd h hstate,
    fun h => absurd h hstate, hrow⟩,
    (by decide : encInitial.Inv), hdec⟩

end Compress

/-- The codes of a segment and its flush decode to the segment's symbols; a segment of no symbols has no codes. -/
theorem decodes_flushed {e : Enc} {xs : List Byte} {out : List Code} (h : Encodes encInitial xs e out) :
    ∃ d, Decodes decInitial (out ++ flushedCodes e) d xs := by
  by_cases hne : xs = []
  · subst hne
    cases h
    exact ⟨_, .nil _⟩
  · obtain ⟨hmv, d, hdec, -⟩ := decodes_segment hne h
    rw [flushedCodes, if_pos hmv]
    exact ⟨d, hdec⟩

/-- Settles O45: the settings are taken, the image is chained to the Encoder, and the codes of that segment decode to
the image's symbols. -/
theorem compressedImageDecompresses : Obligations.CompressedImageDecompresses := by
  intro s f rows cols chans m g symbols hi hsafe hstate hf hrows hcols hchans hmax hsymbols
  obtain ⟨t, out, hrun, hsafe', hdone, hdif, hdecOut, hsteps, hout⟩ :=
    runCommands_chainedImage (compressing_inv (f := f) (rows := rows) (cols := cols) (m := m) hi hstate hmax) hsafe hf
      rfl ⟨hcols, hchans, hrows⟩ g
  obtain rfl := hsymbols.trans (transform_eq_imageSymbols (toNat_pos_of_ne_zero hcols) m)
  obtain ⟨d, hdec⟩ := decodes_flushed hsteps
  refine ⟨{ t with enc := flushed t.enc, encOut := t.encOut ++ flushedCodes t.enc, inputs := [] },
    out ++ flushedCodes t.enc, ?compress, hsafe', hdone, hdif, by rw [hout, List.append_assoc]; rfl,
    _, runCommands_decInit hdec hsafe', hsafe', by rw [hdecOut]; rfl⟩
  case compress =>
    simp only [List.cons_append, List.nil_append]
    rw [runCommands_compressing hsafe hstate hrows hcols hchans hmax, ← List.cons_append]
    refine (runCommands_append hrun).trans ?_
    rw [runCommands_cons_exec hsafe' (exec_encFlush_emits t), runCommands_nil]

end Sys2Proof.Proofs
end

section
/-! PROOFS. The guards against reads of unspecified contents (10_state.md R34): LEFT, DEC_TABLE, and Lookup. -/

namespace Sys2Proof.Proofs

open Sys2Proof.Machine

section Guards

variable {s t : State} {d : Dif} {v : Byte} {next k m : Code} {table : Store 16 Entry} {x : Byte}

/-! ### LEFT -/

/-- Outside column 0 a channel that the current row has not written faults. -/
theorem exec_difSample_unwritten (hrun : s.dif.state = .run) (hx : s.dif.x ≠ 0#24)
    (hc : s.dif.c.toNat < s.params.maxChans) (hread : readStore s.dif.leftRow s.dif.c = none) (v : Byte) :
    exec (.difSample v) s = .fault .leftUnwritten := by
  have hleft : readLeft s.params.maxChans s.dif.left s.dif.leftRow s.dif.c = .error (.fault .leftUnwritten) := by
    rw [readLeft, if_pos hc, hread]
  have hsym : sampleSymbol v s.params.maxChans s.dif = .error (.fault .leftUnwritten) := by
    rw [sampleSymbol, if_neg hx, hleft]
  rw [exec, execDifSample, takeSample, if_neg (not_not.mpr hrun), hsym, finishCommand_fault]

/-- A position that counts up is not 0. -/
theorem add_one_ne_zero {n k : Dim} (h : n.toNat + 1 < k.toNat) : n + 1#24 ≠ 0#24 := by
  intro h0
  have := toNat_add_one h
  rw [h0, BitVec.toNat_ofNat] at this
  omega

/-- Where the scan goes and what it leaves of the row's record: a row goes on with its record, and the end of a row
leaves none. -/
theorem advanceScan_leftRow (d : Dif) :
    (((advanceScan d).x ≠ 0#24 ∨ (advanceScan d).c ≠ 0#24) ∧ (advanceScan d).leftRow = d.leftRow) ∨
    ((advanceScan d).x = 0#24 ∧ (advanceScan d).c = 0#24 ∧ (advanceScan d).leftRow = []) := by
  rcases advanceScan_cases d with ⟨hc, h⟩ | ⟨-, hx, h⟩ | ⟨-, -, -, h⟩ | ⟨-, -, -, h⟩ <;> rw [h]
  · exact .inl ⟨.inr (add_one_ne_zero hc), rfl⟩
  · exact .inl ⟨.inl (add_one_ne_zero hx), rfl⟩
  · exact .inr ⟨rfl, rfl, rfl⟩
  · exact .inr ⟨rfl, rfl, rfl⟩

/-- A sample that raises nothing is recorded and moves the scan. -/
theorem exec_difSample_dif (h : exec (.difSample v) s = .next t) (ht : t.glob.err = false) :
    t.dif = advanceScan (recorded v s.dif) := by
  cases exec_effect h with
  | raised => simp at ht
  | difSample hs =>
    obtain ⟨sym, hdel⟩ := takeSample_delivers hs
    exact (deliverSymbol_frame hdel).1

theorem recorded_leftRow_zero (hx : d.x = 0#24) : (recorded v d).leftRow = writeStore d.leftRow d.c () := if_pos hx

theorem recorded_leftRow_of_ne_zero (hx : d.x ≠ 0#24) : (recorded v d).leftRow = d.leftRow := if_neg hx

/-! ### DEC_TABLE -/

/-- A code from 256 that is no key has no string. -/
theorem stringByLinks_unlisted (fuel : Nat) (h256 : 256 ≤ k.toNat) (hk : next.toNat ≤ k.toNat) :
    stringByLinks next table fuel k = none := by
  cases fuel with
  | zero => rw [stringByLinks, if_neg (Nat.not_lt.mpr h256)]
  | succ n => rw [stringByLinks, if_neg (Nat.not_lt.mpr h256), if_neg (Nat.not_lt.mpr hk)]

/-- The string of a key from 256 is that of its entry's PREFIX with its symbol, if both are there. -/
theorem dictString_key (h256 : 256 ≤ k.toNat) (hk : k.toNat < next.toNat) :
    ∃ fuel, dictString next table k = (readStore table k).bind fun e =>
      (stringByLinks next table fuel e.pre).map fun p => p.snoc e.sym := by
  obtain ⟨fuel, hfuel⟩ : ∃ fuel, k.toNat = fuel + 1 := ⟨k.toNat - 1, by omega⟩
  refine ⟨fuel, ?_⟩
  rw [dictString, hfuel, stringByLinks, if_neg (Nat.not_lt.mpr h256), if_pos hk]
  cases readStore table k with
  | none => rfl
  | some e => cases hp : stringByLinks next table fuel e.pre <;> simp [hp]

/-- After the first code, a code whose string cannot be read faults. -/
theorem exec_decCode_unspecified (hh : s.dec.half = false) (hpv : s.dec.pv = true)
    (hcur : currentString s.dec k = .error (.fault .decEntryUnspecified)) :
    exec (.decCode k) s = .fault .decEntryUnspecified := by
  simp [exec, execDecCode, consumeCode, decStep, hh, hpv, hcur]

theorem decString_none {d : Dec} (h : dictString d.next d.table k = none) :
    decString d k = .error (.fault .decEntryUnspecified) := by
  rw [decString, h]

/-- A key without a string. -/
theorem currentString_unspecified_key {d : Dec} (hk : k.toNat < d.next.toNat)
    (h : dictString d.next d.table k = none) : currentString d k = .error (.fault .decEntryUnspecified) := by
  rw [currentString, if_pos hk, decString_none h]

/-- NEXT's own code, where the previous code has no string. -/
theorem currentString_unspecified_prev {d : Dec} (hroom : d.next.toNat < 65535)
    (h : dictString d.next d.table d.prev = none) :
    currentString d d.next = .error (.fault .decEntryUnspecified) := by
  rw [currentString, if_neg (Nat.lt_irrefl _), if_pos ⟨rfl, hroom⟩, decString_none h]

/-! ### Lookup (R69) -/

/-- A search among elements that include all it can find. -/
theorem find?_filter_of_imp {α : Type} {p q : α → Bool} (h : ∀ a, q a = true → p a = true) (l : List α) :
    (l.filter p).find? q = l.find? q := by
  rw [List.find?_filter]
  congr 1
  funext a
  cases hq : q a with
  | true => simp [h a hq]
  | false => simp

/-- Lookup takes only entries below NEXT, so it finds the same among them. -/
theorem lookupEntry_filter : lookupEntry next table m x =
    lookupEntry next (table.filter fun p => p.1.toNat < next.toNat) m x := by
  rw [lookupEntry, lookupEntry, find?_filter_of_imp]
  intro p hp
  simp only [Bool.and_eq_true] at hp
  exact hp.1.2

end Guards

/-- Settles O60: each read that has no contents faults, the row's record follows the scan, and Lookup by
`lookupEntry_filter`. -/
theorem guardsFaultOnUnspecifiedReads : Obligations.GuardsFaultOnUnspecifiedReads := by
  refine ⟨fun s v hrun hx hc hread => exec_difSample_unwritten hrun hx hc hread v, fun s t h ht => ?start,
    fun s t v h ht => ?sample, fun s k hh hpv h256 hk => ?key, fun s hh hpv hroom h256 hprev => ?prev,
    fun next m x table => lookupEntry_filter⟩
  case start =>
    cases exec_effect h with
    | raised => simp at ht
    | difStart => exact readStore_nil
  case sample =>
    rw [exec_difSample_dif h ht]
    rcases advanceScan_leftRow (recorded v s.dif) with ⟨hpos, hrow⟩ | ⟨hx, hc, hrow⟩ <;> rw [hrow]
    · refine ⟨fun hx hc => absurd hpos (by simp [hx, hc]), fun hx _ => ?_, fun hx _ => recorded_leftRow_of_ne_zero hx⟩
      rw [recorded_leftRow_zero hx]
      exact readStore_writeStore_same _ _ _
    · exact ⟨fun _ _ => readStore_nil, fun _ hpos => absurd hpos (by simp [hx, hc]), fun _ hne => absurd hx hne⟩
  case key =>
    obtain ⟨fuel, hstring⟩ := dictString_key h256 hk (table := s.dec.table)
    refine ⟨fun hread => ?_, fun e hread he256 hpre => ?_⟩
    · rw [hread, Option.bind_none] at hstring
      exact exec_decCode_unspecified hh hpv (currentString_unspecified_key hk hstring)
    · rw [hread, Option.bind_some, stringByLinks_unlisted fuel he256 hpre, Option.map_none] at hstring
      exact exec_decCode_unspecified hh hpv (currentString_unspecified_key hk hstring)
  case prev =>
    exact exec_decCode_unspecified hh hpv (currentString_unspecified_prev hroom (stringByLinks_unlisted _ h256 hprev))

end Sys2Proof.Proofs
end
